-- ==== Sys2Proof/Word.lean ====
section
/-! DEFINITION. The word types and the small enumerations of the USB-BDT engine (spec 00_scope.md R10, R12). -/

namespace Sys2Proof

/-- One byte of memory or of a packet. -/
abbrev Byte := BitVec 8

/-- A descriptor's flag word or byte count (30_encoding.md R93). -/
abbrev Half := BitVec 16

/-- A physical address, a descriptor word, or the 32-bit value of a register access. -/
abbrev Word := BitVec 32

/-- The direction of an endpoint (00_scope.md R12): `rx` is 0, host to device; `tx` is 1, device to host. -/
inductive Dir where
  | rx
  | tx
  deriving DecidableEq, Repr

/-- The three tokens that start a transaction (42_bus_transactions.md R193). -/
inductive Kind where
  | out
  | inn
  | setup
  deriving DecidableEq, Repr

/-- What the bus sees from the engine (42_bus_transactions.md R192); `data true bytes` is DATA1. -/
inductive Response where
  | none
  | ack
  | nak
  | stall
  | data (toggle : Bool) (bytes : List Byte)
  deriving DecidableEq, Repr

/-- The registers of the block (10_state.md R39). -/
inductive Reg where
  | otgcon
  | pwrc
  | ir
  | ie
  | eir
  | stat
  | con
  | addr
  | bdtp1
  | bdtp2
  | bdtp3
  | ep (n : Fin 16)
  deriving DecidableEq, Repr

/-- The width of a memory or register access. -/
inductive Width where
  | w8
  | w16
  | w32
  deriving DecidableEq, Repr

end Sys2Proof
end

