-- ==== Sys2Proof/Config.lean ====
section
/-! DEFINITION. The parameters of the block (spec 00_scope.md R7) as plain data, their defaults, and the free values
(spec 93_implementation_defined.md section 2). -/

namespace Sys2Proof

/-- `REG_ADDR` (00_scope.md R7, 10_state.md R21): the physical address of every register. The endpoint control
registers are an array with a base address and a constant stride. -/
structure RegMap where
  otgcon : Word
  pwrc : Word
  ir : Word
  ie : Word
  eir : Word
  stat : Word
  con : Word
  addr : Word
  bdtp1 : Word
  bdtp2 : Word
  bdtp3 : Word
  epBase : Word
  epStride : Word
  deriving DecidableEq, Repr

/-- The informative offsets of 93_implementation_defined.md IK12, in the page at 0x1F885000. PRESUMED (log 10): the spec
leaves `REG_ADDR` open and takes this table from general knowledge. -/
def RegMap.default : RegMap where
  otgcon := 0x1F885070#32
  pwrc := 0x1F885080#32
  ir := 0x1F885200#32
  ie := 0x1F885210#32
  eir := 0x1F885220#32
  stat := 0x1F885240#32
  con := 0x1F885250#32
  addr := 0x1F885260#32
  bdtp1 := 0x1F885270#32
  bdtp2 := 0x1F8852C0#32
  bdtp3 := 0x1F8852D0#32
  epBase := 0x1F885300#32
  epStride := 0x10#32

/-- One value of `PKTDIS_RESPONSE` (00_scope.md R7, 42_bus_transactions.md R195): the default rule, or a fixed answer. -/
inductive HoldOff where
  /-- NAK for IN and OUT on an endpoint with handshake, nothing otherwise. -/
  | nakOrNone
  | always (r : Response)
  deriving DecidableEq, Repr

/-- `DTS_MISMATCH_HANDSHAKE` (00_scope.md R7): ACK or NAK. -/
inductive MismatchHandshake where
  | ack
  | nak
  deriving DecidableEq, Repr

/-- The parameters a model takes as arguments (00_scope.md R7). `memHoles` are the ranges (first address, length) where
`MemValid` is false. -/
structure Config where
  fifoDepth : Nat
  holdOffOut : HoldOff
  holdOffIn : HoldOff
  holdOffSetup : HoldOff
  mismatch : MismatchHandshake
  memHoles : List (Nat × Nat)
  regs : RegMap
  deriving DecidableEq, Repr

/-- The defaults of 00_scope.md R7. -/
def Config.default : Config where
  fifoDepth := 4
  holdOffOut := .nakOrNone
  holdOffIn := .nakOrNone
  holdOffSetup := .nakOrNone
  mismatch := .ack
  memHoles := []
  regs := RegMap.default

/-- A draw (00_scope.md R11): the byte drawn the `n`-th time. It has no body, so nothing constrains it (log 7). -/
opaque Config.freeBits : Nat → Byte

/-- The byte that memory holds at an address after a system reset (10_state.md R52): unspecified, so it has no body
(log 8). -/
opaque Config.powerOnByte : Nat → Byte

end Sys2Proof
end

