-- ==== Sys2Proof/Syntax.lean ====
section
/-! DEFINITION. The operations of the block: one constructor for each row of spec/opcode_table.json. -/

namespace Sys2Proof

/-- The operations (92_eei_decisions.md D45: descriptor commands, bus operations, register operations).
`t` is DATA01, `s` is DTS, `n` a byte count, `a` a buffer address, `odd` a parity (true is odd), `v` a written value. -/
inductive Instr where
  -- Descriptor commands and results (41_descriptor_ops.md R160 to R164). The engine reads the buffer address itself,
  -- from word 1, when it is about to use the buffer (R168, R203), so no command carries it as an operand.
  | bdData (t s : Bool) (n : Half)
  | bdStall (t s : Bool) (n : Half)
  | bdIdle (flags n : Half)
  | bdDone (t : Bool) (kind : Kind) (n : Half)
  | bdDoneOut (t : Bool) (n : Half)
  | bdDoneIn (t : Bool) (n : Half)
  | bdDoneSetup (t : Bool) (n : Half)
  -- Hand-over operations of software (R161, R163, R165 to R167; expansions 30_encoding.md R108).
  | arm (ep : Fin 16) (dir : Dir) (odd : Bool) (n : Half) (a : Word) (t s : Bool)
  | armStall (ep : Fin 16) (dir : Dir) (odd : Bool) (n : Half) (a : Word) (t s : Bool)
  | stallOverride (ep : Fin 16) (dir : Dir) (odd : Bool) (n : Half) (a : Word) (t s : Bool)
  | reclaim (ep : Fin 16) (dir : Dir) (odd : Bool)
  | bdInit (ep : Fin 16) (dir : Dir)
  -- Engine steps (41_descriptor_ops.md R168, 43_completion.md R231).
  | fetch
  | retire (ep : Fin 16) (dir : Dir) (odd : Bool) (n : Half) (t : Bool) (kind : Kind)
  -- Bus operations (42_bus_transactions.md R205, R208, R210, R217 to R219).
  | busOut (addr : BitVec 7) (ep : Fin 16) (toggle : Bool) (payload : List Byte)
  | busIn (addr : BitVec 7) (ep : Fin 16) (ack : Bool)
  | busSetup (addr : BitVec 7) (ep : Fin 16) (toggle : Bool) (payload : List Byte)
  | busSof
  | busReset
  | busErr (m : Byte)
  -- Register operations (40_register_ops.md R120 to R143).
  | rdEp (n : Fin 16)
  | wrEp (n : Fin 16) (v : Word)
  | rdPwrc
  | wrPwrc (v : Word)
  | rdCon
  | wrCon (v : Word)
  | rdAddr
  | wrAddr (v : Word)
  | rdOtgcon
  | wrOtgcon (v : Word)
  | rdIr
  | wrIr (v : Word)
  | rdIe
  | wrIe (v : Word)
  | rdEir
  | wrEir (v : Word)
  | rdStat
  | wrStat (v : Word)
  | rdBdtp1
  | wrBdtp1 (v : Word)
  | rdBdtp2
  | wrBdtp2 (v : Word)
  | rdBdtp3
  | wrBdtp3 (v : Word)
  deriving DecidableEq, Repr

end Sys2Proof
end

