-- ==== Sys2Proof/Decode.lean ====
section
/-! DEFINITION. From bits to operations and back (spec 30_encoding.md, 41_descriptor_ops.md R168). Decoding is total on any
bytes and rejects by name. The formats are told apart by the port they arrive at, not by their bits (30_encoding.md R90). -/

namespace Sys2Proof

/-! ## Formats -/

/-- The formats of operations. `bd` is word 0 of a descriptor (30_encoding.md R91 to R93), `tok` a token with its data
packet or handshake (R94), `cond` a line condition (R102), `reg` a register access (R103). `pseudo` is a hand-over
operation of software (R108) and `eng` an engine step. The spec gives bits to `bd` and `tok` only; the bytes of the others
are DESIGN CHOICE (log 4). -/
inductive Format where
  | bd
  | tok
  | cond
  | reg
  | pseudo
  | eng
  deriving DecidableEq, Repr

/-- An operation as bits: its format and its bytes, the lowest first. -/
structure Frame where
  fmt : Format
  bytes : List Byte
  deriving DecidableEq, Repr

/-- Why bits are no operation. Every one errs on the safe side: nothing is proved about a run that meets it. -/
inductive DecodeError where
  /-- U1: a command with KEEP or NINC set (30_encoding.md R105). -/
  | keepOrNinc
  /-- U2: a command with a flag bit of 15:8 or 1:0 set (30_encoding.md R105). -/
  | reservedFlags
  /-- U3: a command with a byte count above 1023 (30_encoding.md R98). -/
  | countTooLarge
  /-- U8: a token identifier that is none of OUT, IN, SETUP, SOF (30_encoding.md R105, log 19). -/
  | unknownToken
  /-- U9: a register access that is not one aligned 32-bit access (10_state.md R21). -/
  | narrowRegisterAccess
  /-- A register access at an address where the register map has no register (log 20). -/
  | notARegister
  /-- A data packet longer than the 1023 bytes of 30_encoding.md R94 (log 20). -/
  | packetTooLong
  /-- Bytes that no operation of the format has (log 20). -/
  | malformed
  /-- A descriptor word or an engine step offered from outside: only the engine runs these (log 20). -/
  | engineOnly
  deriving DecidableEq, Repr

/-! ## Bytes -/

/-- Byte `i` of a value, byte 0 the lowest (20_memory.md R65). -/
def byteAt (n : Nat) (v : BitVec n) (i : Nat) : Byte :=
  v.extractLsb' (8 * i) 8

/-- Two bytes, the low one first, as a 16-bit value (20_memory.md R65). -/
def half (b0 b1 : Byte) : Half :=
  b1 ++ b0

/-- Four bytes, the low one first, as a 32-bit value (20_memory.md R65). -/
def word (b0 b1 b2 b3 : Byte) : Word :=
  b3 ++ b2 ++ b1 ++ b0

/-- The two bytes of a 16-bit value, the low one first. -/
def halfBytes (v : Half) : List Byte :=
  [byteAt 16 v 0, byteAt 16 v 1]

/-- The four bytes of a 32-bit value, the low one first. -/
def wordBytes (v : Word) : List Byte :=
  [byteAt 32 v 0, byteAt 32 v 1, byteAt 32 v 2, byteAt 32 v 3]

/-- One flag as a 1-bit value. -/
def bit (b : Bool) : BitVec 1 :=
  BitVec.ofBool b

/-- Bit `i` of a value. -/
def bitAt (n : Nat) (v : BitVec n) (i : Nat) : Bool :=
  v.getLsbD i

/-! ## Small encodings -/

/-- `MAX_COUNT` (00_scope.md R7, 30_encoding.md R98). -/
def maxCount : Nat := 1023

/-- The packet identifier of a token (30_encoding.md R95). -/
def pidOf : Kind → BitVec 4
  | .out => 0b0001#4
  | .inn => 0b1001#4
  | .setup => 0b1101#4

/-- The packet identifier of a start-of-frame token (30_encoding.md R95). -/
def sofPid : BitVec 4 := 0b0101#4

/-- The token a packet identifier stands for, if it starts a transaction (30_encoding.md R95). -/
def kindOfPid (p : BitVec 4) : Option Kind :=
  if p = pidOf .out then some .out
  else if p = pidOf .inn then some .inn
  else if p = pidOf .setup then some .setup
  else none

/-- The direction a transaction uses: IN uses TX, OUT and SETUP use RX (30_encoding.md R97). -/
def dirOf : Kind → Dir
  | .inn => .tx
  | .out => .rx
  | .setup => .rx

/-- The number of a direction (00_scope.md R12). -/
def dirBit : Dir → Bool
  | .rx => false
  | .tx => true

/-- The direction of a number (00_scope.md R12). -/
def dirOfBit (b : Bool) : Dir :=
  if b then .tx else .rx

/-! ## Descriptor words -/

/-- Format BDS (30_encoding.md R91): the flag word of a data command, `0x0080 | t<<6 | s<<3` (41_descriptor_ops.md R160). -/
def dataFlags (t s : Bool) : Half :=
  (0#8 ++ 1#1 ++ bit t ++ 0#2 ++ bit s ++ 0#3 : BitVec 16)

/-- Format BDS: the flag word of a stall command, `0x0084 | t<<6 | s<<3` (41_descriptor_ops.md R163). -/
def stallFlags (t s : Bool) : Half :=
  (0#8 ++ 1#1 ++ bit t ++ 0#2 ++ bit s ++ 1#1 ++ 0#2 : BitVec 16)

/-- Format BDH (30_encoding.md R92): the flag word the engine writes back. -/
def resultFlags (t : Bool) (k : Kind) : Half :=
  (0#8 ++ 0#1 ++ bit t ++ pidOf k ++ 0#2 : BitVec 16)

/-- Word 0 of a descriptor (30_encoding.md R93): the count above the flags. -/
def word0 (n flags : Half) : Word :=
  n ++ flags

/-- The flags of word 0 (41_descriptor_ops.md R168). -/
def flagsOf (w0 : Word) : Half :=
  w0.extractLsb' 0 16

/-- The byte count of word 0 (41_descriptor_ops.md R168). -/
def countOf (w0 : Word) : Half :=
  w0.extractLsb' 16 16

/-- What a fetched word 0 commands (30_encoding.md R101). -/
inductive Command where
  | idle
  | data (t s : Bool) (n : Half)
  | stall (t s : Bool) (n : Half)
  deriving DecidableEq, Repr

/-- FETCH's reading of word 0 (41_descriptor_ops.md R168), its tests in the rule's order. -/
def fetchCommand (w0 : Word) : Except DecodeError Command :=
  let f := flagsOf w0
  let n := countOf w0
  if bitAt 16 f 7 = false then .ok .idle
  else if f.extractLsb' 8 8 ≠ 0#8 ∨ f.extractLsb' 0 2 ≠ 0#2 then .error .reservedFlags
  else if bitAt 16 f 5 = true ∨ bitAt 16 f 4 = true then .error .keepOrNinc
  else if maxCount < n.toNat then .error .countTooLarge
  else if bitAt 16 f 2 = true then .ok (.stall (bitAt 16 f 6) (bitAt 16 f 3) n)
  else .ok (.data (bitAt 16 f 6) (bitAt 16 f 3) n)

/-- The token whose result a word 0 holds: UOWN 0, the zero bits of format BDH zero, one of the three packet identifiers, a
count a packet can have (30_encoding.md R92, log 5). -/
def resultKind (f n : Half) : Option Kind :=
  if f.extractLsb' 7 9 = 0#9 ∧ f.extractLsb' 0 2 = 0#2 ∧ n.toNat ≤ maxCount then kindOfPid (f.extractLsb' 2 4) else none

/-- The row of the opcode table a word 0 with UOWN 0 belongs to: a result of the engine, or an idle word. For the engine
all of them are BD.IDLE (41_descriptor_ops.md R162). Which name a word takes is DEDUCED (log 5). -/
def idleInstr (f n : Half) : Instr :=
  match resultKind f n with
  | some .out => .bdDoneOut (bitAt 16 f 6) n
  | some .inn => .bdDoneIn (bitAt 16 f 6) n
  | some .setup => .bdDoneSetup (bitAt 16 f 6) n
  | none => .bdIdle f n

/-- The instruction word 0 of a descriptor stands for. -/
def decodeBd (w0 : Word) : Except DecodeError Instr :=
  match fetchCommand w0 with
  | .error e => .error e
  | .ok .idle => .ok (idleInstr (flagsOf w0) (countOf w0))
  | .ok (.data t s n) => .ok (.bdData t s n)
  | .ok (.stall t s n) => .ok (.bdStall t s n)

/-! ## Tokens -/

/-- The 16 bits of a token (30_encoding.md R94): packet identifier, address, endpoint from the low bits up, and above them
the toggle of the data packet (OUT, SETUP) or the host's ACK (IN). The places above bit 3 are DESIGN CHOICE (log 4). -/
def tokenWord (pid : BitVec 4) (addr : BitVec 7) (ep : Fin 16) (x : Bool) : Half :=
  (bit x ++ BitVec.ofFin (w := 4) ep ++ addr ++ pid : BitVec 16)

/-- The bytes of a bus token with its payload: the token, the payload's length, the payload. -/
def tokenBytes (pid : BitVec 4) (addr : BitVec 7) (ep : Fin 16) (x : Bool) (payload : List Byte) : List Byte :=
  halfBytes (tokenWord pid addr ep x) ++ halfBytes (BitVec.ofNat 16 payload.length) ++ payload

/-- The operation of a token's 16 bits and its payload. -/
def decodeToken (w : Half) (payload : List Byte) : Except DecodeError Instr :=
  let pid : BitVec 4 := w.extractLsb' 0 4
  let addr : BitVec 7 := w.extractLsb' 4 7
  let ep : Fin 16 := (w.extractLsb' 11 4).toFin
  let x := bitAt 16 w 15
  match kindOfPid pid with
  | some .out => .ok (.busOut addr ep x payload)
  | some .setup => .ok (.busSetup addr ep x payload)
  | some .inn => if payload = [] then .ok (.busIn addr ep x) else .error .malformed
  | none =>
    if pid = sofPid then (if payload = [] then .ok .busSof else .error .malformed) else .error .unknownToken

/-- A frame of format `tok`. -/
def decodeTok : List Byte → Except DecodeError Instr
  | b0 :: b1 :: l0 :: l1 :: payload =>
    if payload.length ≠ (half l0 l1).toNat then .error .malformed
    else if maxCount < payload.length then .error .packetTooLong
    else decodeToken (half b0 b1) payload
  | _ => .error .malformed

/-- A frame of format `cond`: the two line conditions (30_encoding.md R102). The bytes are DESIGN CHOICE (log 4). -/
def decodeCond : List Byte → Except DecodeError Instr
  | [c] => if c = 0#8 then .ok .busReset else .error .malformed
  | [c, m] => if c = 1#8 then .ok (.busErr m) else .error .malformed
  | _ => .error .malformed

/-! ## Register accesses -/

/-- `REG_ADDR` (30_encoding.md R103). -/
def regAddr (rm : RegMap) : Reg → Word
  | .otgcon => rm.otgcon
  | .pwrc => rm.pwrc
  | .ir => rm.ir
  | .ie => rm.ie
  | .eir => rm.eir
  | .stat => rm.stat
  | .con => rm.con
  | .addr => rm.addr
  | .bdtp1 => rm.bdtp1
  | .bdtp2 => rm.bdtp2
  | .bdtp3 => rm.bdtp3
  | .ep n => rm.epBase + rm.epStride * BitVec.ofNat 32 n.val

/-- Every register (10_state.md R39). -/
def allRegs : List Reg :=
  [.otgcon, .pwrc, .ir, .ie, .eir, .stat, .con, .addr, .bdtp1, .bdtp2, .bdtp3] ++ (List.finRange 16).map Reg.ep

/-- The register at an address. -/
def regOfAddr (rm : RegMap) (a : Word) : Option Reg :=
  allRegs.find? (fun r => regAddr rm r == a)

/-- The read operation of a register (30_encoding.md R103). -/
def readInstr : Reg → Instr
  | .otgcon => .rdOtgcon
  | .pwrc => .rdPwrc
  | .ir => .rdIr
  | .ie => .rdIe
  | .eir => .rdEir
  | .stat => .rdStat
  | .con => .rdCon
  | .addr => .rdAddr
  | .bdtp1 => .rdBdtp1
  | .bdtp2 => .rdBdtp2
  | .bdtp3 => .rdBdtp3
  | .ep n => .rdEp n

/-- The write operation of a register (30_encoding.md R103; the write of STAT is R137). -/
def writeInstr (v : Word) : Reg → Instr
  | .otgcon => .wrOtgcon v
  | .pwrc => .wrPwrc v
  | .ir => .wrIr v
  | .ie => .wrIe v
  | .eir => .wrEir v
  | .stat => .wrStat v
  | .con => .wrCon v
  | .addr => .wrAddr v
  | .bdtp1 => .wrBdtp1 v
  | .bdtp2 => .wrBdtp2 v
  | .bdtp3 => .wrBdtp3 v
  | .ep n => .wrEp n v

/-- The first byte of a register access: bit 0 the direction (1 writes), bits 2:1 the width (0, 1, 2 for 8, 16, 32 bits).
DESIGN CHOICE (log 4). -/
def accessByte (write : Bool) : Width → Byte
  | .w8 => (0#7 ++ bit write : BitVec 8)
  | .w16 => (0#6 ++ 1#1 ++ bit write : BitVec 8)
  | .w32 => (0#5 ++ 2#2 ++ bit write : BitVec 8)

/-- The bytes of a 32-bit read of a register. -/
def readBytes (a : Word) : List Byte :=
  accessByte false .w32 :: wordBytes a

/-- The bytes of a 32-bit write of a register. -/
def writeBytesOf (a v : Word) : List Byte :=
  accessByte true .w32 :: (wordBytes a ++ wordBytes v)

/-- A 32-bit access to the register at an address, or the reason it is none (10_state.md R21, 40_register_ops.md R118). -/
def accessInstr (rm : RegMap) (a : Word) (k : Reg → Instr) : Except DecodeError Instr :=
  if a.extractLsb' 0 2 ≠ 0#2 then .error .narrowRegisterAccess
  else match regOfAddr rm a with
    | some r => .ok (k r)
    | none => .error .notARegister

/-- A frame of format `reg`. A narrower access is refused whatever its address (U9). -/
def decodeReg (rm : RegMap) : List Byte → Except DecodeError Instr
  | c :: rest =>
    if c = accessByte false .w8 ∨ c = accessByte true .w8 ∨ c = accessByte false .w16 ∨ c = accessByte true .w16 then
      .error .narrowRegisterAccess
    else match rest with
      | [a0, a1, a2, a3] =>
        if c = accessByte false .w32 then accessInstr rm (word a0 a1 a2 a3) readInstr else .error .malformed
      | [a0, a1, a2, a3, v0, v1, v2, v3] =>
        if c = accessByte true .w32 then accessInstr rm (word a0 a1 a2 a3) (writeInstr (word v0 v1 v2 v3))
        else .error .malformed
      | _ => .error .malformed
  | [] => .error .malformed

/-! ## Hand-over operations and engine steps -/

/-- The operand byte of a hand-over operation: endpoint, direction, parity, `t`, `s` from the low bits up.
DESIGN CHOICE (log 4). -/
def operandByte (ep : Fin 16) (dir : Dir) (odd t s : Bool) : Byte :=
  (bit s ++ bit t ++ bit odd ++ bit (dirBit dir) ++ BitVec.ofFin (w := 4) ep : BitVec 8)

/-- The endpoint of an operand byte. -/
def epOfByte (b : Byte) : Fin 16 :=
  (b.extractLsb' 0 4).toFin

/-- The direction of an operand byte. -/
def dirOfByte (b : Byte) : Dir :=
  dirOfBit (bitAt 8 b 4)

/-- A frame of format `pseudo` (30_encoding.md R108): a code, the operand byte, and for the arming operations the count and
the address. Any 16-bit count can be written; a large one is refused where it is fetched (R105). The bytes are DESIGN CHOICE
(log 4). -/
def decodePseudo : List Byte → Except DecodeError Instr
  | [c, b, n0, n1, a0, a1, a2, a3] =>
    if c = 1#8 then
      .ok (.arm (epOfByte b) (dirOfByte b) (bitAt 8 b 5) (half n0 n1) (word a0 a1 a2 a3) (bitAt 8 b 6) (bitAt 8 b 7))
    else if c = 2#8 then
      .ok (.armStall (epOfByte b) (dirOfByte b) (bitAt 8 b 5) (half n0 n1) (word a0 a1 a2 a3) (bitAt 8 b 6) (bitAt 8 b 7))
    else if c = 3#8 then
      .ok (.stallOverride (epOfByte b) (dirOfByte b) (bitAt 8 b 5) (half n0 n1) (word a0 a1 a2 a3) (bitAt 8 b 6)
        (bitAt 8 b 7))
    else .error .malformed
  | [c, b] =>
    if b.extractLsb' 6 2 ≠ 0#2 then .error .malformed
    else if c = 4#8 then .ok (.reclaim (epOfByte b) (dirOfByte b) (bitAt 8 b 5))
    else if c = 5#8 ∧ bitAt 8 b 5 = false then .ok (.bdInit (epOfByte b) (dirOfByte b))
    else .error .malformed
  | _ => .error .malformed

/-- A frame of format `eng`: FETCH, or RETIRE with its operands. The direction of a RETIRE is its token's
(43_completion.md R230). The bytes are DESIGN CHOICE (log 4). -/
def decodeEng : List Byte → Except DecodeError Instr
  | [c] => if c = 0#8 then .ok .fetch else .error .malformed
  | [c, b, n0, n1, p] =>
    if maxCount < (half n0 n1).toNat then .error .countTooLarge
    else if c ≠ 1#8 ∨ bitAt 8 b 7 = true ∨ p.extractLsb' 4 4 ≠ 0#4 then .error .malformed
    else match kindOfPid (p.extractLsb' 0 4) with
      | some k =>
        if dirOfByte b = dirOf k then .ok (.retire (epOfByte b) (dirOfByte b) (bitAt 8 b 5) (half n0 n1) (bitAt 8 b 6) k)
        else .error .malformed
      | none => .error .malformed
  | _ => .error .malformed

/-! ## The decoder -/

/-- The operation of a frame, for a given register map. Total: every frame has an operation or a named reason. -/
def decode (rm : RegMap) (f : Frame) : Except DecodeError Instr :=
  match f.fmt with
  | .bd =>
    match f.bytes with
    | [b0, b1, b2, b3] => decodeBd (word b0 b1 b2 b3)
    | _ => .error .malformed
  | .tok => decodeTok f.bytes
  | .cond => decodeCond f.bytes
  | .reg => decodeReg rm f.bytes
  | .pseudo => decodePseudo f.bytes
  | .eng => decodeEng f.bytes

/-- The frame of a table word (spec/opcode_table.json): up to 8 bits a token, up to 32 bits word 0 of a descriptor, the bits
above `nbits` zero. -/
def frameOfTableWord (nbits w : Nat) : Option Frame :=
  let v : Word := BitVec.ofNat 32 (w % 2 ^ nbits)
  if nbits ≤ 8 then some { fmt := .tok, bytes := wordBytes v }
  else if nbits ≤ 32 then some { fmt := .bd, bytes := wordBytes v }
  else none

/-- The instruction the decoder reads from a table word. -/
def decodeTableWord (nbits w : Nat) : Option Instr :=
  match frameOfTableWord nbits w with
  | some f => (decode RegMap.default f).toOption
  | none => none

/-! ## The encoder -/

/-- The frame of word 0 of a descriptor. -/
def bdFrame (n flags : Half) : Frame :=
  { fmt := .bd, bytes := wordBytes (word0 n flags) }

/-- The frame of an arming operation. -/
def armFrame (c : Byte) (ep : Fin 16) (dir : Dir) (odd : Bool) (n : Half) (a : Word) (t s : Bool) : Frame :=
  { fmt := .pseudo, bytes := c :: operandByte ep dir odd t s :: (halfBytes n ++ wordBytes a) }

/-- The frame of a register read. -/
def readFrame (rm : RegMap) (r : Reg) : Frame :=
  { fmt := .reg, bytes := readBytes (regAddr rm r) }

/-- The frame of a register write. -/
def writeFrame (rm : RegMap) (r : Reg) (v : Word) : Frame :=
  { fmt := .reg, bytes := writeBytesOf (regAddr rm r) v }

/-- The bits of a well-formed instruction. -/
def encode (rm : RegMap) : Instr → Frame
  | .bdData t s n => bdFrame n (dataFlags t s)
  | .bdStall t s n => bdFrame n (stallFlags t s)
  | .bdIdle flags n => bdFrame n flags
  | .bdDone t k n => bdFrame n (resultFlags t k)
  | .bdDoneOut t n => bdFrame n (resultFlags t .out)
  | .bdDoneIn t n => bdFrame n (resultFlags t .inn)
  | .bdDoneSetup t n => bdFrame n (resultFlags t .setup)
  | .arm ep dir odd n a t s => armFrame 1#8 ep dir odd n a t s
  | .armStall ep dir odd n a t s => armFrame 2#8 ep dir odd n a t s
  | .stallOverride ep dir odd n a t s => armFrame 3#8 ep dir odd n a t s
  | .reclaim ep dir odd => { fmt := .pseudo, bytes := [4#8, operandByte ep dir odd false false] }
  | .bdInit ep dir => { fmt := .pseudo, bytes := [5#8, operandByte ep dir false false false] }
  | .fetch => { fmt := .eng, bytes := [0#8] }
  | .retire ep dir odd n t k =>
    { fmt := .eng, bytes := 1#8 :: operandByte ep dir odd t false :: (halfBytes n ++ [(0#4 ++ pidOf k : BitVec 8)]) }
  | .busOut addr ep toggle payload => { fmt := .tok, bytes := tokenBytes (pidOf .out) addr ep toggle payload }
  | .busIn addr ep ack => { fmt := .tok, bytes := tokenBytes (pidOf .inn) addr ep ack [] }
  | .busSetup addr ep toggle payload => { fmt := .tok, bytes := tokenBytes (pidOf .setup) addr ep toggle payload }
  | .busSof => { fmt := .tok, bytes := tokenBytes sofPid 0#7 0 false [] }
  | .busReset => { fmt := .cond, bytes := [0#8] }
  | .busErr m => { fmt := .cond, bytes := [1#8, m] }
  | .rdEp n => readFrame rm (.ep n)
  | .wrEp n v => writeFrame rm (.ep n) v
  | .rdPwrc => readFrame rm .pwrc
  | .wrPwrc v => writeFrame rm .pwrc v
  | .rdCon => readFrame rm .con
  | .wrCon v => writeFrame rm .con v
  | .rdAddr => readFrame rm .addr
  | .wrAddr v => writeFrame rm .addr v
  | .rdOtgcon => readFrame rm .otgcon
  | .wrOtgcon v => writeFrame rm .otgcon v
  | .rdIr => readFrame rm .ir
  | .wrIr v => writeFrame rm .ir v
  | .rdIe => readFrame rm .ie
  | .wrIe v => writeFrame rm .ie v
  | .rdEir => readFrame rm .eir
  | .wrEir v => writeFrame rm .eir v
  | .rdStat => readFrame rm .stat
  | .wrStat v => writeFrame rm .stat v
  | .rdBdtp1 => readFrame rm .bdtp1
  | .wrBdtp1 v => writeFrame rm .bdtp1 v
  | .rdBdtp2 => readFrame rm .bdtp2
  | .wrBdtp2 v => writeFrame rm .bdtp2 v
  | .rdBdtp3 => readFrame rm .bdtp3
  | .wrBdtp3 v => writeFrame rm .bdtp3 v

/-- The name the decoder gives an instruction: the row BD.DONE is the three rows BD.DONE.OUT, BD.DONE.IN, BD.DONE.SETUP
together, so its words decode to one of those (41_descriptor_ops.md R164, log 5). -/
def canonical : Instr → Instr
  | .bdDone t .out n => .bdDoneOut t n
  | .bdDone t .inn n => .bdDoneIn t n
  | .bdDone t .setup n => .bdDoneSetup t n
  | i => i

end Sys2Proof
end

