-- ==== Sys2Proof/WellFormed.lean ====
section
/-! DEFINITION. Which instructions and register maps are well formed. -/

namespace Sys2Proof

/-- A count the block can handle (30_encoding.md R98, 0 to 1023). -/
def countOk (n : Half) : Bool :=
  decide (n.toNat ≤ maxCount)

/-- A payload a data packet can carry (30_encoding.md R94). -/
def payloadOk (p : List Byte) : Bool :=
  decide (p.length ≤ maxCount)

/-- The instructions with operands the spec admits: commands, results and payloads count up to 1023 (software can write any
count, 30_encoding.md R108); an idle word has UOWN 0 and is no result of the engine (41_descriptor_ops.md R162); a RETIRE's
direction is its token's (43_completion.md R230). -/
def Instr.wf : Instr → Bool
  | .bdData _ _ n => countOk n
  | .bdStall _ _ n => countOk n
  | .bdIdle f n => !bitAt 16 f 7 && (resultKind f n).isNone
  | .bdDone _ _ n => countOk n
  | .bdDoneOut _ n => countOk n
  | .bdDoneIn _ n => countOk n
  | .bdDoneSetup _ n => countOk n
  | .arm _ _ _ _ _ _ _ => true
  | .armStall _ _ _ _ _ _ _ => true
  | .stallOverride _ _ _ _ _ _ _ => true
  | .reclaim _ _ _ => true
  | .bdInit _ _ => true
  | .fetch => true
  | .retire _ dir _ n _ k => countOk n && decide (dir = dirOf k)
  | .busOut _ _ _ p => payloadOk p
  | .busIn _ _ _ => true
  | .busSetup _ _ _ p => payloadOk p
  | .busSof => true
  | .busReset => true
  | .busErr _ => true
  | .rdEp _ => true
  | .wrEp _ _ => true
  | .rdPwrc => true
  | .wrPwrc _ => true
  | .rdCon => true
  | .wrCon _ => true
  | .rdAddr => true
  | .wrAddr _ => true
  | .rdOtgcon => true
  | .wrOtgcon _ => true
  | .rdIr => true
  | .wrIr _ => true
  | .rdIe => true
  | .wrIe _ => true
  | .rdEir => true
  | .wrEir _ => true
  | .rdStat => true
  | .wrStat _ => true
  | .rdBdtp1 => true
  | .wrBdtp1 _ => true
  | .rdBdtp2 => true
  | .wrBdtp2 _ => true
  | .rdBdtp3 => true
  | .wrBdtp3 _ => true

/-- A register map is injective and every address is a multiple of 4 (93_implementation_defined.md section 3). -/
def RegMap.wf (rm : RegMap) : Bool :=
  decide ((allRegs.map (regAddr rm)).Nodup) && allRegs.all (fun r => (regAddr rm r).extractLsb' 0 2 == 0#2)

/-- The parameters are in their types: the queue's depth is positive and the register map well formed
(93_implementation_defined.md section 3). -/
def Config.wf (c : Config) : Bool :=
  decide (0 < c.fifoDepth) && c.regs.wf

end Sys2Proof
end

