-- ==== Sys2Proof/Machine/State.lean ====
section
/-! DEFINITION. The state of the machine as plain data (spec 10_state.md), the reasons a step stops, and the state after
reset. -/

namespace Sys2Proof.Machine

/-- The stored fields of an endpoint control register (10_state.md R23); bits 7:5 read 0 and are not stored. -/
structure EpCtl where
  ephshk : Bool
  epstall : Bool
  eptxen : Bool
  eprxen : Bool
  epcondis : Bool
  deriving DecidableEq, Repr

/-- A register of value 0: the endpoint is disabled (10_state.md R24). -/
def EpCtl.zero : EpCtl where
  ephshk := false
  epstall := false
  eptxen := false
  eprxen := false
  epcondis := false

/-- An entry of the status queue (10_state.md R46): the retired descriptor. -/
structure Entry where
  ep : Fin 16
  dir : Dir
  odd : Bool
  deriving DecidableEq, Repr

/-- Physical memory (10_state.md R48): the bytes written since reset, addresses strictly rising. An address that is not
listed holds no written value; what a read of it gives is in Ops.lean (log 8). -/
abbrev Memory := List Host.Cell

/-- How far the transaction in progress has come (42_bus_transactions.md R190). -/
inductive Phase where
  /-- The checks passed; word 0 is not read yet. -/
  | fetch
  /-- Word 0 was read, from the descriptor of this parity; its command is not begun. -/
  | command (odd : Bool) (w0 : Word)
  /-- Word 1 was read: the buffer is at `a`, `i` bytes are moved, `got` are the bytes read so far (IN). -/
  | data (odd : Bool) (w0 a : Word) (i : Nat) (got : List Byte)
  /-- The packet is moved and closed: `n` bytes with toggle `t`; the completion step is next. -/
  | done (odd : Bool) (n : Half) (t : Bool)
  deriving DecidableEq, Repr

/-- The transaction in progress (10_state.md R47): what was sampled when its token arrived (40_register_ops.md R119, R145)
and the token itself. `payload` and `toggle` are the host's data packet (OUT, SETUP), `ack` the host's handshake (IN). -/
structure Txn where
  kind : Kind
  ep : Fin 16
  ctl : EpCtl
  base : Word
  toggle : Bool
  payload : List Byte
  ack : Bool
  phase : Phase
  deriving DecidableEq, Repr

/-- A memory access of the software agent (30_encoding.md R107: MR8 to MW32). `value` is looked at by a write only. -/
structure MemAccess where
  write : Bool
  width : Width
  addr : Word
  value : Word
  deriving DecidableEq, Repr

/-! ## The driver (45_software_agent.md): software, not hardware -/

/-- Endpoint types (45_software_agent.md R251). -/
inductive EpType where
  | control
  | bulk
  | interrupt
  | isochronous
  deriving DecidableEq, Repr

/-- The endpoint control block (45_software_agent.md R251). The buffers and the descriptor pair are their physical addresses:
the address translation is an external collaborator (log 17). The counters are integers: R251 gives their range, and
70_reset_and_hazards.md R333 lets software that breaks a duty have them wrong by one (log 18). -/
structure Ecb where
  nextOdd : Bool
  data01 : Bool
  stalled : Bool
  armedCtr : Int
  completeCtr : Int
  nextCompleteOdd : Bool
  epType : EpType
  epSize : Nat
  buf0 : Word
  buf1 : Word
  /-- The address of the even descriptor of its pair; the odd one lies 8 bytes above. -/
  pair : Word
  deriving DecidableEq, Repr

/-- The error values of the driver (45_software_agent.md R252). -/
inductive SwError where
  | invalidEndpoint
  | endpointOverflow
  | bufferOverflow
  | wouldBlock
  | invalidState
  deriving DecidableEq, Repr

/-- What a driver call returned. -/
inductive CallResult where
  | ok
  | err (e : SwError)
  /-- `write`: the number of bytes taken. -/
  | length (n : Nat)
  /-- `read`: the bytes received. -/
  | bytes (bs : List Byte)
  /-- `alloc_ep`: the endpoint number taken. -/
  | endpoint (n : Fin 16)
  /-- `can_arm`: the buffer to fill, or not armable. -/
  | armable (buf : Option Word)
  /-- `is_stalled`. -/
  | flag (b : Bool)
  /-- `poll`: a bus reset was seen. -/
  | busReset
  /-- `poll`: the pending OUT, completed IN and pending SETUP endpoints. -/
  | data (epOut epInComplete epSetup : Half)
  /-- `poll`: nothing to report. -/
  | nothing
  deriving DecidableEq, Repr

/-- The driver's state (45_software_agent.md R251) and the result of its last call. `table` is the physical address of the
descriptor table that `new` allocated (R262). -/
structure Driver where
  table : Word
  ecbRx : Vector (Option Ecb) 16
  ecbTx : Vector (Option Ecb) 16
  prOut : Half
  prSu : Half
  result : CallResult
  deriving DecidableEq, Repr

/-- The driver before its first call: no table, no endpoint allocated. DESIGN CHOICE (log 17). -/
def Driver.initial : Driver where
  table := 0#32
  ecbRx := Vector.replicate 16 none
  ecbTx := Vector.replicate 16 none
  prOut := 0#16
  prSu := 0#16
  result := .ok

/-- An endpoint address of the USB: a direction and a number (45_software_agent.md R263, R267). -/
structure EpAddr where
  dir : Dir
  num : Nat
  deriving DecidableEq, Repr

/-- A call of a driver procedure (45_software_agent.md R254 to R270). `bufs` is what the external allocator answered: two
physical addresses, or none where it failed (log 17). The endpoint number of `setStalled`, `isStalled` and the control block
calls is in range by its type: DESIGN CHOICE (log 18), since R268 does not say what a number out of range does. -/
inductive Call where
  | new (table : Word)
  | allocEp (dir : Dir) (addr : Option EpAddr) (ty : EpType) (size interval : Nat) (bufs : Option (Word × Word))
  | enable
  | reset
  | setDeviceAddress (addr : Byte)
  | write (addr : EpAddr) (buf : List Byte)
  | read (addr : EpAddr) (len : Nat)
  | setStalled (ep : Fin 16) (dir : Dir) (stalled : Bool)
  | isStalled (ep : Fin 16) (dir : Dir)
  | suspend
  | resume
  | poll
  | canArm (ep : Fin 16) (dir : Dir)
  | armGeneric (ep : Fin 16) (dir : Dir) (len : Nat) (stall : Bool)
  | cancel (ep : Fin 16) (dir : Dir)
  | clearCompleted (ep : Fin 16) (dir : Dir)
  | drop (ep : Fin 16) (dir : Dir)
  deriving DecidableEq, Repr

/-- A call in progress (45_software_agent.md R250): the call, and what its accesses have returned so far, the first first.
The answers are all that a procedure knows beside its arguments and the driver's state at its start, so they say where it
stands. -/
structure CallInProgress where
  call : Call
  answers : List Word
  deriving DecidableEq, Repr

/-! ## Inputs -/

/-- What can come next (00_scope.md R9, 30_encoding.md R107): an operation at the register port or the bus port as its bits,
a memory access of software, a driver call, a turn of the engine, or a turn of software in what it has in progress
(logs 2, 4). -/
inductive Input where
  | op (f : Frame)
  | mem (x : MemAccess)
  | call (c : Call)
  | engine
  | software
  deriving DecidableEq, Repr

/-! ## Why a step stops -/

/-- The reasons a step faults. There is none: no access of software can fault, and a situation without a meaning is a refusal
(60_exceptions.md R290). -/
inductive Fault where
  deriving DecidableEq, Repr

/-- The reasons the spec gives a situation no meaning (93_implementation_defined.md section 1). All are safe: a run that
meets one proves nothing. -/
inductive Refusal where
  /-- Raised by an arm of exec whose instruction has no meaning yet. Safe. -/
  | notModelled (mnemonic : String)
  /-- Raised where bits are no operation: by the step for an input (U8, U9, log 20), by FETCH for a descriptor word
  (U1, U2, U3). Safe. -/
  | decode (e : DecodeError)
  /-- U4, raised by a data phase whose buffer range passes 2^32 or leaves `MemValid` (42_bus_transactions.md R203). Safe. -/
  | badBuffer
  /-- U5, raised by an OUT or a SETUP whose payload is longer than the armed count (42_bus_transactions.md R206). Safe. -/
  | overrun
  /-- U6, raised by a register write with a 1 in a reserved bit (40_register_ops.md R118). Safe. -/
  | reservedRegisterBit
  /-- U7, raised by a token on a halted endpoint without handshake (42_bus_transactions.md R193 step 4). Safe. -/
  | haltedWithoutHandshake
  /-- Raised by a memory access of software whose bytes pass the top of the 32-bit address space (20_memory.md R60), where
  the spec has no memory (60_exceptions.md R290, log 16). Safe. -/
  | outsideMemory
  deriving DecidableEq, Repr

/-! ## The state -/

/-- The state of the block, of the memory it shares, of the driver, and the operations still to come. -/
structure State where
  /-- The parameters (00_scope.md R7); no step changes them (log 9). -/
  cfg : Config
  /-- PWRC.USBPWR (10_state.md R29). -/
  usbpwr : Bool
  /-- OTGCON (10_state.md R30). -/
  otgcon : Byte
  /-- CON.USBEN (10_state.md R31). -/
  usben : Bool
  /-- CON.PKTDIS (10_state.md R31). -/
  pktdis : Bool
  /-- ADDR.DEVADDR (10_state.md R32). -/
  devaddr : BitVec 7
  /-- BDTP1 bits 7:1 (10_state.md R33). -/
  bdtp1 : BitVec 7
  /-- BDTP2 (10_state.md R33). -/
  bdtp2 : Byte
  /-- BDTP3 (10_state.md R33). -/
  bdtp3 : Byte
  /-- IE (10_state.md R34). -/
  ie : Byte
  /-- IR.URSTIF (10_state.md R35). -/
  urstif : Bool
  /-- IR.STALLIF (10_state.md R35). -/
  stallif : Bool
  /-- EIR (10_state.md R37). -/
  eir : Byte
  /-- EP[0] to EP[15] (10_state.md R22). -/
  ep : Vector EpCtl 16
  /-- The ping-pong pointers of the RX directions (10_state.md R26); true is odd. -/
  ppbiRx : Vector Bool 16
  /-- The ping-pong pointers of the TX directions (10_state.md R26). -/
  ppbiTx : Vector Bool 16
  /-- The status queue, oldest first (10_state.md R46). -/
  fifo : List Entry
  /-- Physical memory (10_state.md R48). -/
  mem : Memory
  /-- The transaction in progress (10_state.md R47). -/
  txn : Option Txn
  /-- The response to the last bus event (42_bus_transactions.md R192, log 12). -/
  resp : Response
  /-- The value software's last read returned (40_register_ops.md R118, log 12). -/
  rdata : Word
  /-- How many draws were made (log 7). -/
  draws : Nat
  /-- The operations still to come, oldest first (log 2). -/
  inputs : List Input
  /-- Whether each access of an agent is a step of its own (20_memory.md R78, log 1). -/
  fine : Bool
  /-- The driver (45_software_agent.md R251). -/
  drv : Driver
  /-- The driver call in progress (45_software_agent.md R250). -/
  call : Option CallInProgress
  /-- The memory writes still to make of software's hand-over operation in progress (30_encoding.md R108, 20_memory.md R78,
  log 15). -/
  pending : List MemAccess
  deriving DecidableEq, Repr

/-- The state right after a system reset (10_state.md R52, 70_reset_and_hazards.md R320, R322). The values of `cfg` are the
defaults of 00_scope.md R7; those of `resp`, `rdata`, `draws`, `inputs`, `fine`, `drv`, `call` and `pending` are
DESIGN CHOICE (logs 1, 2, 7, 12, 15, 17). -/
def State.reset : State where
  cfg := Config.default
  usbpwr := false
  otgcon := 0#8
  usben := false
  pktdis := false
  devaddr := 0#7
  bdtp1 := 0#7
  bdtp2 := 0#8
  bdtp3 := 0#8
  ie := 0#8
  urstif := false
  stallif := false
  eir := 0#8
  ep := Vector.replicate 16 EpCtl.zero
  ppbiRx := Vector.replicate 16 false
  ppbiTx := Vector.replicate 16 false
  fifo := []
  mem := []
  txn := none
  resp := .none
  rdata := 0#32
  draws := 0
  inputs := []
  fine := true
  drv := Driver.initial
  call := none
  pending := []

end Sys2Proof.Machine
end

