-- ==== Sys2Proof/Machine/Operands.lean ====
section
/-! DEFINITION. Operand assembly (spec 30_encoding.md R96 to R99, 10_state.md R49, R50, 20_memory.md R62): register values,
the table base, descriptor addresses, the ping-pong pointers. -/

namespace Sys2Proof.Machine

/-! ## Register values -/

/-- The significant bits of a written value (40_register_ops.md R118). -/
def lowByte (v : Word) : Byte :=
  v.extractLsb' 0 8

/-- The value a read returns (40_register_ops.md R118): the 8 significant bits, bits 31:8 zero. -/
def readValue (b : Byte) : Word :=
  (0#24 ++ b : BitVec 32)

/-- The five fields of an endpoint control register as bits 4:0 (10_state.md R23). -/
def epBits (e : EpCtl) : BitVec 5 :=
  (bit e.epcondis ++ bit e.eprxen ++ bit e.eptxen ++ bit e.epstall ++ bit e.ephshk : BitVec 5)

/-- The fields of bits 4:0 (10_state.md R23). -/
def epOfBits (v : BitVec 5) : EpCtl where
  ephshk := bitAt 5 v 0
  epstall := bitAt 5 v 1
  eptxen := bitAt 5 v 2
  eprxen := bitAt 5 v 3
  epcondis := bitAt 5 v 4

/-- The value of an endpoint control register, bits 7:5 zero (40_register_ops.md R120). -/
def epByte (e : EpCtl) : Byte :=
  (0#3 ++ epBits e : BitVec 8)

/-! ## The engine's condition and the table -/

/-- `active` (10_state.md R49). -/
def active (s : State) : Bool :=
  s.usbpwr && s.usben

/-- `BDT_BASE` (10_state.md R50, 30_encoding.md R96). -/
def bdtBase (s : State) : Word :=
  (s.bdtp3 ++ s.bdtp2 ++ s.bdtp1 ++ 0#9 : BitVec 32)

/-- The number of a flag. -/
def natOfBool (b : Bool) : Nat :=
  if b then 1 else 0

/-- `bd_index` (20_memory.md R62). -/
def bdIndex (ep : Fin 16) (dir : Dir) (odd : Bool) : Nat :=
  4 * ep.val + 2 * natOfBool (dirBit dir) + natOfBool odd

/-- `bd_addr` for a table base (20_memory.md R62). -/
def bdAddr (base : Word) (ep : Fin 16) (dir : Dir) (odd : Bool) : Nat :=
  base.toNat + 8 * bdIndex ep dir odd

/-- The ping-pong pointer of an endpoint direction (10_state.md R26). -/
def ppbi (s : State) (ep : Fin 16) : Dir → Bool
  | .rx => s.ppbiRx[ep]
  | .tx => s.ppbiTx[ep]

/-- `ppbi[ep][dir] <- v` (00_scope.md R11). -/
def setPpbi (s : State) (ep : Fin 16) (dir : Dir) (v : Bool) : State :=
  match dir with
  | .rx => { s with ppbiRx := s.ppbiRx.set ep v }
  | .tx => { s with ppbiTx := s.ppbiTx.set ep v }

/-- `EP[ep] <- e` (00_scope.md R11). -/
def setEp (s : State) (ep : Fin 16) (e : EpCtl) : State :=
  { s with ep := s.ep.set ep e }

/-! ## Checks on operands -/

/-- Whether the token's direction is enabled (42_bus_transactions.md R196). -/
def enabled (e : EpCtl) : Kind → Bool
  | .inn => e.eptxen
  | .out => e.eprxen
  | .setup => e.eprxen && !e.epcondis

/-- `MemValid` (00_scope.md R7): the address lies in no hole (log 11). -/
def memValid (c : Config) (a : Nat) : Bool :=
  !(c.memHoles.any (fun h => decide (h.1 ≤ a) && decide (a < h.1 + h.2)))

/-- The range check of a buffer (42_bus_transactions.md R203): an empty range is always valid; another ends at or below 2^32
and every byte of it satisfies `MemValid`. -/
def bufferOk (c : Config) (a : Word) (count : Nat) : Bool :=
  if count = 0 then true
  else decide (a.toNat + count ≤ 2 ^ 32) && (List.range count).all (fun i => memValid c (a.toNat + i))

/-- The number of bytes of an access. -/
def widthBytes : Width → Nat
  | .w8 => 1
  | .w16 => 2
  | .w32 => 4

end Sys2Proof.Machine
end

