-- ==== Sys2Proof/Machine/Flags.lean ====
section
/-! DEFINITION. The flags (spec 10_state.md R28, R35 to R38), what sets and clears them, and the interrupt request
(60_exceptions.md R300). -/

namespace Sys2Proof.Machine

/-- IR.TRNIF (10_state.md R36): derived from the queue. -/
def trnif (s : State) : Bool :=
  !s.fifo.isEmpty

/-- IR as it reads (40_register_ops.md R130), its five unmodelled bits taken from a drawn byte. -/
def irByte (s : State) (d : Byte) : Byte :=
  (bit s.stallif ++ d.extractLsb' 4 3 ++ bit (trnif s) ++ d.extractLsb' 1 2 ++ bit s.urstif : BitVec 8)

/-- CON as it reads (40_register_ops.md R124), bits 7:6 taken from a drawn byte. -/
def conByte (s : State) (d : Byte) : Byte :=
  (d.extractLsb' 6 2 ++ bit s.pktdis ++ 0#4 ++ bit s.usben : BitVec 8)

/-- A queue entry as STAT shows it (10_state.md R38). -/
def statOf (e : Entry) : Byte :=
  (BitVec.ofFin (w := 4) e.ep ++ bit (dirBit e.dir) ++ bit e.odd ++ 0#2 : BitVec 8)

/-- STAT as it reads (40_register_ops.md R136): the head of the queue, a drawn byte when the queue is empty. -/
def statByte (s : State) (d : Byte) : Byte :=
  match s.fifo with
  | e :: _ => statOf e
  | [] => d

/-- The interrupt request (60_exceptions.md R300): a level, the OR of the three flags that are enabled. -/
def irq (s : State) : Bool :=
  (bitAt 8 s.ie 7 && s.stallif) || (bitAt 8 s.ie 3 && trnif s) || (bitAt 8 s.ie 0 && s.urstif)

/-- Write-one-to-clear of IR (40_register_ops.md R131): bits 0 and 7 clear their flags, bit 3 pops the queue. -/
def clearIr (s : State) (v : Byte) : State :=
  { s with
    urstif := s.urstif && !(bitAt 8 v 0)
    stallif := s.stallif && !(bitAt 8 v 7)
    fifo := if bitAt 8 v 3 then s.fifo.tail else s.fifo }

/-- Write-one-to-clear of EIR (40_register_ops.md R135). -/
def clearEir (s : State) (v : Byte) : State :=
  { s with eir := s.eir &&& ~~~v }

/-- The effect of a written CON (40_register_ops.md R125): USBEN is stored, a 0 in bit 5 clears PKTDIS and a 1 leaves it. -/
def writeCon (s : State) (v : Byte) : State :=
  { s with
    usben := bitAt 8 v 0
    pktdis := s.pktdis && bitAt 8 v 5 }

/-- `IR.STALLIF <- 1` (42_bus_transactions.md R199). -/
def setStallif (s : State) : State :=
  { s with stallif := true }

/-- `IR.URSTIF <- 1` (42_bus_transactions.md R218). -/
def setUrstif (s : State) : State :=
  { s with urstif := true }

/-- `EIR <- EIR | m` (42_bus_transactions.md R219). -/
def orEir (s : State) (m : Byte) : State :=
  { s with eir := s.eir ||| m }

end Sys2Proof.Machine
end

