-- ==== Sys2Proof/Machine/Ops.lean ====
section
/-! DEFINITION. The named operations over memory, registers and the transaction in progress, shared by the meanings.

The block raises no exception into software and has no return from one (spec 60_exceptions.md R290, R304, R305), so there is
no exception entry here: what stands in its place is the response, the flags, and PKTDIS after a SETUP (R292). -/

namespace Sys2Proof.Machine

/-- One step's outcome. -/
abbrev Result := Host.Outcome State Fault Refusal

/-- Do one thing and then another, stopping where the first stops. -/
def andThen {α β : Type} (o : Host.Outcome α Fault Refusal) (f : α → Host.Outcome β Fault Refusal) :
    Host.Outcome β Fault Refusal :=
  match o with
  | .next a => f a
  | .fault r => .fault r
  | .refused r => .refused r

/-! ## Memory -/

/-- The byte written at an address since reset, if any. -/
def memGet : Memory → Nat → Option Byte
  | [], _ => none
  | c :: m, a => if c.1 = a then some c.2 else memGet m a

/-- Write one byte, keeping the addresses strictly rising. -/
def memPut : Memory → Nat → Byte → Memory
  | [], a, v => [(a, v)]
  | c :: m, a, v =>
    if a < c.1 then (a, v) :: c :: m
    else if a = c.1 then (a, v) :: m
    else c :: memPut m a v

/-- Write bytes at rising addresses (20_memory.md R73). -/
def memPutBytes : Memory → Nat → List Byte → Memory
  | m, _, [] => m
  | m, a, b :: bs => memPutBytes (memPut m a b) (a + 1) bs

/-- The addresses are strictly rising, none below `lo`, all inside the 32-bit space. -/
def memRising : Nat → Memory → Bool
  | _, [] => true
  | lo, c :: m => decide (lo ≤ c.1) && decide (c.1 < 2 ^ 32) && memRising (c.1 + 1) m

/-- The canonical form of memory (log 8): addresses strictly rising and inside the 32-bit space. An unlisted address holds
no written value, so no entry equals what it holds. -/
def memWf (m : Memory) : Bool :=
  memRising 0 m

/-- The byte a read of an address gives: the written one, else the unspecified power-on byte (10_state.md R52, log 8). -/
def readByte (s : State) (a : Nat) : Byte :=
  (memGet s.mem a).getD (Config.powerOnByte a)

/-- `MemRead(a, 2)` (00_scope.md R11, 20_memory.md R65). -/
def readHalf (s : State) (a : Nat) : Half :=
  half (readByte s a) (readByte s (a + 1))

/-- `MemRead(a, 4)`. -/
def readWord (s : State) (a : Nat) : Word :=
  word (readByte s a) (readByte s (a + 1)) (readByte s (a + 2)) (readByte s (a + 3))

/-- `n` bytes from an address upward. -/
def readBytesAt (s : State) (a : Nat) : Nat → List Byte
  | 0 => []
  | n + 1 => readByte s a :: readBytesAt s (a + 1) n

/-- `MemWrite(a, ...)` of a byte sequence. -/
def storeBytes (s : State) (a : Nat) (bs : List Byte) : State :=
  { s with mem := memPutBytes s.mem a bs }

/-- `MemWrite(a, 2, v)`. -/
def storeHalf (s : State) (a : Nat) (v : Half) : State :=
  storeBytes s a (halfBytes v)

/-- `MemWrite(a, 4, v)`. -/
def storeWord (s : State) (a : Nat) (v : Word) : State :=
  storeBytes s a (wordBytes v)

/-- The value a read returned to software (40_register_ops.md R118). -/
def setRdata (s : State) (v : Word) : State :=
  { s with rdata := v }

/-- What a read of software gives at each width, zero-extended. -/
def loadValue (s : State) (a : Nat) : Width → Word
  | .w8 => (readByte s a).setWidth 32
  | .w16 => (readHalf s a).setWidth 32
  | .w32 => readWord s a

/-- The bytes a write of software stores at each width, from the low bits of the value. -/
def storeValue (v : Word) : Width → List Byte
  | .w8 => [byteAt 32 v 0]
  | .w16 => [byteAt 32 v 0, byteAt 32 v 1]
  | .w32 => wordBytes v

/-- A read of memory by software (20_memory.md R69), one step, of any alignment. Bytes above the 32-bit space do not exist: the
access is refused (60_exceptions.md R290, log 16). -/
def softRead (w : Width) (a : Nat) (s : State) : Result :=
  if 2 ^ 32 < a + widthBytes w then .refused .outsideMemory else .next (setRdata s (loadValue s a w))

/-- A write of memory by software. -/
def softWrite (w : Width) (a : Nat) (v : Word) (s : State) : Result :=
  if 2 ^ 32 < a + widthBytes w then .refused .outsideMemory else .next (storeBytes s a (storeValue v w))

/-- A memory access of the software agent given as an input (30_encoding.md R107). -/
def memAccess (x : MemAccess) (s : State) : Result :=
  if x.write then softWrite x.width x.addr.toNat x.value s else softRead x.width x.addr.toNat s

/-! ## Derived state of a descriptor -/

/-- `owner` (41_descriptor_ops.md R169): true is Hardware, bit 7 of the descriptor's first byte. -/
def ownedByEngine (s : State) (ep : Fin 16) (dir : Dir) (odd : Bool) : Bool :=
  bitAt 8 (readByte s (bdAddr (bdtBase s) ep dir odd)) 7

/-- `ep_state` (10_state.md R51). -/
inductive EpState where
  | disabled
  | halted
  | idle
  | stallArmed
  | armed
  deriving DecidableEq, Repr

/-- Whether the direction's enable bit is set (10_state.md R51). -/
def dirEnabled (e : EpCtl) : Dir → Bool
  | .rx => e.eprxen
  | .tx => e.eptxen

/-- The state of an endpoint direction (10_state.md R51). -/
def epState (s : State) (ep : Fin 16) (dir : Dir) : EpState :=
  let e := s.ep[ep]
  let f := readHalf s (bdAddr (bdtBase s) ep dir (ppbi s ep dir))
  if dirEnabled e dir = false then .disabled
  else if e.epstall then .halted
  else if bitAt 16 f 7 = false then .idle
  else if bitAt 16 f 2 then .stallArmed
  else .armed

/-! ## Responses -/

/-- `nak_or_none(e, kind)` (42_bus_transactions.md R192). -/
def nakOrNone (e : EpCtl) (k : Kind) : Response :=
  match k with
  | .setup => .none
  | .out => if e.ephshk then .nak else .none
  | .inn => if e.ephshk then .nak else .none

/-- ACK if the endpoint uses handshakes (42_bus_transactions.md R205). -/
def ackOrNone (e : EpCtl) : Response :=
  if e.ephshk then .ack else .none

/-- The parameter `PKTDIS_RESPONSE(kind)` (42_bus_transactions.md R195). -/
def holdOffOf (c : Config) : Kind → HoldOff
  | .out => c.holdOffOut
  | .inn => c.holdOffIn
  | .setup => c.holdOffSetup

/-- The answer while PKTDIS is 1 (42_bus_transactions.md R195). -/
def pktdisResponse (c : Config) (e : EpCtl) (k : Kind) : Response :=
  match holdOffOf c k with
  | .nakOrNone => nakOrNone e k
  | .always r => r

/-- The answer to a toggle mismatch (42_bus_transactions.md R204). -/
def mismatchResponse (c : Config) (e : EpCtl) : Response :=
  if e.ephshk then
    match c.mismatch with
    | .ack => .ack
    | .nak => .nak
  else .none

/-- The response of the bus port to the event. -/
def respond (s : State) (r : Response) : State :=
  { s with resp := r }

/-- The response, and the end of the transaction in progress. -/
def finish (s : State) (r : Response) : State :=
  { s with resp := r, txn := none }

/-- The transaction in progress goes on in this phase. -/
def setPhase (s : State) (x : Txn) (p : Phase) : State :=
  { s with txn := some { x with phase := p } }

/-! ## The checks of a token -/

/-- What the checks of steps 1 to 7 say (42_bus_transactions.md R193). -/
inductive Check where
  /-- The transaction ends with this response and no other effect. -/
  | answer (r : Response)
  /-- Step 7: the endpoint is halted. -/
  | halted
  /-- Step 4: no meaning (U7). -/
  | noMeaning
  /-- Steps 1 to 7 let the token pass. -/
  | go
  deriving DecidableEq, Repr

/-- Steps 1 to 7 of 42_bus_transactions.md R193, in that order. -/
def tokenChecks (s : State) (k : Kind) (addr : BitVec 7) (ep : Fin 16) : Check :=
  let e := s.ep[ep]
  if active s = false then .answer .none
  else if addr ≠ s.devaddr then .answer .none
  else if enabled e k = false then .answer .none
  else if e.epstall = true ∧ e.ephshk = false then .noMeaning
  else if s.pktdis then .answer (pktdisResponse s.cfg e k)
  else if s.cfg.fifoDepth ≤ s.fifo.length then .answer (nakOrNone e k)
  else if k ≠ .setup ∧ e.epstall = true then .halted
  else .go

/-! ## The completion step -/

/-- `Retire` (43_completion.md R231), one indivisible step: the result into word 0, the pointer to the other descriptor, an
entry into the queue, and PKTDIS after a SETUP (R236). `base` is the table base the fetch used. -/
def retireOp (base : Word) (ep : Fin 16) (dir : Dir) (odd : Bool) (n : Half) (t : Bool) (k : Kind) (s : State) : State :=
  let s1 := storeWord s (bdAddr base ep dir odd) (word0 n (resultFlags t k))
  let s2 := setPpbi s1 ep dir (!odd)
  { s2 with
    fifo := s2.fifo ++ [{ ep := ep, dir := dir, odd := odd }]
    pktdis := s2.pktdis || decide (k = .setup) }

/-! ## A command, as the engine executes it -/

/-- The address of word 0 of the transaction's descriptor (40_register_ops.md R145: the sampled base). -/
def txnBd (x : Txn) (odd : Bool) : Nat :=
  bdAddr x.base x.ep (dirOf x.kind) odd

/-- `IR.STALLIF <- 1 ; EP[ep].EPSTALL <- 1 ; respond STALL` (42_bus_transactions.md R200). -/
def stallArmed (s : State) (x : Txn) : State :=
  finish (setEp (setStallif s) x.ep { s.ep[x.ep] with epstall := true }) .stall

/-- Whether the toggle check rejects the packet (42_bus_transactions.md R204): an OUT with DTS and another toggle. -/
def toggleRejected (x : Txn) (t d : Bool) : Bool :=
  decide (x.kind = .out) && d && (x.toggle != t)

/-- The data phase of a received packet and its completion (42_bus_transactions.md R205, R208). -/
def receive (s : State) (x : Txn) (odd : Bool) (n : Half) : Result :=
  if n.toNat < x.payload.length then .refused .overrun
  else
    let a := readWord s (txnBd x odd + 4)
    if bufferOk s.cfg a n.toNat = false then .refused .badBuffer
    else
      .next (finish (retireOp x.base x.ep (dirOf x.kind) odd (BitVec.ofNat 16 x.payload.length) x.toggle x.kind
        (storeBytes s a.toNat x.payload)) (ackOrNone x.ctl))

/-- The data phase of a sent packet and its completion (42_bus_transactions.md R210 to R212). -/
def send (s : State) (x : Txn) (odd t : Bool) (n : Half) : Result :=
  let a := readWord s (txnBd x odd + 4)
  if bufferOk s.cfg a n.toNat = false then .refused .badBuffer
  else
    let r := Response.data t (readBytesAt s a.toNat n.toNat)
    if x.ctl.ephshk = true ∧ x.ack = false then .next (finish s r)
    else .next (finish (retireOp x.base x.ep (dirOf x.kind) odd n t x.kind s) r)

/-- A data command, run to the transaction's end. -/
def runData (s : State) (x : Txn) (odd t d : Bool) (n : Half) : Result :=
  if x.kind = .inn then send s x odd t n
  else if toggleRejected x t d then .next (finish s (mismatchResponse s.cfg x.ctl))
  else receive s x odd n

/-- A fetched command, run to the transaction's end (42_bus_transactions.md R193 steps 9 to 11). A SETUP treats BD.STALL as
BD.DATA (R209). -/
def runCommand (s : State) (x : Txn) (odd : Bool) : Command → Result
  | .idle => .next (finish s (nakOrNone x.ctl x.kind))
  | .stall t d n => if x.kind = .setup then runData s x odd t d n else .next (stallArmed s x)
  | .data t d n => runData s x odd t d n

/-! ## A command, one access at a time (20_memory.md R73, R78) -/

/-- How many bytes the data phase moves. -/
def bytesToMove (x : Txn) (n : Half) : Nat :=
  match x.kind with
  | .inn => n.toNat
  | .out => x.payload.length
  | .setup => x.payload.length

/-- The data phase has moved its last byte: an IN packet is sent and, with handshake, waits for the host's ACK
(42_bus_transactions.md R210, R211); the completion step is next. -/
def allMoved (s : State) (x : Txn) (odd t : Bool) (n : Half) (got : List Byte) : State :=
  match x.kind with
  | .inn =>
    if x.ctl.ephshk = true ∧ x.ack = false then finish s (.data t got)
    else setPhase (respond s (.data t got)) x (.done odd n t)
  | .out => setPhase s x (.done odd (BitVec.ofNat 16 x.payload.length) x.toggle)
  | .setup => setPhase s x (.done odd (BitVec.ofNat 16 x.payload.length) x.toggle)

/-- The data phase has moved `i` bytes. -/
def afterMove (s : State) (x : Txn) (odd : Bool) (w0 a : Word) (t : Bool) (n : Half) (i : Nat) (got : List Byte) : State :=
  if bytesToMove x n ≤ i then allMoved s x odd t n got else setPhase s x (.data odd w0 a i got)

/-- The first access of a data command: the read of word 1, after the checks of an OUT or SETUP packet and before the range
check (42_bus_transactions.md R203 to R206). -/
def beginData (s : State) (x : Txn) (odd : Bool) (w0 : Word) (t d : Bool) (n : Half) : Result :=
  if x.kind ≠ .inn ∧ toggleRejected x t d = true then .next (finish s (mismatchResponse s.cfg x.ctl))
  else if x.kind ≠ .inn ∧ n.toNat < x.payload.length then .refused .overrun
  else
    let a := readWord s (txnBd x odd + 4)
    if bufferOk s.cfg a n.toNat = false then .refused .badBuffer
    else .next (afterMove s x odd w0 a t n 0 [])

/-- One byte access of the data phase (20_memory.md R68 (3)). -/
def moveByte (s : State) (x : Txn) (odd : Bool) (w0 a : Word) (t : Bool) (n : Half) (i : Nat) (got : List Byte) : State :=
  if bytesToMove x n ≤ i then allMoved s x odd t n got
  else match x.kind with
    | .inn => afterMove s x odd w0 a t n (i + 1) (got ++ [readByte s (a.toNat + i)])
    | .out => afterMove (storeBytes s (a.toNat + i) [x.payload.getD i 0#8]) x odd w0 a t n (i + 1) got
    | .setup => afterMove (storeBytes s (a.toNat + i) [x.payload.getD i 0#8]) x odd w0 a t n (i + 1) got

/-! ## Executing a command of the latch -/

/-- The engine executes a data command: the rest of the transaction, or with `fine` its next access. Where no transaction
has fetched the command nothing happens (20_memory.md R80, log 6). -/
def dataCommand (t d : Bool) (n : Half) (s : State) : Result :=
  match s.txn with
  | none => .next s
  | some x =>
    match x.phase with
    | .command odd w0 => if s.fine then beginData s x odd w0 t d n else runData s x odd t d n
    | .data odd w0 a i got => .next (moveByte s x odd w0 a t n i got)
    | .fetch => .next s
    | .done _ _ _ => .next s

/-- The engine executes a stall command (42_bus_transactions.md R193 step 10, R200, R209). With `fine` its effects are a step
after FETCH, so software can step between them and the read that decided them: DESIGN CHOICE (log 26), since 20_memory.md R73
and R78 name memory accesses only. -/
def stallCommand (t d : Bool) (n : Half) (s : State) : Result :=
  match s.txn with
  | none => .next s
  | some x =>
    if x.kind = .setup then dataCommand t d n s
    else match x.phase with
      | .command _ _ => .next (stallArmed s x)
      | .data _ _ _ _ _ => .next s
      | .fetch => .next s
      | .done _ _ _ => .next s

/-- The engine finds no command (42_bus_transactions.md R193 step 9, R198). With `fine` its answer is a step after FETCH
(DESIGN CHOICE, log 26). -/
def idleCommand (s : State) : Result :=
  match s.txn with
  | none => .next s
  | some x =>
    match x.phase with
    | .command _ _ => .next (finish s (nakOrNone x.ctl x.kind))
    | .data _ _ _ _ _ => .next s
    | .fetch => .next s
    | .done _ _ _ => .next s

/-- A completion step on the transaction in progress, or alone. Its response is the transaction's: an OUT or SETUP is
acknowledged now, an IN packet was sent before (42_bus_transactions.md R205, R210). Alone it uses the table base of the
registers (log 21). -/
def retireStep (ep : Fin 16) (dir : Dir) (odd : Bool) (n : Half) (t : Bool) (k : Kind) (s : State) : State :=
  match s.txn with
  | none => retireOp (bdtBase s) ep dir odd n t k s
  | some x => finish (retireOp x.base ep dir odd n t k s) (if k = .inn then s.resp else ackOrNone x.ctl)

/-- A result word (41_descriptor_ops.md R164): where a completion step is next it is the word the engine writes, so the
completion step it is part of happens; fetched as a command it is BD.IDLE (R162, log 6). -/
def resultCommand (t : Bool) (k : Kind) (n : Half) (s : State) : Result :=
  match s.txn with
  | none => .next s
  | some x =>
    match x.phase with
    | .done odd _ _ => .next (retireStep x.ep (dirOf x.kind) odd n t k s)
    | .command _ _ => idleCommand s
    | .data _ _ _ _ _ => .next s
    | .fetch => .next s

/-- FETCH (41_descriptor_ops.md R168): the read of word 0 of the descriptor at the pointer, and nothing else. The outcome that
word 0 decides (a NAK, a STALL with STALLIF and EPSTALL, no response) is the step after it; that software can step in between
is the model's choice (DESIGN CHOICE, log 26). -/
def fetchStep (s : State) (x : Txn) : Result :=
  let odd := ppbi s x.ep (dirOf x.kind)
  let w0 := readWord s (txnBd x odd)
  match fetchCommand w0 with
  | .error e => .refused (.decode e)
  | .ok _ => .next (setPhase s x (.command odd w0))

/-! ## A token -/

/-- A whole transaction after its checks, as one step: fetch, data phase, completion (42_bus_transactions.md R190). -/
def transact (s : State) (x : Txn) : Result :=
  let odd := ppbi s x.ep (dirOf x.kind)
  match fetchCommand (readWord s (txnBd x odd)) with
  | .error e => .refused (.decode e)
  | .ok c => runCommand s x odd c

/-- The latch of a transaction that begins: EP[ep] and the table base are sampled now (40_register_ops.md R119, R145). -/
def newTxn (s : State) (k : Kind) (ep : Fin 16) (toggle : Bool) (payload : List Byte) (ack : Bool) : Txn where
  kind := k
  ep := ep
  ctl := s.ep[ep]
  base := bdtBase s
  toggle := toggle
  payload := payload
  ack := ack
  phase := .fetch

/-- A token (42_bus_transactions.md R193): the checks, then the whole transaction, or with `fine` its beginning only. -/
def tokenOp (k : Kind) (addr : BitVec 7) (ep : Fin 16) (toggle : Bool) (payload : List Byte) (ack : Bool) (s : State) :
    Result :=
  match tokenChecks s k addr ep with
  | .answer r => .next (respond s r)
  | .halted => .next (respond (setStallif s) .stall)
  | .noMeaning => .refused .haltedWithoutHandshake
  | .go =>
    if s.fine then .next { s with txn := some (newTxn s k ep toggle payload ack) }
    else transact s (newTxn s k ep toggle payload ack)

/-! ## Hand-over operations of software (30_encoding.md R108) -/

/-- `MW16 a, v`. -/
def write16 (a : Nat) (v : Half) : MemAccess where
  write := true
  width := .w16
  addr := BitVec.ofNat 32 a
  value := v.setWidth 32

/-- `MW32 a, v`. -/
def write32 (a : Nat) (v : Word) : MemAccess where
  write := true
  width := .w32
  addr := BitVec.ofNat 32 a
  value := v

/-- The three writes of ARM and ARMSTALL to the descriptor at `bd`, `flags` last (30_encoding.md R108, 20_memory.md R74). -/
def armWrites (bd : Nat) (n : Half) (a : Word) (flags : Half) : List MemAccess :=
  [write16 (bd + 2) n, write32 (bd + 4) a, write16 bd flags]

/-- The two writes of BDINIT to the descriptor at `bd` (30_encoding.md R108). -/
def initWrites (bd : Nat) : List MemAccess :=
  [write16 bd 0#16, write16 (bd + 2) 0#16]

/-- Software makes its next pending write. -/
def nextWrite (s : State) : Result :=
  match s.pending with
  | [] => .next s
  | w :: rest => memAccess w { s with pending := rest }

/-- Writes one after the other. -/
def allWrites : List MemAccess → State → Result
  | [], s => .next s
  | w :: rest, s => andThen (memAccess w s) (allWrites rest)

/-- Software makes a sequence of writes: with `fine` the first one now, each other one a step of its own, so that the engine may
step in between (20_memory.md R78); else all of them (log 15). Their addresses are those of the table at the start. -/
def handOver (ws : List MemAccess) (s : State) : Result :=
  if s.fine then nextWrite { s with pending := ws } else allWrites ws s

/-! ## Registers -/

/-- A read of a register: the value goes to software, no flag changes (40_register_ops.md R118, 20_memory.md R70). -/
def readReg (b : Byte) (s : State) : Result :=
  .next (setRdata s (readValue b))

/-- A read that draws: `f` gives the register's byte from the drawn one, and the draw is used up (log 7). -/
def readDrawn (f : State → Byte → Byte) (s : State) : Result :=
  .next { s with
    rdata := readValue (f s (Config.freeBits s.draws))
    draws := s.draws + 1 }

/-- A write with reserved bits: a 1 in one of them is refused (U6), else the effect (40_register_ops.md R118). -/
def writeReg (mask : Byte) (v : Word) (f : State → Byte → State) (s : State) : Result :=
  if lowByte v &&& mask ≠ 0#8 then .refused .reservedRegisterBit else .next (f s (lowByte v))

end Sys2Proof.Machine
end

