-- ==== Sys2Proof/Machine/Bus.lean ====
section
/-! DEFINITION. The bus operations (spec 42_bus_transactions.md R205, R208, R210, R217 to R219). -/

namespace Sys2Proof.Machine

/-- BUS.OUT (42_bus_transactions.md R205). -/
def execBusOut (addr : BitVec 7) (ep : Fin 16) (toggle : Bool) (payload : List Byte) (s : State) : Result :=
  tokenOp .out addr ep toggle payload false s

/-- BUS.IN (42_bus_transactions.md R210); `ack` is the handshake the host returns if data is sent. -/
def execBusIn (addr : BitVec 7) (ep : Fin 16) (ack : Bool) (s : State) : Result :=
  tokenOp .inn addr ep false [] ack s

/-- BUS.SETUP (42_bus_transactions.md R208). -/
def execBusSetup (addr : BitVec 7) (ep : Fin 16) (toggle : Bool) (payload : List Byte) (s : State) : Result :=
  tokenOp .setup addr ep toggle payload false s

/-- BUS.SOF (42_bus_transactions.md R217): no state of the block changes; the response is none. -/
def execBusSof (s : State) : Result :=
  .next (respond s .none)

/-- BUS.RESET (42_bus_transactions.md R218). -/
def execBusReset (s : State) : Result :=
  .next (respond (if active s then setUrstif s else s) .none)

/-- BUS.ERR (42_bus_transactions.md R219). -/
def execBusErr (m : Byte) (s : State) : Result :=
  .next (respond (if active s then orEir s m else s) .none)

end Sys2Proof.Machine
end

