-- ==== Sys2Proof/Machine/Descriptors.lean ====
section
/-! DEFINITION. The descriptor commands and results, the hand-over operations of software, and the engine's fetch and
completion step (spec 41_descriptor_ops.md, 43_completion.md R231). -/

namespace Sys2Proof.Machine

/-- BD.DATA (41_descriptor_ops.md R160), executed by the engine for the transaction that fetched it. -/
def execBdData (t d : Bool) (n : Half) (s : State) : Result :=
  dataCommand t d n s

/-- BD.STALL (41_descriptor_ops.md R163). -/
def execBdStall (t d : Bool) (n : Half) (s : State) : Result :=
  stallCommand t d n s

/-- BD.IDLE (41_descriptor_ops.md R162): the engine looks at no bit but UOWN. -/
def execBdIdle (_flags _n : Half) (s : State) : Result :=
  idleCommand s

/-- BD.DONE (41_descriptor_ops.md R164) with the token as an operand. -/
def execBdDone (t : Bool) (k : Kind) (n : Half) (s : State) : Result :=
  resultCommand t k n s

/-- BD.DONE.OUT (41_descriptor_ops.md R164). -/
def execBdDoneOut (t : Bool) (n : Half) (s : State) : Result :=
  resultCommand t .out n s

/-- BD.DONE.IN (41_descriptor_ops.md R164). -/
def execBdDoneIn (t : Bool) (n : Half) (s : State) : Result :=
  resultCommand t .inn n s

/-- BD.DONE.SETUP (41_descriptor_ops.md R164). -/
def execBdDoneSetup (t : Bool) (n : Half) (s : State) : Result :=
  resultCommand t .setup n s

/-- ARM (41_descriptor_ops.md R161, 30_encoding.md R108). The engine imposes none of software's preconditions. -/
def execArm (ep : Fin 16) (dir : Dir) (odd : Bool) (n : Half) (a : Word) (t d : Bool) (s : State) : Result :=
  handOver (armWrites (bdAddr (bdtBase s) ep dir odd) n a (dataFlags t d)) s

/-- ARMSTALL (41_descriptor_ops.md R163, 30_encoding.md R108). -/
def execArmStall (ep : Fin 16) (dir : Dir) (odd : Bool) (n : Half) (a : Word) (t d : Bool) (s : State) : Result :=
  handOver (armWrites (bdAddr (bdtBase s) ep dir odd) n a (stallFlags t d)) s

/-- Stall override (41_descriptor_ops.md R165): ARM over BD.STALL; EPSTALL is not touched. -/
def execStallOverride (ep : Fin 16) (dir : Dir) (odd : Bool) (n : Half) (a : Word) (t d : Bool) (s : State) : Result :=
  handOver (armWrites (bdAddr (bdtBase s) ep dir odd) n a (dataFlags t d)) s

/-- RECLAIM (41_descriptor_ops.md R166): one write, the flags become 0; count, address and pointer stay. -/
def execReclaim (ep : Fin 16) (dir : Dir) (odd : Bool) (s : State) : Result :=
  memAccess (write16 (bdAddr (bdtBase s) ep dir odd) 0#16) s

/-- BDINIT (41_descriptor_ops.md R167): flags and count of both descriptors become 0. -/
def execBdInit (ep : Fin 16) (dir : Dir) (s : State) : Result :=
  handOver (initWrites (bdAddr (bdtBase s) ep dir false) ++ initWrites (bdAddr (bdtBase s) ep dir true)) s

/-- FETCH (41_descriptor_ops.md R168), the first access of the transaction in progress. Where none awaits it there is
nothing to fetch (log 6). -/
def execFetch (s : State) : Result :=
  match s.txn with
  | none => .next s
  | some x =>
    match x.phase with
    | .fetch => fetchStep s x
    | .command _ _ => .next s
    | .data _ _ _ _ _ => .next s
    | .done _ _ _ => .next s

/-- RETIRE (43_completion.md R231). -/
def execRetire (ep : Fin 16) (dir : Dir) (odd : Bool) (n : Half) (t : Bool) (k : Kind) (s : State) : Result :=
  .next (retireStep ep dir odd n t k s)

end Sys2Proof.Machine
end

