-- ==== Sys2Proof/Machine/Registers.lean ====
section
/-! DEFINITION. The register operations of the software agent (spec 40_register_ops.md R118 to R145). Every one is one step;
a read changes nothing but the value software receives. -/

namespace Sys2Proof.Machine

/-- RD.EP (40_register_ops.md R120). -/
def execRdEp (n : Fin 16) (s : State) : Result :=
  readReg (epByte s.ep[n]) s

/-- WR.EP (R121): bits 7:5 are reserved; the five fields are written at once. -/
def execWrEp (n : Fin 16) (v : Word) (s : State) : Result :=
  writeReg 0xE0#8 v (fun s b => setEp s n (epOfBits (b.extractLsb' 0 5))) s

/-- RD.PWRC (R122). -/
def execRdPwrc (s : State) : Result :=
  readReg (0#7 ++ bit s.usbpwr : BitVec 8) s

/-- WR.PWRC (R123): bits 7:1 are reserved. -/
def execWrPwrc (v : Word) (s : State) : Result :=
  writeReg 0xFE#8 v (fun s b => { s with usbpwr := bitAt 8 b 0 }) s

/-- RD.CON (R124): bits 7:6 are drawn. -/
def execRdCon (s : State) : Result :=
  readDrawn conByte s

/-- WR.CON (R125): bits 4:1 are reserved, bits 7:6 ignored. -/
def execWrCon (v : Word) (s : State) : Result :=
  writeReg 0x1E#8 v writeCon s

/-- RD.ADDR (R126). -/
def execRdAddr (s : State) : Result :=
  readReg (0#1 ++ s.devaddr : BitVec 8) s

/-- WR.ADDR (R127): bit 7 is reserved. -/
def execWrAddr (v : Word) (s : State) : Result :=
  writeReg 0x80#8 v (fun s b => { s with devaddr := b.extractLsb' 0 7 }) s

/-- RD.OTGCON (R128). -/
def execRdOtgcon (s : State) : Result :=
  readReg s.otgcon s

/-- WR.OTGCON (R129): only 0 may be written. -/
def execWrOtgcon (v : Word) (s : State) : Result :=
  writeReg 0xFF#8 v (fun s _ => { s with otgcon := 0#8 }) s

/-- RD.IR (R130): bits 6:4 and 2:1 are drawn. -/
def execRdIr (s : State) : Result :=
  readDrawn irByte s

/-- WR.IR (R131): write one to clear, or to pop the queue. -/
def execWrIr (v : Word) (s : State) : Result :=
  writeReg 0x00#8 v clearIr s

/-- RD.IE (R132). -/
def execRdIe (s : State) : Result :=
  readReg s.ie s

/-- WR.IE (R133): all 8 bits are stored. -/
def execWrIe (v : Word) (s : State) : Result :=
  writeReg 0x00#8 v (fun s b => { s with ie := b }) s

/-- RD.EIR (R134). -/
def execRdEir (s : State) : Result :=
  readReg s.eir s

/-- WR.EIR (R135): write one to clear. -/
def execWrEir (v : Word) (s : State) : Result :=
  writeReg 0x00#8 v clearEir s

/-- RD.STAT (R136): the head of the queue; with an empty queue every bit is drawn. A draw is used up only then. -/
def execRdStat (s : State) : Result :=
  match s.fifo with
  | e :: _ => readReg (statOf e) s
  | [] => readDrawn statByte s

/-- WR.STAT (R137): ignored. -/
def execWrStat (v : Word) (s : State) : Result :=
  writeReg 0x00#8 v (fun s _ => s) s

/-- RD.BDTP1 (R138). -/
def execRdBdtp1 (s : State) : Result :=
  readReg (s.bdtp1 ++ 0#1 : BitVec 8) s

/-- WR.BDTP1 (R139): bit 0 is dropped. -/
def execWrBdtp1 (v : Word) (s : State) : Result :=
  writeReg 0x00#8 v (fun s b => { s with bdtp1 := b.extractLsb' 1 7 }) s

/-- RD.BDTP2 (R140). -/
def execRdBdtp2 (s : State) : Result :=
  readReg s.bdtp2 s

/-- WR.BDTP2 (R141). -/
def execWrBdtp2 (v : Word) (s : State) : Result :=
  writeReg 0x00#8 v (fun s b => { s with bdtp2 := b }) s

/-- RD.BDTP3 (R142). -/
def execRdBdtp3 (s : State) : Result :=
  readReg s.bdtp3 s

/-- WR.BDTP3 (R143). -/
def execWrBdtp3 (v : Word) (s : State) : Result :=
  writeReg 0x00#8 v (fun s b => { s with bdtp3 := b }) s

end Sys2Proof.Machine
end

