-- ==== Sys2Proof/Machine/Dispatch.lean ====
section
/-! DEFINITION. One arm for each instruction, each a direct call of its meaning. -/

namespace Sys2Proof.Machine

def exec (i : Instr) (s : State) : Host.Outcome State Fault Refusal :=
  match i with
  | .bdData t d n => Sys2Proof.Machine.execBdData t d n s
  | .bdStall t d n => Sys2Proof.Machine.execBdStall t d n s
  | .bdIdle flags n => Sys2Proof.Machine.execBdIdle flags n s
  | .bdDone t kind n => Sys2Proof.Machine.execBdDone t kind n s
  | .bdDoneOut t n => Sys2Proof.Machine.execBdDoneOut t n s
  | .bdDoneIn t n => Sys2Proof.Machine.execBdDoneIn t n s
  | .bdDoneSetup t n => Sys2Proof.Machine.execBdDoneSetup t n s
  | .arm ep dir odd n a t d => Sys2Proof.Machine.execArm ep dir odd n a t d s
  | .armStall ep dir odd n a t d => Sys2Proof.Machine.execArmStall ep dir odd n a t d s
  | .stallOverride ep dir odd n a t d => Sys2Proof.Machine.execStallOverride ep dir odd n a t d s
  | .reclaim ep dir odd => Sys2Proof.Machine.execReclaim ep dir odd s
  | .bdInit ep dir => Sys2Proof.Machine.execBdInit ep dir s
  | .fetch => Sys2Proof.Machine.execFetch s
  | .retire ep dir odd n t kind => Sys2Proof.Machine.execRetire ep dir odd n t kind s
  | .busOut addr ep toggle payload => Sys2Proof.Machine.execBusOut addr ep toggle payload s
  | .busIn addr ep ack => Sys2Proof.Machine.execBusIn addr ep ack s
  | .busSetup addr ep toggle payload => Sys2Proof.Machine.execBusSetup addr ep toggle payload s
  | .busSof => Sys2Proof.Machine.execBusSof s
  | .busReset => Sys2Proof.Machine.execBusReset s
  | .busErr m => Sys2Proof.Machine.execBusErr m s
  | .rdEp n => Sys2Proof.Machine.execRdEp n s
  | .wrEp n v => Sys2Proof.Machine.execWrEp n v s
  | .rdPwrc => Sys2Proof.Machine.execRdPwrc s
  | .wrPwrc v => Sys2Proof.Machine.execWrPwrc v s
  | .rdCon => Sys2Proof.Machine.execRdCon s
  | .wrCon v => Sys2Proof.Machine.execWrCon v s
  | .rdAddr => Sys2Proof.Machine.execRdAddr s
  | .wrAddr v => Sys2Proof.Machine.execWrAddr v s
  | .rdOtgcon => Sys2Proof.Machine.execRdOtgcon s
  | .wrOtgcon v => Sys2Proof.Machine.execWrOtgcon v s
  | .rdIr => Sys2Proof.Machine.execRdIr s
  | .wrIr v => Sys2Proof.Machine.execWrIr v s
  | .rdIe => Sys2Proof.Machine.execRdIe s
  | .wrIe v => Sys2Proof.Machine.execWrIe v s
  | .rdEir => Sys2Proof.Machine.execRdEir s
  | .wrEir v => Sys2Proof.Machine.execWrEir v s
  | .rdStat => Sys2Proof.Machine.execRdStat s
  | .wrStat v => Sys2Proof.Machine.execWrStat v s
  | .rdBdtp1 => Sys2Proof.Machine.execRdBdtp1 s
  | .wrBdtp1 v => Sys2Proof.Machine.execWrBdtp1 v s
  | .rdBdtp2 => Sys2Proof.Machine.execRdBdtp2 s
  | .wrBdtp2 v => Sys2Proof.Machine.execWrBdtp2 v s
  | .rdBdtp3 => Sys2Proof.Machine.execRdBdtp3 s
  | .wrBdtp3 v => Sys2Proof.Machine.execWrBdtp3 v s

end Sys2Proof.Machine
end

