-- ==== Sys2Proof/Machine/Driver.lean ====
section
/-! DEFINITION. The software agent's driver procedures (spec 45_software_agent.md R250 to R272), each as the sequence of register
and memory accesses it makes and what it concludes from their answers. They are software, not hardware (00_scope.md R4). One
text serves a call run to its end in one step and a call of which each access is a step of its own (R250, 20_memory.md R78,
log 17). -/

namespace Sys2Proof.Machine

/-! ## Procedures -/

/-- One access of software (30_encoding.md R107). -/
inductive Access where
  | readReg (r : Reg)
  | writeReg (r : Reg) (v : Word)
  | readMem (w : Width) (a : Nat)
  | writeMem (w : Width) (a : Nat) (v : Word)
  deriving DecidableEq, Repr

/-- A procedure: it returns and leaves the driver's state, or it makes an access and goes on with the answer. -/
inductive Procedure where
  | returns (d : Driver)
  | access (a : Access) (next : Word → Procedure)

/-- An access is performed: a register operation, or a memory access. -/
def runAccess (a : Access) (s : State) : Result :=
  match a with
  | .readReg r => exec (readInstr r) s
  | .writeReg r v => exec (writeInstr v r) s
  | .readMem w a => softRead w a s
  | .writeMem w a v => softWrite w a v s

/-- A procedure run to its end. The answer to a read is what the read returned; the answer to a write is not looked at. -/
def runProcedure : Procedure → State → Result
  | .returns d, s => .next { s with drv := d }
  | .access a next, s => andThen (runAccess a s) fun t => runProcedure (next t.rdata) t

/-- Where a procedure stands after its first accesses were answered. -/
def afterAnswers : Procedure → List Word → Procedure
  | p, [] => p
  | .returns d, _ :: _ => .returns d
  | .access _ next, v :: vs => afterAnswers (next v) vs

/-- `RD r`. -/
def rd (r : Reg) (next : Word → Procedure) : Procedure :=
  .access (.readReg r) next

/-- `WR r, v`, and then `p`. -/
def wr (r : Reg) (v : Word) (p : Procedure) : Procedure :=
  .access (.writeReg r v) fun _ => p

/-- `MR16 a`: the 16 bits read. -/
def mr16 (a : Nat) (next : Half → Procedure) : Procedure :=
  .access (.readMem .w16 a) fun v => next (v.extractLsb' 0 16)

/-- `MW16 a, v`, and then `p`. -/
def mw16 (a : Nat) (v : Half) (p : Procedure) : Procedure :=
  .access (.writeMem .w16 a (v.setWidth 32)) fun _ => p

/-- `MW32 a, v`, and then `p`. -/
def mw32 (a : Nat) (v : Word) (p : Procedure) : Procedure :=
  .access (.writeMem .w32 a v) fun _ => p

/-- The bytes of a buffer written by `MW8`, the lowest address first, and then `p`. That a buffer is copied byte by byte in this
order is DESIGN CHOICE (log 17): 20_memory.md R69 allows any width. -/
def mwBytes : Nat → List Byte → Procedure → Procedure
  | _, [], p => p
  | a, b :: bs, p => .access (.writeMem .w8 a (b.setWidth 32)) fun _ => mwBytes (a + 1) bs p

/-- `n` bytes of a buffer read by `MR8`, the lowest address first: DESIGN CHOICE (log 17). -/
def mrBytes : Nat → Nat → (List Byte → Procedure) → Procedure
  | _, 0, next => next []
  | a, n + 1, next => .access (.readMem .w8 a) fun v => mrBytes (a + 1) n fun bs => next (v.extractLsb' 0 8 :: bs)

/-- The call returns. -/
def ret (r : CallResult) (d : Driver) : Procedure :=
  .returns { d with result := r }

/-! ## The driver's state -/

/-- The control block of an endpoint direction (45_software_agent.md R251). -/
def ecbOf (d : Driver) (ep : Fin 16) : Dir → Option Ecb
  | .rx => d.ecbRx[ep]
  | .tx => d.ecbTx[ep]

/-- Set the control block of an endpoint direction. -/
def putEcb (d : Driver) (ep : Fin 16) (dir : Dir) (e : Option Ecb) : Driver :=
  match dir with
  | .rx => { d with ecbRx := d.ecbRx.set ep e }
  | .tx => { d with ecbTx := d.ecbTx.set ep e }

/-- Update a control block if there is one (log 18). -/
def updateEcb (ep : Fin 16) (dir : Dir) (f : Ecb → Ecb) (d : Driver) : Driver :=
  match ecbOf d ep dir with
  | none => d
  | some e => putEcb d ep dir (some (f e))

/-- The buffer of a parity. -/
def bufOf (e : Ecb) (odd : Bool) : Word :=
  if odd then e.buf1 else e.buf0

/-- The address of the control block's descriptor of a parity (45_software_agent.md R251: its own reference to the pair). -/
def slotOf (e : Ecb) (odd : Bool) : Nat :=
  e.pair.toNat + 8 * natOfBool odd

/-- One bit of a 16-bit endpoint bitmap. -/
def epMask (ep : Fin 16) : Half :=
  1#16 <<< ep.val

/-! ## Pseudo-operations over registers (30_encoding.md R108) -/

/-- SETBASE, and then `p`. -/
def setBase (a : Word) (p : Procedure) : Procedure :=
  wr .bdtp1 ((a.extractLsb' 8 8).setWidth 32) (wr .bdtp2 ((a.extractLsb' 16 8).setWidth 32)
    (wr .bdtp3 ((a.extractLsb' 24 8).setWidth 32) p))

/-- ACKTRN, and then `p`. -/
def ackTrn (p : Procedure) : Procedure :=
  wr .ir 0x08#32 p

/-- CLRPKTDIS, and then `p`: read CON, write back USBEN alone. -/
def clrPktdis (p : Procedure) : Procedure :=
  rd .con fun c => wr .con (c &&& 1#32) p

/-! ## Procedures of the control block

A procedure that others call hands its result and the driver's state on to `next`. -/

/-- The type bits and the enable bit written at `alloc` (45_software_agent.md R272). -/
def allocBits (ty : EpType) (dir : Dir) : Word :=
  (match ty with
    | .control => 0x01#32
    | .bulk => 0x11#32
    | .interrupt => 0x11#32
    | .isochronous => 0x10#32)
  ||| (match dir with
    | .tx => 0x04#32
    | .rx => 0x08#32)

/-- The values of a new control block (45_software_agent.md R253). -/
def newEcb (ty : EpType) (size : Nat) (b0 b1 pair : Word) : Ecb where
  nextOdd := false
  data01 := false
  stalled := false
  armedCtr := 0
  completeCtr := 0
  nextCompleteOdd := false
  epType := ty
  epSize := size
  buf0 := b0
  buf1 := b1
  pair := pair

/-- The flag word `arm_generic` writes (45_software_agent.md R256). -/
def armFlags (e : Ecb) (stall : Bool) : Half :=
  let iso := decide (e.epType = .isochronous)
  if stall then stallFlags (!iso && e.data01) (!iso) else dataFlags (!iso && e.data01) (!iso)

/-- The control block after a successful `arm_generic` (45_software_agent.md R256). -/
def armedEcb (e : Ecb) (stall : Bool) : Ecb :=
  if stall then { e with stalled := true }
  else { e with
    stalled := false
    nextOdd := !e.nextOdd
    armedCtr := e.armedCtr + 1
    data01 := if e.epType = .isochronous then e.data01 else !e.data01 }

/-- `arm_generic` on a control block (45_software_agent.md R256), its checks and its writes in the rule's order, `flags`
last. -/
def armGenericOn (ep : Fin 16) (dir : Dir) (e : Ecb) (len : Nat) (stall : Bool) (d : Driver)
    (next : CallResult → Driver → Procedure) : Procedure :=
  if e.epSize < len then next (.err .bufferOverflow) d
  else if 2 ≤ e.armedCtr + e.completeCtr then next (.err .wouldBlock) d
  else if e.stalled = true ∧ stall = true then next (.err .invalidState) d
  else
    mw32 (slotOf e e.nextOdd + 4) (bufOf e e.nextOdd) (mw16 (slotOf e e.nextOdd + 2) (BitVec.ofNat 16 len)
      (mw16 (slotOf e e.nextOdd) (armFlags e stall) (next .ok (putEcb d ep dir (some (armedEcb e stall))))))

/-- `arm_generic` of an endpoint direction; without a control block there is none to call (log 18). -/
def armGeneric (ep : Fin 16) (dir : Dir) (len : Nat) (stall : Bool) (d : Driver) (next : CallResult → Driver → Procedure) :
    Procedure :=
  match ecbOf d ep dir with
  | none => next (.err .invalidEndpoint) d
  | some e => armGenericOn ep dir e len stall d next

/-- `can_arm` (45_software_agent.md R255): one read of `flags`, and the buffer if bit 7 is 0. -/
def canArmOn (e : Ecb) (next : Option Word → Procedure) : Procedure :=
  mr16 (slotOf e e.nextOdd) fun f => next (if bitAt 16 f 7 then none else some (bufOf e e.nextOdd))

/-- `can_arm` of an endpoint direction (log 18). -/
def canArm (ep : Fin 16) (dir : Dir) (d : Driver) : Procedure :=
  match ecbOf d ep dir with
  | none => ret (.err .invalidEndpoint) d
  | some e => canArmOn e fun b => ret (.armable b) d

/-- `alloc` (45_software_agent.md R254): BDINIT of the pair first, then the enable bit, by a read-modify-write of EP. The pair is
the one of the driver's table. -/
def alloc (ep : Fin 16) (dir : Dir) (ty : EpType) (size : Nat) (bufs : Option (Word × Word)) (d : Driver)
    (next : CallResult → Driver → Procedure) : Procedure :=
  match bufs with
  | none => next (.err .endpointOverflow) d
  | some b =>
    let bd := bdAddr d.table ep dir false
    mw16 bd 0#16 (mw16 (bd + 2) 0#16 (mw16 (bd + 8) 0#16 (mw16 (bd + 10) 0#16
      (rd (.ep ep) fun v => wr (.ep ep) (v ||| allocBits ty dir)
        (next (.endpoint ep) (putEcb d ep dir (some (newEcb ty size b.1 b.2 (BitVec.ofNat 32 bd)))))))))

/-- `write` of a TX control block (45_software_agent.md R257): the copy is finished before the hand-over write. -/
def writeEp (ep : Fin 16) (buf : List Byte) (d : Driver) : Procedure :=
  match ecbOf d ep .tx with
  | none => ret (.err .invalidEndpoint) d
  | some e =>
    if e.epSize < buf.length then ret (.err .bufferOverflow) d
    else canArmOn e fun b =>
      match b with
      | none => ret (.err .wouldBlock) d
      | some b =>
        mwBytes b.toNat buf (armGenericOn ep .tx e buf.length false d fun r d =>
          match r with
          | .ok => ret (.length buf.length) d
          | _ => ret r d)

/-- `read` of an RX control block (45_software_agent.md R258). The descriptor it re-arms is the one at `next_odd`. -/
def readEp (ep : Fin 16) (len : Nat) (d : Driver) : Procedure :=
  match ecbOf d ep .rx with
  | none => ret (.err .invalidEndpoint) d
  | some e =>
    if e.completeCtr = 0 then ret (.err .wouldBlock) d
    else mr16 (slotOf e e.nextCompleteOdd + 2) fun n =>
      if len < n.toNat then ret (.err .bufferOverflow) d
      else mrBytes (bufOf e e.nextCompleteOdd).toNat n.toNat fun bs =>
        let e1 := { e with completeCtr := e.completeCtr - 1, nextCompleteOdd := !e.nextCompleteOdd }
        armGenericOn ep .rx e1 e1.epSize false (putEcb d ep .rx (some e1)) fun _ d => ret (.bytes bs) d

/-- The control block after `cancel` (45_software_agent.md R259). -/
def cancelledEcb (e : Ecb) : Ecb :=
  let odd := e.nextOdd != decide (e.armedCtr % 2 = 1)
  { e with nextOdd := odd, nextCompleteOdd := odd, armedCtr := 0, completeCtr := 0 }

/-- `cancel` (45_software_agent.md R259): RECLAIM of both descriptors, then the counters. -/
def cancel (ep : Fin 16) (dir : Dir) (d : Driver) (next : CallResult → Driver → Procedure) : Procedure :=
  match ecbOf d ep dir with
  | none => next (.err .invalidEndpoint) d
  | some e => mw16 (slotOf e false) 0#16 (mw16 (slotOf e true) 0#16 (next .ok (putEcb d ep dir (some (cancelledEcb e)))))

/-- The control block after `clear_completed` (45_software_agent.md R260). -/
def clearedEcb (e : Ecb) : Ecb :=
  { e with nextCompleteOdd := e.nextCompleteOdd != decide (e.completeCtr % 2 = 1), completeCtr := 0 }

/-- `clear_completed` (45_software_agent.md R260): it makes no access. -/
def clearCompleted (ep : Fin 16) (dir : Dir) (d : Driver) : Procedure :=
  match ecbOf d ep dir with
  | none => ret (.err .invalidEndpoint) d
  | some _ => ret .ok (updateEcb ep dir clearedEcb d)

/-! ## Procedures of the bus object -/

/-- `WR EP[n], 0` for the endpoints of a list, and then `p` (45_software_agent.md R262). -/
def disableAll : List (Fin 16) → Procedure → Procedure
  | [], p => p
  | n :: ns, p => wr (.ep n) 0#32 (disableAll ns p)

/-- `new` (45_software_agent.md R262). -/
def newBus (table : Word) : Procedure :=
  wr .con 0#32 (wr .otgcon 0#32 (wr .pwrc 1#32 (disableAll (List.finRange 16) (setBase table
    (.returns { Driver.initial with table := table })))))

/-- The lowest endpoint from 1 up whose slot of a direction is free (45_software_agent.md R263). -/
def freeSlot (d : Driver) (dir : Dir) : Option (Fin 16) :=
  (List.finRange 16).tail.find? (fun n => (ecbOf d n dir).isNone)

/-- `alloc`, and for an OUT endpoint one `arm_generic` (45_software_agent.md R263). -/
def allocAt (ep : Fin 16) (dir : Dir) (ty : EpType) (size : Nat) (bufs : Option (Word × Word)) (d : Driver) : Procedure :=
  alloc ep dir ty size bufs d fun r d =>
    match dir, r with
    | .rx, .endpoint n => armGeneric ep .rx size false d fun _ d => ret (.endpoint n) d
    | .rx, _ => ret r d
    | .tx, _ => ret r d

/-- `alloc_ep` (45_software_agent.md R263). -/
def allocEp (dir : Dir) (addr : Option EpAddr) (ty : EpType) (size : Nat) (bufs : Option (Word × Word)) (d : Driver) :
    Procedure :=
  match addr with
  | some a =>
    if a.dir ≠ dir then ret (.err .invalidEndpoint) d
    else if h : a.num < 16 then
      if (ecbOf d ⟨a.num, h⟩ dir).isSome then ret (.err .invalidEndpoint) d
      else allocAt ⟨a.num, h⟩ dir ty size bufs d
    else ret (.err .endpointOverflow) d
  | none =>
    match freeSlot d dir with
    | some n => allocAt n dir ty size bufs d
    | none => ret (.err .endpointOverflow) d

/-- `enable` (45_software_agent.md R264). -/
def enableBus (d : Driver) : Procedure :=
  wr .ie 0x89#32 (wr .con 0x01#32 (ret .ok d))

/-- `reset` (45_software_agent.md R265): `clear_completed` on `(0, RX)`. It returns no error, also where that control block does
not exist: DESIGN CHOICE (log 18). -/
def resetBus (d : Driver) : Procedure :=
  ret .ok (updateEcb 0 .rx clearedEcb d)

/-- `set_device_address` (45_software_agent.md R266): masked to 7 bits. -/
def setDeviceAddress (addr : Byte) (d : Driver) : Procedure :=
  wr .addr ((addr &&& 0x7F#8).setWidth 32) (ret .ok d)

/-- The bus-level `write` (45_software_agent.md R267). -/
def busWrite (a : EpAddr) (buf : List Byte) (d : Driver) : Procedure :=
  if h : a.num < 16 then
    if a.dir = .tx then writeEp ⟨a.num, h⟩ buf d else ret (.err .invalidEndpoint) d
  else ret (.err .invalidEndpoint) d

/-- The bus-level `read` (45_software_agent.md R267): it also clears the endpoint's pending bits (log 18). -/
def busRead (a : EpAddr) (len : Nat) (d : Driver) : Procedure :=
  if h : a.num < 16 then
    if a.dir = .rx ∧ (ecbOf d ⟨a.num, h⟩ .rx).isSome then
      let m := ~~~(epMask ⟨a.num, h⟩)
      readEp ⟨a.num, h⟩ len { d with prOut := d.prOut &&& m, prSu := d.prSu &&& m }
    else ret (.err .invalidEndpoint) d
  else ret (.err .invalidEndpoint) d

/-- `set_stalled` (45_software_agent.md R268): true sets EPSTALL by a read-modify-write, false does nothing. -/
def setStalled (ep : Fin 16) (stalled : Bool) (d : Driver) : Procedure :=
  if stalled then rd (.ep ep) fun v => wr (.ep ep) (v ||| 0x02#32) (ret .ok d) else ret .ok d

/-! ## `poll` (45_software_agent.md R270) -/

/-- One OUT or SETUP completion in the counters of a control block. -/
def countReceived (e : Ecb) : Ecb :=
  { e with completeCtr := e.completeCtr + 1, armedCtr := e.armedCtr - 1 }

/-- One IN completion in the counters of a control block. -/
def countSent (e : Ecb) : Ecb :=
  { e with armedCtr := e.armedCtr - 1 }

/-- The driver's handling of an OUT completion. -/
def handleOut (ep : Fin 16) (d : Driver) : Driver :=
  let d := updateEcb ep .rx countReceived d
  { d with prOut := d.prOut ||| epMask ep }

/-- The driver's handling of an IN completion. -/
def handleIn (ep : Fin 16) (d : Driver) : Driver :=
  updateEcb ep .tx countSent d

/-- What a SETUP does to the driver's state after the TX side was cancelled: `clear_completed` and the count on the RX side, the
bitmap, the toggles. -/
def afterSetup (ep : Fin 16) (d : Driver) : Driver :=
  let d := updateEcb ep .rx (fun e => countReceived (clearedEcb e)) d
  let d := { d with prSu := d.prSu ||| epMask ep }
  updateEcb ep .tx (fun e => { e with data01 := true }) (updateEcb ep .rx (fun e => { e with data01 := true }) d)

/-- The driver's handling of a SETUP completion, PKTDIS cleared last. -/
def handleSetup (ep : Fin 16) (d : Driver) (next : Driver → Procedure) : Procedure :=
  cancel ep .tx d fun _ d => clrPktdis (next (afterSetup ep d))

/-- One pass of the loop: snapshot STAT, pop, read the PID from the descriptor, handle. -/
def pollPass (prIn : Half) (d : Driver) (next : Half → Driver → Procedure) : Procedure :=
  rd .stat fun st =>
    let ep : Fin 16 := (st.extractLsb' 4 4).toFin
    ackTrn (mr16 (bdAddr d.table ep (dirOfBit (bitAt 32 st 3)) (bitAt 32 st 2)) fun f =>
      match kindOfPid (f.extractLsb' 2 4) with
      | some .out => next prIn (handleOut ep d)
      | some .inn => next (prIn ||| epMask ep) (handleIn ep d)
      | some .setup => handleSetup ep d (next prIn)
      | none => next prIn d)

/-- What `poll` reports at its end. -/
def pollReport (prIn : Half) (d : Driver) : Procedure :=
  ret (if d.prOut ||| prIn ||| d.prSu = 0#16 then .nothing else .data d.prOut prIn d.prSu) d

/-- The stall handling of `poll`: clear EPSTALL in EP[0] by a read-modify-write, and the flag; then `p`. -/
def pollStall (p : Procedure) : Procedure :=
  rd (.ep 0) fun v => wr (.ep 0) (v &&& 0xFD#32) (wr .ir 0x80#32 p)

/-- The end of `poll`: bus reset (which ends the call), stall flag, report. DESIGN CHOICE (log 18): a poll that returns Reset
leaves the stall flag, `prOut` and `prSu` for the next call, as R270 says, but not the IN completions it has seen: R270's
pseudocode starts `pr_in` at 0 in every call, where its prose would have all pending data reported by the next one. -/
def pollEnd (prIn : Half) (d : Driver) : Procedure :=
  rd .ir fun v =>
    if bitAt 32 v 0 then wr .addr 0#32 (wr .ir 0x01#32 (ret .busReset d))
    else rd .ir fun v => if bitAt 32 v 7 then pollStall (pollReport prIn d) else pollReport prIn d

/-- The loop `while (RD IR)[3] = 1`, for up to `n` passes. Each pass tests the flag anew, so a completion that arrives during the
loop is handled by a later pass (43_completion.md R238). `procedure` says how `n` is chosen. -/
def pollLoop : Nat → Half → Driver → Procedure
  | 0, prIn, d => rd .ir fun _ => pollEnd prIn d
  | n + 1, prIn, d => rd .ir fun v => if bitAt 32 v 3 then pollPass prIn d (pollLoop n) else pollEnd prIn d

/-- `poll`: error flags, completions, and the end. -/
def poll (n : Nat) (d : Driver) : Procedure :=
  rd .eir fun e => if e = 0#32 then pollLoop n 0#16 d else wr .eir e (pollLoop n 0#16 d)

/-! ## A call -/

/-- The procedure of a call. `n` bounds the passes of `poll`'s loop, which has no bound of its own: a call run in one step needs
as many as there are entries, since none arrives in between; a call of which `k` accesses are answered needs at most `k + 1`,
since every pass makes an access. `drop` (R261) returns ok, also where there is no control block, and where the bus object is not
torn down after it the driver goes on with that slot free: DESIGN CHOICE (log 18). -/
def procedure (n : Nat) (c : Call) (d : Driver) : Procedure :=
  match c with
  | .new table => newBus table
  | .allocEp dir addr ty size _ bufs => allocEp dir addr ty size bufs d
  | .enable => enableBus d
  | .reset => resetBus d
  | .setDeviceAddress addr => setDeviceAddress addr d
  | .write addr buf => busWrite addr buf d
  | .read addr len => busRead addr len d
  | .setStalled ep _ stalled => setStalled ep stalled d
  | .isStalled _ _ => ret (.flag false) d
  | .suspend => ret .ok d
  | .resume => ret .ok d
  | .poll => poll n d
  | .canArm ep dir => canArm ep dir d
  | .armGeneric ep dir len stall => armGeneric ep dir len stall d ret
  | .cancel ep dir => cancel ep dir d ret
  | .clearCompleted ep dir => clearCompleted ep dir d
  | .drop ep dir => ret .ok (putEcb d ep dir none)

/-- A call run to its end in one step (log 17). -/
def runCall (c : Call) (s : State) : Result :=
  runProcedure (procedure s.fifo.length c s.drv) s

/-- A call begins: with `fine` its accesses are steps of their own, else it runs to its end at once (45_software_agent.md R250,
log 17). -/
def startCall (c : Call) (s : State) : Result :=
  if s.fine then .next { s with call := some { call := c, answers := [] } } else runCall c s

/-- A turn of software in the call in progress: its next access, or its return. -/
def callTurn (c : CallInProgress) (s : State) : Result :=
  match afterAnswers (procedure (c.answers.length + 1) c.call s.drv) c.answers with
  | .returns d => .next { s with drv := d, call := none }
  | .access a _ => andThen (runAccess a s) fun t => .next { t with call := some { c with answers := c.answers ++ [t.rdata] } }

end Sys2Proof.Machine
end

