-- ==== Sys2Proof/Machine/Turn.lean ====
section
/-! DEFINITION. Where the next operation comes from: the transaction in progress, what software has in progress (a driver call or
the writes of a hand-over operation), or the inputs (logs 2, 3). -/

namespace Sys2Proof.Machine

/-- The engine's next operation in a transaction: FETCH, then the command of the fetched word for as long as it has accesses
to make, then RETIRE (20_memory.md R73). -/
def engineInstr (x : Txn) : Except DecodeError Instr :=
  match x.phase with
  | .fetch => .ok .fetch
  | .command _ w0 => decodeBd w0
  | .data _ w0 _ _ _ => decodeBd w0
  | .done odd n t => .ok (.retire x.ep (dirOf x.kind) odd n t x.kind)

/-- The engine's turn. -/
def engineTurn (x : Txn) (s : State) : Result :=
  match engineInstr x with
  | .ok i => exec i s
  | .error e => .refused (.decode e)

/-- The operation of a frame at the register port or the bus port. Descriptor words and engine steps are the engine's own and
cannot come from outside (log 20). -/
def portInstr (rm : RegMap) (f : Frame) : Except DecodeError Instr :=
  match f.fmt with
  | .bd => .error .engineOnly
  | .eng => .error .engineOnly
  | .tok => decode rm f
  | .cond => decode rm f
  | .reg => decode rm f
  | .pseudo => decode rm f

/-- Whose move an input is. -/
inductive Agent where
  | bus
  | software
  | engine
  deriving DecidableEq, Repr

/-- The agent of an input. -/
def agentOf : Input → Agent
  | .op f => if f.fmt = .tok ∨ f.fmt = .cond then .bus else .software
  | .mem _ => .software
  | .call _ => .software
  | .engine => .engine
  | .software => .software

/-- What the next step is. -/
inductive Turn where
  | idle
  | engine (x : Txn)
  | software
  | input (i : Input) (rest : List Input)
  deriving DecidableEq, Repr

/-- Software has an operation in progress: a hand-over operation with writes to make, or a driver call. -/
def softwareBusy (s : State) : Bool :=
  !s.pending.isEmpty || s.call.isSome

/-- A turn of software in what it has in progress: the next write of a hand-over operation (30_encoding.md R108), else the next
access of the driver call (45_software_agent.md R250). -/
def softwareTurn (s : State) : Result :=
  match s.pending, s.call with
  | _ :: _, _ => nextWrite s
  | [], some c => callTurn c s
  | [], none => .next s

/-- Whose turn it is (log 2). A bus event waits for the transaction in progress to end, since the bus is serial
(42_bus_transactions.md R190); an operation of software waits for the one in progress, since software is one sequential caller
(45_software_agent.md R250). Who waits lets the other go on. With no input the engine goes on before software. -/
def whoseTurn (s : State) : Turn :=
  match s.inputs with
  | [] =>
    match s.txn with
    | some x => .engine x
    | none => if softwareBusy s then .software else .idle
  | i :: rest =>
    match agentOf i, s.txn with
    | .bus, some x => .engine x
    | .bus, none => .input i rest
    | .software, _ => if softwareBusy s ∧ i ≠ .software then .software else .input i rest
    | .engine, _ => .input i rest

/-- An input is performed. A turn of an agent that has nothing in progress changes nothing. -/
def runInput (i : Input) (s : State) : Result :=
  match i with
  | .op f =>
    match portInstr s.cfg.regs f with
    | .ok i => exec i s
    | .error e => .refused (.decode e)
  | .mem x => memAccess x s
  | .call c => startCall c s
  | .engine =>
    match s.txn with
    | some x => engineTurn x s
    | none => .next s
  | .software => softwareTurn s

/-- The next step. With nothing to do the state stays (00_scope.md R8). -/
def nextStep (s : State) : Result :=
  match whoseTurn s with
  | .idle => .next s
  | .engine x => engineTurn x s
  | .software => softwareTurn s
  | .input i rest => runInput i { s with inputs := rest }

/-- The latch in which a descriptor word is about to be executed: an OUT token without payload on endpoint 0 has fetched it
(log 29). -/
def latchOfWord (s : State) (w0 : Word) : Txn where
  kind := .out
  ep := 0
  ctl := s.ep[(0 : Fin 16)]
  base := bdtBase s
  toggle := false
  payload := []
  ack := false
  phase := .command (ppbi s 0 .rx) w0

/-- A frame placed where the next step takes its operation from: a token at the head of the inputs with no transaction in
progress, a descriptor word in the latch with the engine's turn next. -/
def placeFrame (s : State) (f : Frame) : State :=
  match f.fmt, f.bytes with
  | .bd, [b0, b1, b2, b3] =>
    { s with
      txn := some (latchOfWord s (word b0 b1 b2 b3))
      inputs := .engine :: s.inputs }
  | _, _ =>
    { s with
      txn := none
      inputs := .op f :: s.inputs }

/-- A table word placed where the next step takes its operation from. -/
def placeTableWord (s : State) (nbits w : Nat) : State :=
  match frameOfTableWord nbits w with
  | some f => placeFrame s f
  | none => s

end Sys2Proof.Machine
end

