-- ==== Sys2Proof/Machine/Step.lean ====
section
/-! DEFINITION. One step of the machine, and a table word placed where it takes its next operation from. -/

namespace Sys2Proof.Machine

/-- One step: one operation of one agent (00_scope.md R9). -/
def step (s : State) : Host.Outcome State Fault Refusal :=
  nextStep s

/-- The state whose very next step runs the instruction of a table word (log 3). -/
def State.withFetchWord (s : State) (nbits w : Nat) : State :=
  placeTableWord s nbits w

end Sys2Proof.Machine
end

