-- ==== Sys2Proof/Safety.lean ====
section
/-! DEFINITION. What counts as a safe run: the invariant of the machine, the conditions software must keep (spec
70_reset_and_hazards.md section 3), and a run that never stops. -/

namespace Sys2Proof.Machine

/-! ## The invariant -/

/-- The transaction in progress is one the checks and the fetch let through, and its packet fits what was checked
(42_bus_transactions.md R193, R203, R206). -/
def phaseOk (s : State) (x : Txn) : Prop :=
  match x.phase with
  | .fetch => True
  | .command odd w0 => odd = ppbi s x.ep (dirOf x.kind) ∧ (fetchCommand w0).isOk = true
  | .data odd w0 a i _ =>
    odd = ppbi s x.ep (dirOf x.kind) ∧ (fetchCommand w0).isOk = true ∧ bitAt 16 (flagsOf w0) 7 = true ∧
      i < bytesToMove x (countOf w0) ∧ bytesToMove x (countOf w0) ≤ (countOf w0).toNat ∧
      a.toNat + (countOf w0).toNat ≤ 2 ^ 32
  | .done odd n _ => odd = ppbi s x.ep (dirOf x.kind) ∧ n.toNat ≤ maxCount

/-- While a transaction is in progress the queue has a free place for its entry (42_bus_transactions.md R197) and the table
base it sampled is a multiple of 512 (10_state.md R50). -/
def txnOk (s : State) : Prop :=
  ∀ x, s.txn = some x → s.fifo.length < s.cfg.fifoDepth ∧ x.base.toNat % 512 = 0 ∧ phaseOk s x

/-- The invariant of the machine: memory is canonical, OTGCON is 0 (40_register_ops.md R128), the queue is within its depth
(10_state.md R46), and the transaction in progress is consistent. -/
structure Inv (s : State) : Prop where
  mem : memWf s.mem = true
  otgcon : s.otgcon = 0#8
  fifo : s.fifo.length ≤ s.cfg.fifoDepth
  txn : txnOk s

/-- The operations that only the engine runs: descriptor words and its own steps (41_descriptor_ops.md R160 to R164, R168,
43_completion.md R231). -/
def ofEngine : Instr → Bool
  | .bdData _ _ _ | .bdStall _ _ _ | .bdIdle _ _ | .bdDone _ _ _ | .bdDoneOut _ _ | .bdDoneIn _ _ | .bdDoneSetup _ _ => true
  | .fetch | .retire _ _ _ _ _ _ => true
  | .arm _ _ _ _ _ _ _ | .armStall _ _ _ _ _ _ _ | .stallOverride _ _ _ _ _ _ _ | .reclaim _ _ _ | .bdInit _ _ => false
  | .busOut _ _ _ _ | .busIn _ _ _ | .busSetup _ _ _ _ | .busSof | .busReset | .busErr _ => false
  | .rdEp _ | .rdPwrc | .rdCon | .rdAddr | .rdOtgcon | .rdIr | .rdIe | .rdEir | .rdStat | .rdBdtp1 | .rdBdtp2 | .rdBdtp3 =>
    false
  | .wrEp _ _ | .wrPwrc _ | .wrCon _ | .wrAddr _ | .wrOtgcon _ | .wrIr _ | .wrIe _ | .wrEir _ | .wrStat _ | .wrBdtp1 _
  | .wrBdtp2 _ | .wrBdtp3 _ => false

/-! ## What a transaction leaves, in the spec's own numbers -/

/-- `PID4(kind)` as the number of 30_encoding.md R95. -/
def pidNumber : Kind → Nat
  | .out => 1
  | .inn => 9
  | .setup => 13

/-- The word 0 a completion step writes (43_completion.md R231): the count above, the toggle at bit 6, the packet identifier
at bits 5:2, every other bit 0. -/
def resultWord (n : Half) (toggle : Bool) (k : Kind) : Word :=
  BitVec.ofNat 32 (65536 * n.toNat + 64 * natOfBool toggle + 4 * pidNumber k)

/-- What a byte of memory holds after word 0 at `bd` was written and, before that, the packet `bs` at `a`. -/
def byteAfter (s : State) (bd : Nat) (w0 : Word) (a : Nat) (bs : List Byte) (b : Nat) : Byte :=
  if bd ≤ b ∧ b < bd + 4 then byteAt 32 w0 (b - bd)
  else if a ≤ b ∧ b < a + bs.length then bs.getD (b - a) 0#8
  else readByte s b

/-- `t` is `s` after a completion step of the descriptor `(ep, dir, odd)` of the table at `base` (43_completion.md R231) that
stored the packet `bs` at `a` before it: the result word, the pointer, the queue entry and PKTDIS, and every other field as
it was but for the response and the transaction in progress. -/
structure Completed (s t : State) (base : Word) (ep : Fin 16) (dir : Dir) (odd : Bool) (n : Half) (toggle : Bool) (k : Kind)
    (a : Nat) (bs : List Byte) : Prop where
  memory : ∀ b, readByte t b = byteAfter s (base.toNat + 8 * bdIndex ep dir odd) (resultWord n toggle k) a bs b
  pointer : ppbi t ep dir = !odd
  otherPointers : ∀ ep' dir', ¬(ep' = ep ∧ dir' = dir) → ppbi t ep' dir' = ppbi s ep' dir'
  queue : t.fifo = s.fifo ++ [{ ep := ep, dir := dir, odd := odd }]
  pktdis : t.pktdis = (s.pktdis || decide (k = .setup))
  frame : t = { s with
    mem := t.mem
    ppbiRx := t.ppbiRx
    ppbiTx := t.ppbiTx
    fifo := t.fifo
    pktdis := t.pktdis
    resp := t.resp
    txn := t.txn }

/-- The bus operation of a token (42_bus_transactions.md R191): an OUT or SETUP has a data packet, an IN the host's
handshake. -/
def tokenInstr (k : Kind) (addr : BitVec 7) (ep : Fin 16) (toggle : Bool) (payload : List Byte) (ack : Bool) : Instr :=
  match k with
  | .out => .busOut addr ep toggle payload
  | .inn => .busIn addr ep ack
  | .setup => .busSetup addr ep toggle payload

/-- Steps 1 to 7 of 42_bus_transactions.md R193 let the token pass. -/
abbrev tokenPasses (s : State) (k : Kind) (addr : BitVec 7) (ep : Fin 16) : Prop :=
  (s.usbpwr = true ∧ s.usben = true) ∧ addr = s.devaddr ∧ enabled s.ep[ep] k = true ∧
    ¬(s.ep[ep].epstall = true ∧ s.ep[ep].ephshk = false) ∧ s.pktdis = false ∧ s.fifo.length < s.cfg.fifoDepth ∧
    (k = .setup ∨ s.ep[ep].epstall = false)

/-- The range of a buffer is one the engine may use (42_bus_transactions.md R203). -/
abbrev bufferFits (c : Config) (a : Word) (count : Nat) : Prop :=
  count = 0 ∨ (a.toNat + count ≤ 2 ^ 32 ∧ ∀ i, i < count → memValid c (a.toNat + i) = true)

/-- The bytes of a buffer, the lowest address first (20_memory.md R65). -/
def bytesOf (s : State) (a n : Nat) : List Byte :=
  (List.range n).map (fun i => readByte s (a + i))

/-! ## Software's duties -/

/-- The condition of RECLAIM (41_descriptor_ops.md R166): no transaction of the direction is in progress and none can
begin. -/
def mayReclaim (s : State) (ep : Fin 16) (dir : Dir) : Bool :=
  (match s.txn with
    | some x => !(decide (x.ep = ep) && decide (dirOf x.kind = dir))
    | none => true)
  && (s.pktdis || !active s || !dirEnabled s.ep[ep] dir)

/-- The descriptor holds BD.DATA, a command the engine executes and retires (41_descriptor_ops.md R160). -/
def holdsData (s : State) (ep : Fin 16) (dir : Dir) (odd : Bool) : Bool :=
  match fetchCommand (readWord s (bdAddr (bdtBase s) ep dir odd)) with
  | .ok (.data _ _ _) => true
  | .ok (.stall _ _ _) => false
  | .ok .idle => false
  | .error _ => false

/-- The descriptors of an endpoint direction that hold BD.DATA form a run from the pointer (41_descriptor_ops.md R170). -/
def inPointerOrder (s : State) (ep : Fin 16) (dir : Dir) : Bool :=
  holdsData s ep dir (ppbi s ep dir) || !holdsData s ep dir (!ppbi s ep dir)

/-- The preconditions of ARM that the block can show (41_descriptor_ops.md R161 (a), (c), R170): the descriptor is
software's, and it is the next in pointer order: the one at the pointer, or the other one after a BD.DATA there. -/
def mayArm (s : State) (ep : Fin 16) (dir : Dir) (odd : Bool) : Bool :=
  !ownedByEngine s ep dir odd && (odd == ppbi s ep dir || holdsData s ep dir (ppbi s ep dir))

/-- The condition of BDINIT (41_descriptor_ops.md R167): the direction is disabled. -/
def mayInit (s : State) (ep : Fin 16) (dir : Dir) : Bool :=
  !dirEnabled s.ep[ep] dir

/-- Software reads STAT only while TRNIF is 1 (70_reset_and_hazards.md R334). -/
def mayReadStat (s : State) : Bool :=
  trnif s

/-- The bound on a control block's counters (45_software_agent.md R251): `armed_ctr + complete_ctr <= 2`, and `complete_ctr`,
which counts what software saw complete, not below 0. -/
def ecbBounded (e : Ecb) : Prop :=
  0 ≤ e.completeCtr ∧ e.armedCtr + e.completeCtr ≤ 2

/-- Every control block of the driver keeps the bound. -/
def driverBounded (d : Driver) : Prop :=
  ∀ ep dir e, ecbOf d ep dir = some e → ecbBounded e

/-- Every counter of the driver is in its range 0..2 (45_software_agent.md R251): the bound, and `armed_ctr`, too, not below 0. -/
def driverInRange (d : Driver) : Prop :=
  ∀ ep dir e, ecbOf d ep dir = some e → 0 ≤ e.armedCtr ∧ ecbBounded e

/-- Every control block refers to its pair in the driver's table, which is 512-aligned (45_software_agent.md R251, R262). -/
def driverPlaced (d : Driver) : Prop :=
  d.table.toNat % 512 = 0 ∧ ∀ ep dir e, ecbOf d ep dir = some e → e.pair.toNat = bdAddr d.table ep dir false

/-- How many queued completions name an endpoint direction (41_descriptor_ops.md R171: `q`). -/
def queuedFor (s : State) (ep : Fin 16) (dir : Dir) : Nat :=
  s.fifo.countP fun q => q.ep == ep && q.dir == dir

/-- Every queued completion has a packet identifier of its direction in its descriptor of the driver's table, or none
(43_completion.md R231). -/
def pidsFit (s : State) : Prop :=
  ∀ q ∈ s.fifo, ∀ k, kindOfPid ((readHalf s (bdAddr s.drv.table q.ep q.dir q.odd)).extractLsb' 2 4) = some k → dirOf k = q.dir

/-! ## Runs -/

/-- `k` steps from a state all lead to a next state. -/
def runsSafely : Nat → State → Prop
  | 0, _ => True
  | k + 1, s => ∃ t, step s = .next t ∧ runsSafely k t

/-- The engine alone, for at most `k` of its turns, until no transaction is in progress. -/
def engineRun : Nat → State → Result
  | 0, s => .next s
  | k + 1, s =>
    match s.txn with
    | none => .next s
    | some x => andThen (engineTurn x s) (engineRun k)

/-- Software alone, for at most `k` of its turns, until no hand-over operation is in progress. -/
def writesRun : Nat → State → Result
  | 0, s => .next s
  | k + 1, s => if s.pending = [] then .next s else andThen (nextWrite s) (writesRun k)

/-- Software alone, for at most `k` of its turns, until no driver call is in progress. -/
def callRun : Nat → State → Result
  | 0, s => .next s
  | k + 1, s =>
    match s.call with
    | none => .next s
    | some c => andThen (callTurn c s) (callRun k)

end Sys2Proof.Machine
end

