-- ==== Sys2Proof/Certificates/Slice0/Obligations.lean ====
section
/-! DEFINITION. The statements for the provers. Each docstring names the rules of the spec the statement formalises; what is the
model's own choice is said with its log entry. -/

open Sys2Proof Sys2Proof.Machine

/-! ## Encodings -/

/-- Words written out from 30_encoding.md R91, R92, R95 (vectors V-E1 to V-E3) decode to the operations they stand for. The
place of a token's endpoint and address is the model's choice (log 4), that a word which is both an idle word and a result takes
the result's name is DEDUCED (log 5), the address of CON is PRESUMED (log 10). -/
def Obligations.SpecWordsDecode : Prop :=
  decodeBd 0x00080088#32 = .ok (.bdData false true 8#16) ∧
  decodeBd 0x03FF00C0#32 = .ok (.bdData true false 1023#16) ∧
  decodeBd 0x0000008C#32 = .ok (.bdStall false true 0#16) ∧
  decodeBd 0x0040007F#32 = .ok (.bdIdle 0x007F#16 0x0040#16) ∧
  decodeBd 0x00080034#32 = .ok (.bdDoneSetup false 8#16) ∧
  decodeBd 0x00020064#32 = .ok (.bdDoneIn true 2#16) ∧
  decodeBd 0x00020004#32 = .ok (.bdDoneOut false 2#16) ∧
  decodeBd 0x000800A8#32 = .error .keepOrNinc ∧
  decodeBd 0x00080098#32 = .error .keepOrNinc ∧
  decodeBd 0x00080188#32 = .error .reservedFlags ∧
  decodeBd 0x00080089#32 = .error .reservedFlags ∧
  decodeBd 0x04000080#32 = .error .countTooLarge ∧
  decodeToken 0x0851#16 [0xAA#8] = .ok (.busOut 5#7 1 false [0xAA#8]) ∧
  decodeToken 0x8859#16 [] = .ok (.busIn 5#7 1 true) ∧
  decodeToken 0x005D#16 [] = .ok (.busSetup 5#7 0 false []) ∧
  decodeToken 0x0005#16 [] = .ok .busSof ∧
  decode RegMap.default { fmt := .reg, bytes := [0x04#8, 0x50#8, 0x52#8, 0x88#8, 0x1F#8] } = .ok .rdCon

/-- For every well-formed instruction, decoding its encoding gives it back, every operand at every value the encoding admits.
The row BD.DONE decodes under the name of its token's row (log 5). -/
def Obligations.DecodeEncodeAgree : Prop :=
  ∀ (rm : RegMap) (i : Instr), rm.wf = true → i.wf = true → decode rm (encode rm i) = .ok (canonical i)

/-- Whatever bits the decoder accepts, the instruction it gives is well formed. -/
def Obligations.DecodedIsWellFormed : Prop :=
  ∀ (rm : RegMap) (f : Frame) (i : Instr), decode rm f = .ok i → i.wf = true

/-- A descriptor word has one meaning: the instruction it decodes to encodes to that word and no other. -/
def Obligations.DescriptorWordHasOneMeaning : Prop :=
  ∀ (rm : RegMap) (w : Word) (i : Instr), decodeBd w = .ok i → encode rm i = { fmt := .bd, bytes := wordBytes w }

/-! ## The step -/

/-- A step runs the decoded instruction: an operation at the head of the inputs, at the bus port when no transaction is in
progress (42_bus_transactions.md R190), at the register port when software has nothing in progress (45_software_agent.md R250), is
exec of the instruction its bits decode to, with the input used up. That operations come from the head of `inputs` is the model's choice
(log 2), and so is that bits which are no operation refuse by a name of their own (logs 19, 20). -/
def Obligations.StepRunsPortOperation : Prop :=
  ∀ (s : State) (f : Frame) (rest : List Input),
    s.inputs = .op f :: rest → f.fmt ≠ .bd → f.fmt ≠ .eng →
    ((f.fmt = .tok ∨ f.fmt = .cond) → s.txn = none) →
    (¬(f.fmt = .tok ∨ f.fmt = .cond) → s.call = none ∧ s.pending = []) →
      (∀ i, decode s.cfg.regs f = .ok i → step s = exec i { s with inputs := rest }) ∧
      (∀ e, decode s.cfg.regs f = .error e → step s = .refused (.decode e))

/-- A step of the engine runs the instruction of its phase: FETCH, then the instruction the fetched word decodes to, then
RETIRE. The engine moves when nothing is given, when a bus event has to wait (42_bus_transactions.md R190), and at its turn in
the inputs (log 2). Its turn with no transaction in progress changes nothing; with nothing to do at all the state stays. -/
def Obligations.StepRunsEngine : Prop :=
  (∀ (s s' : State) (x : Txn), s.txn = some x →
    ((s' = s ∧ (s.inputs = [] ∨ ∃ f rest, s.inputs = .op f :: rest ∧ (f.fmt = .tok ∨ f.fmt = .cond))) ∨
      ∃ rest, s.inputs = .engine :: rest ∧ s' = { s with inputs := rest }) →
      (x.phase = .fetch → step s = exec .fetch s') ∧
      (∀ odd w0 i, x.phase = .command odd w0 → decodeBd w0 = .ok i → step s = exec i s') ∧
      (∀ odd w0 a j got i, x.phase = .data odd w0 a j got → decodeBd w0 = .ok i → step s = exec i s') ∧
      (∀ odd n tg, x.phase = .done odd n tg → step s = exec (.retire x.ep (dirOf x.kind) odd n tg x.kind) s')) ∧
  (∀ (s : State) (rest : List Input), s.txn = none → s.inputs = .engine :: rest → step s = .next { s with inputs := rest }) ∧
  (∀ s : State, s.txn = none → s.call = none → s.pending = [] → s.inputs = [] → step s = .next s)

/-- 45_software_agent.md R250: a driver call begins when software has nothing in progress, and its accesses are then taken one
at a time, at software's turn in the inputs, when another operation of software has to wait for it, or when nothing else is to be
done; bus events and the engine's turns fall in between. The writes still to make of a hand-over operation (30_encoding.md R108,
20_memory.md R78) are taken in the same way, in their order, each a memory access. That the turns are so given, and that with
`fine` false a call is one step, is the model's (logs 2, 15, 17). -/
def Obligations.StepRunsCall : Prop :=
  (∀ (s : State) (c : Call) (rest : List Input), s.inputs = .call c :: rest → s.call = none → s.pending = [] →
    (s.fine = true → step s = .next { s with inputs := rest, call := some { call := c, answers := [] } }) ∧
    (s.fine = false → step s = runCall c { s with inputs := rest })) ∧
  (∀ s s' : State, (s.call ≠ none ∨ s.pending ≠ []) →
    ((s' = s ∧ ((s.inputs = [] ∧ s.txn = none) ∨
        ∃ i rest, s.inputs = i :: rest ∧ agentOf i = .software ∧ i ≠ .software)) ∨
      ∃ rest, s.inputs = .software :: rest ∧ s' = { s with inputs := rest }) →
      (∀ w ws, s.pending = w :: ws → step s = memAccess w { s' with pending := ws }) ∧
      (∀ c, s.pending = [] → s.call = some c → step s = callTurn c s')) ∧
  (∀ (s : State) (rest : List Input), s.call = none → s.pending = [] → s.inputs = .software :: rest →
    step s = .next { s with inputs := rest })

/-- A memory access of software (20_memory.md R65, R69, 30_encoding.md R107): a read gives the bytes little-endian and changes
nothing else, a write stores the low bytes of the value, the lowest first, and leaves every other byte. An access that passes
the top of the address space is refused, for no address lies there and no access of software can fault (60_exceptions.md R290,
log 16). -/
def Obligations.SoftwareMemoryAccess : Prop :=
  ∀ (s : State) (x : MemAccess) (rest : List Input), s.inputs = .mem x :: rest → s.call = none → s.pending = [] →
    (2 ^ 32 < x.addr.toNat + widthBytes x.width → step s = .refused .outsideMemory) ∧
    (x.addr.toNat + widthBytes x.width ≤ 2 ^ 32 → x.write = false →
      ∃ u, step s = .next u ∧ u = { s with inputs := rest, rdata := u.rdata } ∧
        u.rdata.toNat < 2 ^ (8 * widthBytes x.width) ∧
        ∀ j, j < widthBytes x.width → byteAt 32 u.rdata j = readByte s (x.addr.toNat + j)) ∧
    (x.addr.toNat + widthBytes x.width ≤ 2 ^ 32 → x.write = true →
      ∃ u, step s = .next u ∧ u = { s with inputs := rest, mem := u.mem } ∧
        (∀ j, j < widthBytes x.width → readByte u (x.addr.toNat + j) = byteAt 32 x.value j) ∧
        ∀ b, (b < x.addr.toNat ∨ x.addr.toNat + widthBytes x.width ≤ b) → readByte u b = readByte s b)

/-! ## Registers -/

/-- 40_register_ops.md R122, R126, R132, R134, R138, R140, R142: the value read is the register's, zero-extended, and nothing
else changes. -/
def Obligations.PlainRegisterReads : Prop :=
  ∀ s : State,
    exec .rdPwrc s = .next { s with rdata := BitVec.ofNat 32 (natOfBool s.usbpwr) } ∧
    exec .rdAddr s = .next { s with rdata := BitVec.ofNat 32 s.devaddr.toNat } ∧
    exec .rdIe s = .next { s with rdata := BitVec.ofNat 32 s.ie.toNat } ∧
    exec .rdEir s = .next { s with rdata := BitVec.ofNat 32 s.eir.toNat } ∧
    exec .rdBdtp1 s = .next { s with rdata := BitVec.ofNat 32 (2 * s.bdtp1.toNat) } ∧
    exec .rdBdtp2 s = .next { s with rdata := BitVec.ofNat 32 s.bdtp2.toNat } ∧
    exec .rdBdtp3 s = .next { s with rdata := BitVec.ofNat 32 s.bdtp3.toNat }

/-- 40_register_ops.md R120 with the places of 10_state.md R23: the five fields at bits 4:0, every other bit 0. -/
def Obligations.EndpointRegisterRead : Prop :=
  ∀ (s : State) (n : Fin 16),
    exec (.rdEp n) s = .next { s with
      rdata := BitVec.ofNat 32 (natOfBool s.ep[n].ephshk + 2 * natOfBool s.ep[n].epstall + 4 * natOfBool s.ep[n].eptxen
        + 8 * natOfBool s.ep[n].eprxen + 16 * natOfBool s.ep[n].epcondis) }

/-- 40_register_ops.md R128: OTGCON reads as it stands, which is 0 in every state that meets the invariant. -/
def Obligations.OtgconReadsZero : Prop :=
  ∀ s : State, exec .rdOtgcon s = .next { s with rdata := BitVec.ofNat 32 s.otgcon.toNat } ∧
    (Inv s → exec .rdOtgcon s = .next { s with rdata := 0#32 })

/-- 40_register_ops.md R124 and R130: the modelled bits of CON and IR, bits 31:8 zero, nothing else changed. Nothing is said of
the drawn bits. That a read uses up one draw is the model's (log 7). -/
def Obligations.ControlAndFlagReads : Prop :=
  ∀ s : State,
    (∃ u, exec .rdCon s = .next u ∧ u = { s with rdata := u.rdata, draws := s.draws + 1 } ∧
      u.rdata.getLsbD 0 = s.usben ∧ (∀ j, 1 ≤ j → j ≤ 4 → u.rdata.getLsbD j = false) ∧
      u.rdata.getLsbD 5 = s.pktdis ∧ u.rdata.toNat < 256) ∧
    (∃ u, exec .rdIr s = .next u ∧ u = { s with rdata := u.rdata, draws := s.draws + 1 } ∧
      u.rdata.getLsbD 0 = s.urstif ∧ u.rdata.getLsbD 3 = decide (0 < s.fifo.length) ∧
      u.rdata.getLsbD 7 = s.stallif ∧ u.rdata.toNat < 256)

/-- 40_register_ops.md R136: STAT shows the head of the queue and does not remove it; with an empty queue it is a draw of 8
bits. And 30_encoding.md R97, which the spec derives: its bits 7:2 are the index of the retired descriptor (10_state.md R38).
That the read of an empty queue uses up one draw is the model's (log 7). -/
def Obligations.StatusRead : Prop :=
  ∀ s : State,
    (∀ e rest, s.fifo = e :: rest →
      ∃ u, exec .rdStat s = .next u ∧ u = { s with rdata := u.rdata } ∧
        u.rdata.toNat = 16 * e.ep.val + 8 * natOfBool (dirBit e.dir) + 4 * natOfBool e.odd ∧
        (bdtBase s).toNat + 8 * (u.rdata.toNat / 4) = bdAddr (bdtBase s) e.ep e.dir e.odd) ∧
    (s.fifo = [] → ∃ u, exec .rdStat s = .next u ∧ u = { s with rdata := u.rdata, draws := s.draws + 1 } ∧
      u.rdata.toNat < 256)

/-- 40_register_ops.md R133, R137, R139, R141, R143: the byte written is stored, bit 0 of BDTP1 dropped, STAT ignored; nothing
else changes and no value is refused. -/
def Obligations.PlainRegisterWrites : Prop :=
  ∀ (s : State) (v : Word),
    exec (.wrIe v) s = .next { s with ie := v.extractLsb' 0 8 } ∧
    exec (.wrStat v) s = .next s ∧
    exec (.wrBdtp1 v) s = .next { s with bdtp1 := v.extractLsb' 1 7 } ∧
    exec (.wrBdtp2 v) s = .next { s with bdtp2 := v.extractLsb' 0 8 } ∧
    exec (.wrBdtp3 v) s = .next { s with bdtp3 := v.extractLsb' 0 8 }

/-- 40_register_ops.md R121, R123, R127, R129 (and R118 for bits 31:8): with every reserved bit of the low byte 0 the fields
are stored and nothing else changes; with a 1 in one of them the write is refused (U6). PWRC decides `active` with USBEN. -/
def Obligations.GuardedRegisterWrites : Prop :=
  ∀ (s : State) (v : Word),
    (∀ n, (v.extractLsb' 5 3 = 0#3 → exec (.wrEp n v) s = .next { s with
        ep := s.ep.set n { ephshk := v.getLsbD 0, epstall := v.getLsbD 1, eptxen := v.getLsbD 2, eprxen := v.getLsbD 3,
                           epcondis := v.getLsbD 4 } }) ∧
      (v.extractLsb' 5 3 ≠ 0#3 → exec (.wrEp n v) s = .refused .reservedRegisterBit)) ∧
    (v.extractLsb' 1 7 = 0#7 → exec (.wrPwrc v) s = .next { s with usbpwr := v.getLsbD 0 } ∧
      active { s with usbpwr := v.getLsbD 0 } = (v.getLsbD 0 && s.usben)) ∧
    (v.extractLsb' 1 7 ≠ 0#7 → exec (.wrPwrc v) s = .refused .reservedRegisterBit) ∧
    (v.getLsbD 7 = false → exec (.wrAddr v) s = .next { s with devaddr := v.extractLsb' 0 7 }) ∧
    (v.getLsbD 7 = true → exec (.wrAddr v) s = .refused .reservedRegisterBit) ∧
    (v.extractLsb' 0 8 = 0#8 → exec (.wrOtgcon v) s = .next { s with otgcon := 0#8 }) ∧
    (v.extractLsb' 0 8 ≠ 0#8 → exec (.wrOtgcon v) s = .refused .reservedRegisterBit)

/-- 40_register_ops.md R125: USBEN is stored, a 0 in bit 5 clears PKTDIS and a 1 leaves it, bits 7:6 are ignored, a 1 in bits
4:1 is refused. -/
def Obligations.ControlWrite : Prop :=
  ∀ (s : State) (v : Word),
    (v.extractLsb' 1 4 = 0#4 → v.getLsbD 5 = false →
      exec (.wrCon v) s = .next { s with usben := v.getLsbD 0, pktdis := false }) ∧
    (v.extractLsb' 1 4 = 0#4 → v.getLsbD 5 = true → exec (.wrCon v) s = .next { s with usben := v.getLsbD 0 }) ∧
    (v.extractLsb' 1 4 ≠ 0#4 → exec (.wrCon v) s = .refused .reservedRegisterBit)

/-- 40_register_ops.md R131 and R135: a 1 clears its flag, or pops the queue; a 0 leaves it; no other bit of IR has an effect;
nothing is refused. -/
def Obligations.WriteOneToClear : Prop :=
  ∀ (s : State) (v : Word),
    (∃ u, exec (.wrIr v) s = .next u ∧ u = { s with urstif := u.urstif, stallif := u.stallif, fifo := u.fifo } ∧
      (v.getLsbD 0 = true → u.urstif = false) ∧ (v.getLsbD 0 = false → u.urstif = s.urstif) ∧
      (v.getLsbD 7 = true → u.stallif = false) ∧ (v.getLsbD 7 = false → u.stallif = s.stallif) ∧
      (v.getLsbD 3 = true → u.fifo = s.fifo.drop 1) ∧ (v.getLsbD 3 = false → u.fifo = s.fifo)) ∧
    (∃ u, exec (.wrEir v) s = .next u ∧ u = { s with eir := u.eir } ∧
      ∀ j, j < 8 → u.eir.getLsbD j = (s.eir.getLsbD j && !v.getLsbD j))

/-- 30_encoding.md R96, 10_state.md R50: writing the three bytes of an address makes it the table base, its low 9 bits dropped,
and changes nothing but the three base registers. -/
def Obligations.SetBaseGivesTheBase : Prop :=
  ∀ (s : State) (a : Word), ∃ u,
    andThen (exec (.wrBdtp1 (BitVec.ofNat 32 (a.toNat / 256 % 256))) s) (fun s1 =>
      andThen (exec (.wrBdtp2 (BitVec.ofNat 32 (a.toNat / 65536 % 256))) s1) (fun s2 =>
        exec (.wrBdtp3 (BitVec.ofNat 32 (a.toNat / 16777216))) s2)) = .next u ∧
    u = { s with bdtp1 := u.bdtp1, bdtp2 := u.bdtp2, bdtp3 := u.bdtp3 } ∧
    (bdtBase u).toNat = a.toNat - a.toNat % 512

/-- 60_exceptions.md R300: the request is 1 exactly when one of the three flags meets its enable bit. -/
def Obligations.InterruptRequest : Prop :=
  ∀ s : State, irq s = true ↔
    (BitVec.ofNat 8 (128 * natOfBool s.stallif + 8 * natOfBool (decide (0 < s.fifo.length)) + natOfBool s.urstif)) &&& s.ie
      ≠ 0#8

/-! ## Descriptors and their hand-over -/

/-- 20_memory.md R62, R66: every descriptor lies in the 512 bytes of a 512-aligned table, is 8-byte aligned, and shares no byte
with another. -/
def Obligations.DescriptorsAreApart : Prop :=
  ∀ (s : State) (ep ep' : Fin 16) (dir dir' : Dir) (odd odd' : Bool),
    (bdtBase s).toNat % 512 = 0 ∧ bdAddr (bdtBase s) ep dir odd % 8 = 0 ∧
    (bdtBase s).toNat ≤ bdAddr (bdtBase s) ep dir odd ∧
    bdAddr (bdtBase s) ep dir odd + 8 ≤ (bdtBase s).toNat + 512 ∧
    (bdAddr (bdtBase s) ep dir odd < bdAddr (bdtBase s) ep' dir' odd' + 8 →
      bdAddr (bdtBase s) ep' dir' odd' < bdAddr (bdtBase s) ep dir odd + 8 → ep = ep' ∧ dir = dir' ∧ odd = odd')

/-- 30_encoding.md R108, 41_descriptor_ops.md R161, R163, R165: ARM, the stall override and ARMSTALL write the count, the
address and the flag word of the descriptor, hand it to the engine, and change no other byte and no register. With the accesses
as steps of their own (20_memory.md R78) the operation itself writes the count alone, then software's turns write the address
and, last, the flags, in the table at its start; with nothing in between they come to the same. The split into steps is the
model's (log 15). -/
def Obligations.ArmWritesTheDescriptor : Prop :=
  ∀ (s : State) (ep : Fin 16) (dir : Dir) (odd : Bool) (n : Half) (a : Word) (tg d : Bool) (i : Instr) (bd : Nat),
    (i = .arm ep dir odd n a tg d ∨ i = .stallOverride ep dir odd n a tg d ∨ i = .armStall ep dir odd n a tg d) →
    bd = bdAddr (bdtBase s) ep dir odd →
    ∃ u, u = { s with mem := u.mem } ∧
      (readHalf u bd).toNat =
        128 + 64 * natOfBool tg + 8 * natOfBool d + 4 * natOfBool (decide (i = .armStall ep dir odd n a tg d)) ∧
      readHalf u (bd + 2) = n ∧ readWord u (bd + 4) = a ∧ ownedByEngine u ep dir odd = true ∧
      (∀ b, (b < bd ∨ bd + 8 ≤ b) → readByte u b = readByte s b) ∧
      (s.fine = false → exec i s = .next u) ∧
      (s.fine = true → ∃ v w, exec i s = .next v ∧ writesRun 1 v = .next w ∧ writesRun 2 v = .next { u with pending := [] } ∧
        v = { s with mem := v.mem, pending := v.pending } ∧ v.pending.length = 2 ∧ readHalf v (bd + 2) = n ∧
        (∀ b, (b < bd + 2 ∨ bd + 4 ≤ b) → readByte v b = readByte s b) ∧
        w = { s with mem := w.mem, pending := w.pending } ∧ w.pending.length = 1 ∧ readWord w (bd + 4) = a ∧
        (∀ b, (b < bd + 4 ∨ bd + 8 ≤ b) → readByte w b = readByte v b))

/-- 41_descriptor_ops.md R166, R167, 30_encoding.md R108: RECLAIM zeroes the flags of one descriptor; BDINIT zeroes flags and
count of both descriptors of a direction; both give the descriptor to software; no other byte, no register and no pointer
changes. RECLAIM is one write; BDINIT with the accesses as steps of their own (20_memory.md R78) itself zeroes the flags of the
even descriptor alone, and three turns of software make its other writes. The split into steps is the model's (log 15). -/
def Obligations.ReclaimAndInit : Prop :=
  ∀ (s : State) (ep : Fin 16) (dir : Dir),
    (∀ odd, ∃ u, exec (.reclaim ep dir odd) s = .next u ∧ u = { s with mem := u.mem } ∧
      readHalf u (bdAddr (bdtBase s) ep dir odd) = 0#16 ∧ ownedByEngine u ep dir odd = false ∧
      ∀ b, (b < bdAddr (bdtBase s) ep dir odd ∨ bdAddr (bdtBase s) ep dir odd + 2 ≤ b) → readByte u b = readByte s b) ∧
    (∃ u, u = { s with mem := u.mem } ∧
      (∀ odd, readWord u (bdAddr (bdtBase s) ep dir odd) = 0#32 ∧ ownedByEngine u ep dir odd = false) ∧
      (∀ b, (∀ odd, b < bdAddr (bdtBase s) ep dir odd ∨ bdAddr (bdtBase s) ep dir odd + 4 ≤ b) →
        readByte u b = readByte s b) ∧
      (s.fine = false → exec (.bdInit ep dir) s = .next u) ∧
      (s.fine = true → ∃ v, exec (.bdInit ep dir) s = .next v ∧ writesRun 3 v = .next { u with pending := [] } ∧
        v = { s with mem := v.mem, pending := v.pending } ∧ v.pending.length = 3 ∧
        readHalf v (bdAddr (bdtBase s) ep dir false) = 0#16 ∧
        ∀ b, (b < bdAddr (bdtBase s) ep dir false ∨ bdAddr (bdtBase s) ep dir false + 2 ≤ b) → readByte v b = readByte s b))

/-- 42_bus_transactions.md R215, 10_state.md R51: for an enabled direction that is not halted, ARM or the stall override at the
pointer makes it Armed, ARMSTALL at the pointer StallArmed, RECLAIM at the pointer Idle, once all of its writes are made. -/
def Obligations.HandOverMovesTheEndpointState : Prop :=
  ∀ (s u : State) (ep : Fin 16) (dir : Dir) (n : Half) (a : Word) (tg d : Bool),
    dirEnabled s.ep[ep] dir = true → s.ep[ep].epstall = false → s.pending = [] →
      (andThen (exec (.arm ep dir (ppbi s ep dir) n a tg d) s) (writesRun 2) = .next u → epState u ep dir = .armed) ∧
      (andThen (exec (.stallOverride ep dir (ppbi s ep dir) n a tg d) s) (writesRun 2) = .next u →
        epState u ep dir = .armed) ∧
      (andThen (exec (.armStall ep dir (ppbi s ep dir) n a tg d) s) (writesRun 2) = .next u →
        epState u ep dir = .stallArmed) ∧
      (exec (.reclaim ep dir (ppbi s ep dir)) s = .next u → epState u ep dir = .idle)

/-! ## The engine's own operations -/

/-- 41_descriptor_ops.md R168: FETCH reads word 0 of the descriptor at the pointer of the token's direction, in the table
sampled with the token; the word is no command (UOWN 0), a data command or a stall command, or one of the refusals U1 to U3;
nothing but the latch changes. That U2 is named before U1 where a word earns both is DEDUCED (log 24). -/
def Obligations.FetchReadsTheCommand : Prop :=
  ∀ (s : State) (x : Txn) (odd : Bool) (w0 : Word), s.txn = some x → x.phase = .fetch →
    odd = ppbi s x.ep (dirOf x.kind) →
    w0 = readWord s (x.base.toNat + 32 * x.ep.val + 16 * natOfBool (dirBit (dirOf x.kind)) + 8 * natOfBool odd) →
      (w0.getLsbD 7 = false →
        exec .fetch s = .next { s with txn := some { x with phase := .command odd w0 } } ∧ fetchCommand w0 = .ok .idle) ∧
      (w0.getLsbD 7 = true → (w0.extractLsb' 8 8 ≠ 0#8 ∨ w0.extractLsb' 0 2 ≠ 0#2) →
        exec .fetch s = .refused (.decode .reservedFlags)) ∧
      (w0.getLsbD 7 = true → w0.extractLsb' 8 8 = 0#8 → w0.extractLsb' 0 2 = 0#2 →
        (w0.getLsbD 5 = true ∨ w0.getLsbD 4 = true) → exec .fetch s = .refused (.decode .keepOrNinc)) ∧
      (w0.getLsbD 7 = true → w0.extractLsb' 8 8 = 0#8 → w0.extractLsb' 0 2 = 0#2 → w0.getLsbD 5 = false →
        w0.getLsbD 4 = false → 1023 < w0.toNat / 65536 → exec .fetch s = .refused (.decode .countTooLarge)) ∧
      (w0.getLsbD 7 = true → w0.extractLsb' 8 8 = 0#8 → w0.extractLsb' 0 2 = 0#2 → w0.getLsbD 5 = false →
        w0.getLsbD 4 = false → w0.toNat / 65536 ≤ 1023 →
          exec .fetch s = .next { s with txn := some { x with phase := .command odd w0 } } ∧
          fetchCommand w0 = .ok (if w0.getLsbD 2
            then .stall (w0.getLsbD 6) (w0.getLsbD 3) (BitVec.ofNat 16 (w0.toNat / 65536))
            else .data (w0.getLsbD 6) (w0.getLsbD 3) (BitVec.ofNat 16 (w0.toNat / 65536))))

/-- 43_completion.md R231: the completion step, alone or of the transaction in progress, in the table the fetch used. The
response is the transaction's: an OUT or SETUP is acknowledged now, an IN was answered before (42 R205, R208, R210). That a
RETIRE alone uses the registers' base and leaves the response is the model's (log 21). -/
def Obligations.RetireCompletes : Prop :=
  ∀ (s : State) (ep : Fin 16) (dir : Dir) (odd : Bool) (n : Half) (tg : Bool) (k : Kind),
    (s.txn = none → ∃ u, exec (.retire ep dir odd n tg k) s = .next u ∧
      Completed s u (bdtBase s) ep dir odd n tg k 0 [] ∧ trnif u = true ∧ u.resp = s.resp ∧ u.txn = none) ∧
    (∀ x, s.txn = some x → ∃ u, exec (.retire ep dir odd n tg k) s = .next u ∧
      Completed s u x.base ep dir odd n tg k 0 [] ∧ trnif u = true ∧ u.txn = none ∧
      u.resp = if k = .inn then s.resp else if x.ctl.ephshk then .ack else .none)

/-- The result word of 41_descriptor_ops.md R164 executed where the completion step is next is that completion step: the word
is written, the pointer moves, the entry is queued, a SETUP sets PKTDIS (43_completion.md R231). That a result can be executed
so is DEDUCED (log 6): the rule says only that the engine writes it, and a step gets there by RETIRE. -/
def Obligations.ResultWordCompletes : Prop :=
  ∀ (s : State) (x : Txn) (odd : Bool) (m : Half) (v : Bool) (n : Half) (tg : Bool) (k : Kind) (i : Instr),
    s.txn = some x → x.phase = .done odd m v →
    (i = .bdDone tg k n ∨ (k = .out ∧ i = .bdDoneOut tg n) ∨ (k = .inn ∧ i = .bdDoneIn tg n) ∨
      (k = .setup ∧ i = .bdDoneSetup tg n)) →
      ∃ u, exec i s = .next u ∧ Completed s u x.base x.ep (dirOf x.kind) odd n tg k 0 [] ∧ u.txn = none

/-- 41_descriptor_ops.md R162, 42_bus_transactions.md R198: a fetched word with UOWN 0, an idle word or a result, is answered
NAK to an IN or OUT on an endpoint with handshake and not at all otherwise; nothing else changes. -/
def Obligations.IdleWordAnswers : Prop :=
  ∀ (s : State) (x : Txn) (odd : Bool) (w0 : Word) (f n : Half) (tg : Bool) (k : Kind) (i : Instr),
    s.txn = some x → x.phase = .command odd w0 →
    (i = .bdIdle f n ∨ i = .bdDone tg k n ∨ i = .bdDoneOut tg n ∨ i = .bdDoneIn tg n ∨ i = .bdDoneSetup tg n) →
      exec i s = .next { s with
        resp := if x.kind = .setup then .none else if x.ctl.ephshk then .nak else .none
        txn := none }

/-- 42_bus_transactions.md R200: a stall command answers an IN or OUT with STALL, sets STALLIF and the endpoint's EPSTALL and
changes nothing else. And R209: to a SETUP it is a data command, at every point of the transaction. -/
def Obligations.StallCommand : Prop :=
  ∀ (s : State) (x : Txn) (tg d : Bool) (n : Half), s.txn = some x →
    (∀ odd w0, x.phase = .command odd w0 → x.kind ≠ .setup → exec (.bdStall tg d n) s = .next { s with
      stallif := true
      ep := s.ep.set x.ep { ephshk := s.ep[x.ep].ephshk, epstall := true, eptxen := s.ep[x.ep].eptxen,
                            eprxen := s.ep[x.ep].eprxen, epcondis := s.ep[x.ep].epcondis }
      resp := .stall
      txn := none }) ∧
    (x.kind = .setup → exec (.bdStall tg d n) s = exec (.bdData tg d n) s)

/-- 42_bus_transactions.md R204: an OUT packet whose toggle is not the command's, under DTS, is answered
`DTS_MISMATCH_HANDSHAKE` or not at all and changes nothing. -/
def Obligations.ToggleMismatch : Prop :=
  ∀ (s : State) (x : Txn) (odd : Bool) (w0 : Word) (tg : Bool) (n : Half),
    s.txn = some x → x.phase = .command odd w0 → x.kind = .out → x.toggle ≠ tg →
      (x.ctl.ephshk = true → s.cfg.mismatch = .ack →
        exec (.bdData tg true n) s = .next { s with resp := .ack, txn := none }) ∧
      (x.ctl.ephshk = true → s.cfg.mismatch = .nak →
        exec (.bdData tg true n) s = .next { s with resp := .nak, txn := none }) ∧
      (x.ctl.ephshk = false → exec (.bdData tg true n) s = .next { s with resp := .none, txn := none })

/-- 42_bus_transactions.md R205, R208, R203, R206: with the whole transaction as one step, a data command stores an accepted
OUT or SETUP packet in the buffer and completes; a packet longer than the count and a buffer outside the space are
refused (U5, U4). -/
def Obligations.DataCommandReceives : Prop :=
  ∀ (s : State) (x : Txn) (odd : Bool) (w0 a : Word) (tg d : Bool) (n : Half),
    s.txn = some x → x.phase = .command odd w0 → s.fine = false →
    (x.kind = .setup ∨ (x.kind = .out ∧ (d = false ∨ x.toggle = tg))) →
    a = readWord s (bdAddr x.base x.ep .rx odd + 4) →
      (x.payload.length ≤ n.toNat → bufferFits s.cfg a n.toNat →
        ∃ u, exec (.bdData tg d n) s = .next u ∧
          Completed s u x.base x.ep .rx odd (BitVec.ofNat 16 x.payload.length) x.toggle x.kind a.toNat x.payload ∧
          u.resp = (if x.ctl.ephshk then .ack else .none) ∧ u.txn = none) ∧
      (n.toNat < x.payload.length → exec (.bdData tg d n) s = .refused .overrun) ∧
      (x.payload.length ≤ n.toNat → ¬bufferFits s.cfg a n.toNat → exec (.bdData tg d n) s = .refused .badBuffer)

/-- 42_bus_transactions.md R210, R211, R212, R203: with the whole transaction as one step, a data command answers an IN with
the bytes of the buffer and the command's toggle. On an endpoint with handshake and without the host's ACK nothing else
changes; otherwise the descriptor is retired. DTS has no effect. -/
def Obligations.DataCommandSends : Prop :=
  ∀ (s : State) (x : Txn) (odd : Bool) (w0 a : Word) (tg d : Bool) (n : Half),
    s.txn = some x → x.phase = .command odd w0 → s.fine = false → x.kind = .inn →
    a = readWord s (bdAddr x.base x.ep .tx odd + 4) →
      (bufferFits s.cfg a n.toNat → x.ctl.ephshk = true → x.ack = false →
        exec (.bdData tg d n) s = .next { s with resp := .data tg (bytesOf s a.toNat n.toNat), txn := none }) ∧
      (bufferFits s.cfg a n.toNat → (x.ctl.ephshk = false ∨ x.ack = true) →
        ∃ u, exec (.bdData tg d n) s = .next u ∧ Completed s u x.base x.ep .tx odd n tg .inn 0 [] ∧
          u.resp = .data tg (bytesOf s a.toNat n.toNat) ∧ u.txn = none) ∧
      (¬bufferFits s.cfg a n.toNat → exec (.bdData tg d n) s = .refused .badBuffer)

/-- 20_memory.md R73, 42_bus_transactions.md R203 to R206, R210: with the accesses as steps of their own, a data command begins
with the read of word 1: an OUT or SETUP packet longer than the count and a buffer outside the space are refused (U5, U4);
else the first byte is next, or the completion step where the packet has no byte; an IN without byte is sent at once. That
these checks are one step with the read is the model's (log 26). The toggle check before them is in ToggleMismatch. -/
def Obligations.DataCommandBegins : Prop :=
  ∀ (s : State) (x : Txn) (odd : Bool) (w0 a : Word) (tg d : Bool) (n : Half),
    s.txn = some x → x.phase = .command odd w0 → s.fine = true →
    a = readWord s (bdAddr x.base x.ep (dirOf x.kind) odd + 4) →
      ((x.kind = .setup ∨ (x.kind = .out ∧ (d = false ∨ x.toggle = tg))) →
        (n.toNat < x.payload.length → exec (.bdData tg d n) s = .refused .overrun) ∧
        (x.payload.length ≤ n.toNat → ¬bufferFits s.cfg a n.toNat → exec (.bdData tg d n) s = .refused .badBuffer) ∧
        (x.payload.length ≤ n.toNat → bufferFits s.cfg a n.toNat →
          exec (.bdData tg d n) s = .next { s with
            txn := some { x with phase := if x.payload.length = 0 then .done odd 0#16 x.toggle else .data odd w0 a 0 [] } })) ∧
      (x.kind = .inn →
        (¬bufferFits s.cfg a n.toNat → exec (.bdData tg d n) s = .refused .badBuffer) ∧
        (bufferFits s.cfg a n.toNat → 0 < n.toNat →
          exec (.bdData tg d n) s = .next { s with txn := some { x with phase := .data odd w0 a 0 [] } }) ∧
        (n.toNat = 0 → exec (.bdData tg d n) s = .next { s with
          resp := .data tg []
          txn := if x.ctl.ephshk = true ∧ x.ack = false then none else some { x with phase := .done odd n tg } }))

/-- 20_memory.md R68, R73: one access of the data phase moves one byte, the next one up, to or from the buffer whose address
was read, and touches nothing else; after the last byte the completion step is next (or, for an IN without the host's ACK,
the transaction is over). That the steps are split so is the model's (log 1). -/
def Obligations.DataPhaseMovesOneByte : Prop :=
  ∀ (s : State) (x : Txn) (odd : Bool) (w0 a : Word) (j : Nat) (got : List Byte) (tg d : Bool) (n : Half),
    s.txn = some x → x.phase = .data odd w0 a j got →
      (x.kind ≠ .inn → (hj : j < x.payload.length) →
        ∃ u, exec (.bdData tg d n) s = .next u ∧ u = { s with mem := u.mem, txn := u.txn } ∧
          readByte u (a.toNat + j) = x.payload[j] ∧ (∀ b, b ≠ a.toNat + j → readByte u b = readByte s b) ∧
          (j + 1 < x.payload.length → u.txn = some { x with phase := .data odd w0 a (j + 1) got }) ∧
          (j + 1 = x.payload.length →
            u.txn = some { x with phase := .done odd (BitVec.ofNat 16 x.payload.length) x.toggle })) ∧
      (x.kind = .inn → j + 1 < n.toNat →
        exec (.bdData tg d n) s = .next { s with
          txn := some { x with phase := .data odd w0 a (j + 1) (got ++ [readByte s (a.toNat + j)]) } }) ∧
      (x.kind = .inn → j + 1 = n.toNat →
        exec (.bdData tg d n) s = .next { s with
          resp := .data tg (got ++ [readByte s (a.toNat + j)])
          txn := if x.ctl.ephshk = true ∧ x.ack = false then none
                 else some { x with phase := .done odd n tg } })

/-! ## Bus operations -/

/-- 42_bus_transactions.md R193 steps 1 to 11 with R194 to R200, in their order, with the whole transaction as one step: each
step that ends the transaction changes only what it names; a token that passes them all goes on as the data command it
fetched, executed for that token. -/
def Obligations.TokenChecksInOrder : Prop :=
  ∀ (s : State) (k : Kind) (addr : BitVec 7) (ep : Fin 16) (tg : Bool) (p : List Byte) (ack : Bool) (e : EpCtl)
    (nakOr : Response) (on : Bool) (i : Instr),
    e = s.ep[ep] → nakOr = (if k = .setup then .none else if e.ephshk then .nak else .none) →
    on = (match k with | .inn => e.eptxen | .out => e.eprxen | .setup => e.eprxen && !e.epcondis) →
    i = tokenInstr k addr ep tg p ack → s.fine = false →
      (¬(s.usbpwr = true ∧ s.usben = true) → exec i s = .next { s with resp := .none }) ∧
      ((s.usbpwr = true ∧ s.usben = true) → addr ≠ s.devaddr → exec i s = .next { s with resp := .none }) ∧
      ((s.usbpwr = true ∧ s.usben = true) → addr = s.devaddr → on = false →
        exec i s = .next { s with resp := .none }) ∧
      ((s.usbpwr = true ∧ s.usben = true) → addr = s.devaddr → on = true → e.epstall = true → e.ephshk = false →
        exec i s = .refused .haltedWithoutHandshake) ∧
      ((s.usbpwr = true ∧ s.usben = true) → addr = s.devaddr → on = true →
        ¬(e.epstall = true ∧ e.ephshk = false) → s.pktdis = true →
        (holdOffOf s.cfg k = .nakOrNone → exec i s = .next { s with resp := nakOr }) ∧
        (∀ r, holdOffOf s.cfg k = .always r → exec i s = .next { s with resp := r })) ∧
      ((s.usbpwr = true ∧ s.usben = true) → addr = s.devaddr → on = true →
        ¬(e.epstall = true ∧ e.ephshk = false) → s.pktdis = false → s.cfg.fifoDepth ≤ s.fifo.length →
        exec i s = .next { s with resp := nakOr }) ∧
      ((s.usbpwr = true ∧ s.usben = true) → addr = s.devaddr → on = true →
        e.epstall = true → e.ephshk = true → s.pktdis = false → s.fifo.length < s.cfg.fifoDepth → k ≠ .setup →
        exec i s = .next { s with stallif := true, resp := .stall }) ∧
      (tokenPasses s k addr ep →
        ∀ w0, w0 = readWord s (bdAddr (bdtBase s) ep (dirOf k) (ppbi s ep (dirOf k))) →
          (∀ er, fetchCommand w0 = .error er → exec i s = .refused (.decode er)) ∧
          (fetchCommand w0 = .ok .idle → exec i s = .next { s with resp := nakOr, txn := none }) ∧
          (∀ c d n, fetchCommand w0 = .ok (.stall c d n) → k ≠ .setup →
            exec i s = .next { s with
              stallif := true
              ep := s.ep.set ep { ephshk := e.ephshk, epstall := true, eptxen := e.eptxen, eprxen := e.eprxen,
                                  epcondis := e.epcondis }
              resp := .stall
              txn := none }) ∧
          (∀ c d n, (fetchCommand w0 = .ok (.data c d n) ∨ (fetchCommand w0 = .ok (.stall c d n) ∧ k = .setup)) →
            exec i s = exec (.bdData c d n) { s with txn := some {
              kind := k, ep := ep, ctl := e, base := bdtBase s,
              toggle := if k = .inn then false else tg,
              payload := if k = .inn then [] else p,
              ack := if k = .inn then ack else false,
              phase := .command (ppbi s ep (dirOf k)) w0 } }))

/-- 42_bus_transactions.md R205: an OUT packet that passes the checks, meets a data command, passes the toggle check and fits
is stored, and the descriptor at the pointer is retired; a packet under another toggle with DTS changes nothing; one that
does not fit is refused. -/
def Obligations.BusOutTransaction : Prop :=
  ∀ (s : State) (addr : BitVec 7) (ep : Fin 16) (tg : Bool) (p : List Byte) (odd : Bool) (a : Word) (c d : Bool) (n : Half),
    tokenPasses s .out addr ep → s.fine = false → odd = ppbi s ep .rx →
    fetchCommand (readWord s (bdAddr (bdtBase s) ep .rx odd)) = .ok (.data c d n) →
    a = readWord s (bdAddr (bdtBase s) ep .rx odd + 4) →
      (d = true → tg ≠ c → exec (.busOut addr ep tg p) s = .next { s with
        resp := if s.ep[ep].ephshk then (if s.cfg.mismatch = .ack then .ack else .nak) else .none
        txn := none }) ∧
      ((d = false ∨ tg = c) → n.toNat < p.length → exec (.busOut addr ep tg p) s = .refused .overrun) ∧
      ((d = false ∨ tg = c) → p.length ≤ n.toNat → ¬bufferFits s.cfg a n.toNat →
        exec (.busOut addr ep tg p) s = .refused .badBuffer) ∧
      ((d = false ∨ tg = c) → p.length ≤ n.toNat → bufferFits s.cfg a n.toNat →
        ∃ u, exec (.busOut addr ep tg p) s = .next u ∧
          Completed s u (bdtBase s) ep .rx odd (BitVec.ofNat 16 p.length) tg .out a.toNat p ∧
          u.resp = (if s.ep[ep].ephshk then .ack else .none) ∧ u.txn = none)

/-- 42_bus_transactions.md R208, R209: a SETUP that passes its checks is received by any descriptor the engine owns, data or
stall command, whatever the toggle and whatever EPSTALL; it is retired, EPSTALL stays, and PKTDIS is set. -/
def Obligations.BusSetupTransaction : Prop :=
  ∀ (s : State) (addr : BitVec 7) (ep : Fin 16) (tg : Bool) (p : List Byte) (odd : Bool) (a : Word) (c d : Bool) (n : Half),
    tokenPasses s .setup addr ep → s.fine = false → odd = ppbi s ep .rx →
    (fetchCommand (readWord s (bdAddr (bdtBase s) ep .rx odd)) = .ok (.data c d n) ∨
      fetchCommand (readWord s (bdAddr (bdtBase s) ep .rx odd)) = .ok (.stall c d n)) →
    a = readWord s (bdAddr (bdtBase s) ep .rx odd + 4) →
      (n.toNat < p.length → exec (.busSetup addr ep tg p) s = .refused .overrun) ∧
      (p.length ≤ n.toNat → ¬bufferFits s.cfg a n.toNat → exec (.busSetup addr ep tg p) s = .refused .badBuffer) ∧
      (p.length ≤ n.toNat → bufferFits s.cfg a n.toNat →
        ∃ u, exec (.busSetup addr ep tg p) s = .next u ∧
          Completed s u (bdtBase s) ep .rx odd (BitVec.ofNat 16 p.length) tg .setup a.toNat p ∧
          u.resp = (if s.ep[ep].ephshk then .ack else .none) ∧ u.txn = none ∧ u.pktdis = true ∧ u.ep = s.ep)

/-- 42_bus_transactions.md R210, R211, R212: an IN that passes the checks and meets a data command is answered with the bytes
of the buffer under the command's toggle; it is retired unless the endpoint uses handshakes and the host gave no ACK. -/
def Obligations.BusInTransaction : Prop :=
  ∀ (s : State) (addr : BitVec 7) (ep : Fin 16) (ack : Bool) (odd : Bool) (a : Word) (c d : Bool) (n : Half),
    tokenPasses s .inn addr ep → s.fine = false → odd = ppbi s ep .tx →
    fetchCommand (readWord s (bdAddr (bdtBase s) ep .tx odd)) = .ok (.data c d n) →
    a = readWord s (bdAddr (bdtBase s) ep .tx odd + 4) →
      (¬bufferFits s.cfg a n.toNat → exec (.busIn addr ep ack) s = .refused .badBuffer) ∧
      (bufferFits s.cfg a n.toNat → s.ep[ep].ephshk = true → ack = false →
        exec (.busIn addr ep ack) s = .next { s with resp := .data c (bytesOf s a.toNat n.toNat), txn := none }) ∧
      (bufferFits s.cfg a n.toNat → (s.ep[ep].ephshk = false ∨ ack = true) →
        ∃ u, exec (.busIn addr ep ack) s = .next u ∧
          Completed s u (bdtBase s) ep .tx odd n c .inn 0 [] ∧
          u.resp = .data c (bytesOf s a.toNat n.toNat) ∧ u.txn = none)

/-- 10_state.md R49: while `active` is false every bus event leaves all state unchanged and gets the response none. -/
def Obligations.InactiveIgnoresTheBus : Prop :=
  ∀ s : State, ¬(s.usbpwr = true ∧ s.usben = true) →
    (∀ k addr ep tg p ack, exec (tokenInstr k addr ep tg p ack) s = .next { s with resp := .none }) ∧
    exec .busSof s = .next { s with resp := .none } ∧
    exec .busReset s = .next { s with resp := .none } ∧
    (∀ m, exec (.busErr m) s = .next { s with resp := .none })

/-- 42_bus_transactions.md R217, R218, R219: a start of frame changes nothing; a bus reset sets URSTIF if the engine is active; a
bus error ors its mask into EIR if the engine is active; nothing else changes. The field `resp`, which holds the answer the bus
saw, and its value `none` after these, is the model's (log 12). -/
def Obligations.OtherBusEvents : Prop :=
  ∀ (s : State) (m : Byte),
    exec .busSof s = .next { s with resp := .none } ∧
    ((s.usbpwr = true ∧ s.usben = true) → exec .busReset s = .next { s with urstif := true, resp := .none } ∧
      exec (.busErr m) s = .next { s with eir := s.eir ||| m, resp := .none }) ∧
    (¬(s.usbpwr = true ∧ s.usben = true) → exec .busReset s = .next { s with resp := .none } ∧
      exec (.busErr m) s = .next { s with resp := .none })

/-- 40_register_ops.md R119, R145: with the accesses as steps of their own, a token that passes the checks begins a transaction
with EP[ep] and the table base as they are now, and changes nothing else; what software writes to them later is not seen by
it. The split is the model's (log 1). -/
def Obligations.TokenSamplesRegisters : Prop :=
  ∀ (s : State) (k : Kind) (addr : BitVec 7) (ep : Fin 16) (tg : Bool) (p : List Byte) (ack : Bool),
    tokenPasses s k addr ep → s.fine = true →
      exec (tokenInstr k addr ep tg p ack) s = .next { s with txn := some {
        kind := k, ep := ep, ctl := s.ep[ep], base := bdtBase s,
        toggle := if k = .inn then false else tg,
        payload := if k = .inn then [] else p,
        ack := if k = .inn then ack else false,
        phase := .fetch } }

/-! ## The machine as a whole -/

/-- 10_state.md R52, 70_reset_and_hazards.md R322: after a system reset the registers read 0, the queue is empty, the pointers
are even, the engine is inactive, the interrupt is off, and no byte of memory has a value the spec names. -/
def Obligations.ResetState : Prop :=
  (∀ r : Reg, r ≠ .con → r ≠ .ir → r ≠ .stat →
    exec (readInstr r) State.reset = .next { State.reset with rdata := 0#32 }) ∧
  State.reset.usben = false ∧ State.reset.pktdis = false ∧ State.reset.urstif = false ∧ State.reset.stallif = false ∧
  State.reset.fifo = [] ∧ trnif State.reset = false ∧ irq State.reset = false ∧ active State.reset = false ∧
  bdtBase State.reset = 0#32 ∧ (∀ ep dir, ppbi State.reset ep dir = false) ∧
  (∀ a, readByte State.reset a = Config.powerOnByte a)

/-- The state after reset meets the invariant. -/
def Obligations.ResetMeetsInvariant : Prop :=
  Inv State.reset

/-- Every step keeps the invariant, from every state that meets it: memory keeps its canonical form inside the 32-bit space,
OTGCON stays 0 (40_register_ops.md R128), the queue never passes its depth (10_state.md R46, 43_completion.md R231), and the
transaction in progress stays consistent with what its checks let through. -/
def Obligations.StepKeepsInvariant : Prop :=
  ∀ s u : State, Inv s → step s = .next u → Inv u

/-- 10_state.md R27: a pointer changes in one way only. Where a step changes one, that step queued the retired descriptor, the
one the pointer selected; and a step that queues an entry moves that descriptor's pointer, and no other. -/
def Obligations.PointerMovesOnlyAtRetirement : Prop :=
  ∀ s u : State, step s = .next u →
    (∀ ep dir, ppbi u ep dir ≠ ppbi s ep dir →
      u.fifo = s.fifo ++ [{ ep := ep, dir := dir, odd := ppbi s ep dir }]) ∧
    (Inv s → ∀ e, u.fifo = s.fifo ++ [e] →
      e.odd = ppbi s e.ep e.dir ∧ ppbi u e.ep e.dir = !ppbi s e.ep e.dir ∧
        ∀ ep dir, ¬(ep = e.ep ∧ dir = e.dir) → ppbi u ep dir = ppbi s ep dir)

/-- 43_completion.md R236: PKTDIS becomes 1 only in the completion step of a SETUP: the step queued a descriptor of an RX
direction, and that descriptor's word 0 now holds the packet identifier of a SETUP. -/
def Obligations.OnlyASetupSetsPktdis : Prop :=
  ∀ s u : State, step s = .next u → s.pktdis = false → u.pktdis = true →
    ∃ e, u.fifo = s.fifo ++ [e] ∧ e.dir = .rx ∧
      (readHalf u (bdAddr ((s.txn.map Txn.base).getD (bdtBase s)) e.ep .rx e.odd)).toNat / 4 % 16 = 13

/-- 43_completion.md R237, 42_bus_transactions.md R195: while PKTDIS is 1 and no transaction is in progress, no step begins
one, retires a descriptor or moves a pointer. A token is answered by R193 steps 1 to 3, or with the hold-off answer of R195, both
given by registers and parameters alone, and changes nothing else, so no memory is read for it; another bus event at most sets
URSTIF or EIR bits. -/
def Obligations.PktdisKeepsTheEngineIdle : Prop :=
  ∀ s u : State, step s = .next u → s.pktdis = true → s.txn = none →
    u.txn = none ∧ (∀ ep dir, ppbi u ep dir = ppbi s ep dir) ∧ u.fifo.length ≤ s.fifo.length ∧
    (∀ f rest i, s.inputs = .op f :: rest → (f.fmt = .tok ∨ f.fmt = .cond) → decode s.cfg.regs f = .ok i →
      (∀ k addr ep tg p ack, i = tokenInstr k addr ep tg p ack → u = { s with
        inputs := rest
        resp :=
          if ¬(s.usbpwr = true ∧ s.usben = true) ∨ addr ≠ s.devaddr ∨ enabled s.ep[ep] k = false then .none
          else match holdOffOf s.cfg k with
            | .always r => r
            | .nakOrNone => if k ≠ .setup ∧ s.ep[ep].ephshk = true then .nak else .none }) ∧
      ((i = .busSof ∨ i = .busReset ∨ ∃ m, i = .busErr m) →
        u = { s with inputs := rest, urstif := u.urstif, eir := u.eir, resp := .none }))

/-- 42_bus_transactions.md R221, 20_memory.md R77: what a whole transaction never does. It changes no register but EPSTALL (set
at the token's endpoint), STALLIF and PKTDIS (set), writes no byte outside word 0 of the descriptor at the pointer and, for
OUT and SETUP, that descriptor's buffer, never sets UOWN there, and clears no flag. -/
def Obligations.TransactionFrame : Prop :=
  ∀ (s u : State) (k : Kind) (addr : BitVec 7) (ep : Fin 16) (tg : Bool) (p : List Byte) (ack : Bool) (bd : Nat) (a : Word),
    s.fine = false → bd = bdAddr (bdtBase s) ep (dirOf k) (ppbi s ep (dirOf k)) → a = readWord s (bd + 4) →
    exec (tokenInstr k addr ep tg p ack) s = .next u →
      u = { s with
        mem := u.mem, ep := u.ep, ppbiRx := u.ppbiRx, ppbiTx := u.ppbiTx, fifo := u.fifo, stallif := u.stallif,
        pktdis := u.pktdis, resp := u.resp, txn := u.txn } ∧
      (s.stallif = true → u.stallif = true) ∧ (s.pktdis = true → u.pktdis = true) ∧
      (u.ep = s.ep ∨ u.ep = s.ep.set ep { ephshk := s.ep[ep].ephshk, epstall := true, eptxen := s.ep[ep].eptxen,
                                          eprxen := s.ep[ep].eprxen, epcondis := s.ep[ep].epcondis }) ∧
      (∀ b, ¬(bd ≤ b ∧ b < bd + 4) →
        (k = .inn ∨ ¬(a.toNat ≤ b ∧ b < a.toNat + (readWord s bd).toNat / 65536)) → readByte u b = readByte s b) ∧
      ((readByte u bd).getLsbD 7 = true → (readByte s bd).getLsbD 7 = true)

/-- 20_memory.md R78: the engine's accesses of one transaction, taken as steps of their own with no software step between them,
lead to the same outcome as the transaction taken as one step, refusals included. -/
def Obligations.FineTransactionEqualsAtomic : Prop :=
  ∀ (s : State) (k : Kind) (addr : BitVec 7) (ep : Fin 16) (tg : Bool) (p : List Byte) (ack : Bool) (turns : Nat),
    s.txn = none → s.fine = false → 1027 ≤ turns →
      andThen (exec (tokenInstr k addr ep tg p ack) { s with fine := true }) (engineRun turns) =
        andThen (exec (tokenInstr k addr ep tg p ack) s) (fun u => .next { u with fine := true })

/-! ## The driver -/

/-- 45_software_agent.md R256 (vector V-SW1, property S4): a request longer than the packet size fails with BufferOverflow and
changes nothing but the result. -/
def Obligations.ArmGenericOverflow : Prop :=
  ∀ (s : State) (ep : Fin 16) (dir : Dir) (len : Nat) (stall : Bool) (e : Ecb),
    ecbOf s.drv ep dir = some e → e.epSize < len →
      runCall (.armGeneric ep dir len stall) s =
        .next { s with drv := { s.drv with result := .err .bufferOverflow } }

/-- 45_software_agent.md R256: what a request that passes the three checks writes to the descriptor of its own pair (R251): the
buffer's address, the length, and the flag word with UOWN, DTS and DATA01 (not for isochronous), BSTALL; and what it
advances. -/
def Obligations.ArmGenericArms : Prop :=
  ∀ (s : State) (ep : Fin 16) (dir : Dir) (len : Nat) (stall : Bool) (e : Ecb) (bd : Nat) (iso : Bool),
    ecbOf s.drv ep dir = some e → len ≤ e.epSize → len < 65536 → e.armedCtr + e.completeCtr < 2 →
    ¬(e.stalled = true ∧ stall = true) → bd = e.pair.toNat + 8 * natOfBool e.nextOdd → bd + 8 ≤ 2 ^ 32 →
    iso = decide (e.epType = .isochronous) →
      ∃ u, runCall (.armGeneric ep dir len stall) s = .next u ∧ u = { s with mem := u.mem, drv := u.drv } ∧
        u.drv.result = .ok ∧
        readWord u (bd + 4) = (if e.nextOdd then e.buf1 else e.buf0) ∧
        (readHalf u (bd + 2)).toNat = len ∧
        (readHalf u bd).toNat = 128 + 64 * natOfBool (!iso && e.data01) + 8 * natOfBool (!iso) + 4 * natOfBool stall ∧
        (∀ b, (b < bd ∨ bd + 8 ≤ b) → readByte u b = readByte s b) ∧
        ecbOf u.drv ep dir = some (if stall then { e with stalled := true }
          else { e with
            stalled := false
            nextOdd := !e.nextOdd
            armedCtr := e.armedCtr + 1
            data01 := if iso then e.data01 else !e.data01 })

/-- 45_software_agent.md R259, R260: `cancel` gives both descriptors of the pair to software, moves the parity by the armed count
and zeroes the counters; `clear_completed` moves the completion parity and touches no memory. -/
def Obligations.CancelAndClear : Prop :=
  ∀ (s : State) (ep : Fin 16) (dir : Dir) (e : Ecb), ecbOf s.drv ep dir = some e →
    (e.pair.toNat + 16 ≤ 2 ^ 32 → ∃ u, runCall (.cancel ep dir) s = .next u ∧ u = { s with mem := u.mem, drv := u.drv } ∧
      (∀ odd, readHalf u (e.pair.toNat + 8 * natOfBool odd) = 0#16) ∧
      (∀ b, (∀ odd, b < e.pair.toNat + 8 * natOfBool odd ∨ e.pair.toNat + 8 * natOfBool odd + 2 ≤ b) →
        readByte u b = readByte s b) ∧
      ecbOf u.drv ep dir = some { e with
        nextOdd := xor e.nextOdd (decide (e.armedCtr % 2 = 1))
        nextCompleteOdd := xor e.nextOdd (decide (e.armedCtr % 2 = 1))
        armedCtr := 0
        completeCtr := 0 }) ∧
    (∃ u, runCall (.clearCompleted ep dir) s = .next u ∧ u = { s with drv := u.drv } ∧
      ecbOf u.drv ep dir = some { e with
        nextCompleteOdd := xor e.nextCompleteOdd (decide (e.completeCtr % 2 = 1))
        completeCtr := 0 })

/-- 45_software_agent.md R251 (property S1): every call keeps `armed_ctr + complete_ctr <= 2` in every control block, run as one
step or access by access with anything in between. The counters are integers, `armed_ctr` may be below 0 (log 18). -/
def Obligations.DriverCountersBounded : Prop :=
  (∀ (s u : State) (c : Call), driverBounded s.drv → runCall c s = .next u → driverBounded u.drv) ∧
  (∀ (s u : State) (c : CallInProgress), driverBounded s.drv → callTurn c s = .next u → driverBounded u.drv)

/-- 45_software_agent.md R251, 41_descriptor_ops.md R171: every call but `poll` keeps the counters in 0..2; and `poll`, run as
one step, does where each block's `armed_ctr` covers the queued completions of its endpoint direction and each of these has a
packet identifier of its direction. That `poll` is one step is the model's (log 17). -/
def Obligations.DriverCountersStayInRange : Prop :=
  (∀ (s u : State) (c : Call), c ≠ .poll → driverInRange s.drv → runCall c s = .next u → driverInRange u.drv) ∧
  (∀ s : State, driverPlaced s.drv → driverInRange s.drv → pidsFit s →
    (∀ ep dir e, ecbOf s.drv ep dir = some e → (queuedFor s ep dir : Int) ≤ e.armedCtr) →
      ∃ u, runCall .poll s = .next u ∧ driverInRange u.drv)

/-- 45_software_agent.md R251, R262: every control block refers to its own pair in the driver's table, and every call keeps
that; `new` sets the table to the one it is given, when it returns; no other call, and no step that is not one of a `new`,
changes it, whatever is written to the base registers meanwhile. The driver's state at reset and that it changes at the return
of a call are the model's (log 17). -/
def Obligations.DriverKeepsItsDescriptors : Prop :=
  driverPlaced State.reset.drv ∧
  (∀ (s u : State) (c : Call), (∀ table, c = .new table → table.toNat % 512 = 0) → driverPlaced s.drv →
    runCall c s = .next u → driverPlaced u.drv) ∧
  (∀ (s u : State) (c : CallInProgress), (∀ table, c.call = .new table → table.toNat % 512 = 0) → driverPlaced s.drv →
    callTurn c s = .next u → driverPlaced u.drv) ∧
  (∀ (s u : State) (c : Call), runCall c s = .next u →
    (∀ table, c = .new table → u.drv.table = table) ∧ ((∀ table, c ≠ .new table) → u.drv.table = s.drv.table)) ∧
  (∀ (s u : State) (c : CallInProgress), callTurn c s = .next u →
    (∀ table, c.call = .new table → u.drv.table = if u.call = none then table else s.drv.table) ∧
    ((∀ table, c.call ≠ .new table) → u.drv.table = s.drv.table)) ∧
  (∀ s u : State, step s = .next u → u.drv.table = s.drv.table ∨
    (∃ c, s.call = some c ∧ c.call = .new u.drv.table) ∨ ∃ rest, s.inputs = .call (.new u.drv.table) :: rest)

/-- 20_memory.md R78, 45_software_agent.md R250: the accesses of a driver call, taken as steps of their own with no step of the
engine or the bus between them, lead to the same outcome as the call taken as one step, refusals included. That the model
has both forms is its choice (log 17). -/
def Obligations.FineCallEqualsWhole : Prop :=
  ∀ (s : State) (c : Call), ∃ k, ∀ turns, k ≤ turns →
    callRun turns { s with call := some { call := c, answers := [] } } =
      andThen (runCall c s) (fun u => .next { u with call := none })

/-- 43_completion.md R238: `poll` tests TRNIF anew before each pass. Where a poll in progress stands at that test, its next access
reads IR, and the one after it, whatever the engine does in between, reads STAT if an entry was queued at the test, so an entry
that arrived during an earlier pass is handled by a later one; else it reads IR, the end of the poll. How a call in progress
is kept is the model's (log 17). -/
def Obligations.PollLoopTestsTheQueue : Prop :=
  ∀ (s : State) (answers : List Word) (k : Nat) (prIn : Half) (d : Driver),
    afterAnswers (poll (answers.length + 1) s.drv) answers = pollLoop (k + 1) prIn d →
      ∃ u, callTurn { call := .poll, answers := answers } s = .next u ∧ u.fifo = s.fifo ∧
        u.call = some { call := .poll, answers := answers ++ [u.rdata] } ∧
        ∀ t : State, t.drv = s.drv →
          ∃ w, exec (if s.fifo = [] then .rdIr else .rdStat) t = .next w ∧
            callTurn { call := .poll, answers := answers ++ [u.rdata] } t =
              .next { w with call := some { call := .poll, answers := answers ++ [u.rdata] ++ [w.rdata] } }

/-- 70_reset_and_hazards.md R323 with 45_software_agent.md R262, R264: `new` and then `enable` leave the engine active on the
given 512-aligned table, every endpoint off, the three interrupts unmasked, PKTDIS 0; memory, the pointers and the queue are
as they were (R321). The driver has that table and no control block (log 17). -/
def Obligations.BringUp : Prop :=
  ∀ (s : State) (table : Word), table.toNat % 512 = 0 →
    ∃ u, andThen (runCall (.new table) s) (runCall .enable) = .next u ∧
      active u = true ∧ bdtBase u = table ∧ (∀ n : Fin 16, u.ep[n] = EpCtl.zero) ∧ u.ie = 0x89#8 ∧ u.pktdis = false ∧
      u.otgcon = 0#8 ∧ u.mem = s.mem ∧ u.fifo = s.fifo ∧ (∀ ep dir, ppbi u ep dir = ppbi s ep dir) ∧
      u.drv.table = table ∧ (∀ ep dir, ecbOf u.drv ep dir = none)

/-- 45_software_agent.md R270, 60_exceptions.md R303: `poll` run as one step drains the error flags and the whole queue, then
handles a bus reset, which ends the call, or else the stall flag; it moves no pointer. It returns, with the queue and EIR empty,
because no completion arrives within one step: the model's choice (log 17); access by access (FineCallEqualsWhole says what
that gives alone) new entries can arrive. An entry whose packet identifier is none of the three is popped and not
handled (log 18). -/
def Obligations.PollDrainsEverything : Prop :=
  ∀ s : State, driverPlaced s.drv → ∃ u, runCall .poll s = .next u ∧
    u.eir = 0#8 ∧ u.fifo = [] ∧ (∀ ep dir, ppbi u ep dir = ppbi s ep dir) ∧ u.txn = s.txn ∧ u.usben = s.usben ∧
    (s.urstif = true → u.drv.result = .busReset ∧ u.devaddr = 0#7 ∧ u.urstif = false ∧ u.stallif = s.stallif) ∧
    (s.urstif = false → u.devaddr = s.devaddr ∧ u.urstif = false ∧ u.stallif = false ∧
      (s.stallif = true → u.ep[(0 : Fin 16)].epstall = false))

/-- 45_software_agent.md R270 (property S6): one queued SETUP completion, handled by `poll` run as one step (log 17): the IN
side's armed packets are cancelled and its counters are 0, both sides expect DATA1, the SETUP is reported, and PKTDIS is
cleared. -/
def Obligations.PollHandlesSetup : Prop :=
  ∀ (s : State) (ep : Fin 16) (odd : Bool) (rx tx : Ecb), driverPlaced s.drv →
    s.fifo = [{ ep := ep, dir := .rx, odd := odd }] → s.urstif = false →
    (readHalf s (bdAddr s.drv.table ep .rx odd)).toNat / 4 % 16 = 13 →
    ecbOf s.drv ep .rx = some rx → ecbOf s.drv ep .tx = some tx →
      ∃ u rx' tx', runCall .poll s = .next u ∧ u.pktdis = false ∧
        ecbOf u.drv ep .rx = some rx' ∧ ecbOf u.drv ep .tx = some tx' ∧
        tx'.armedCtr = 0 ∧ tx'.completeCtr = 0 ∧ tx'.data01 = true ∧ rx'.data01 = true ∧
        rx'.completeCtr = 1 ∧ rx'.armedCtr = rx.armedCtr - 1 ∧
        (∀ o, readHalf u (bdAddr s.drv.table ep .tx o) = 0#16) ∧
        u.drv.result = .data s.drv.prOut 0#16 (s.drv.prSu ||| 1#16 <<< ep.val) ∧
        (s.drv.prSu ||| 1#16 <<< ep.val).getLsbD ep.val = true

/-- 45_software_agent.md R257 with 42_bus_transactions.md R210 (property S5): bytes that `write` took are the bytes the next
acknowledged IN sends, under the control block's toggle, and the descriptor is retired. The block's pair is the one in the
engine's table and its next parity the engine's pointer (R171), its buffer lies in the space and not on the descriptor. -/
def Obligations.WrittenBytesAreSent : Prop :=
  ∀ (s : State) (addr : BitVec 7) (ep : Fin 16) (e : Ecb) (buf : List Byte) (a : Word) (bd : Nat),
    tokenPasses s .inn addr ep → s.fine = false → ecbOf s.drv ep .tx = some e → e.nextOdd = ppbi s ep .tx →
    e.pair.toNat = bdAddr (bdtBase s) ep .tx false →
    buf.length ≤ e.epSize → buf.length ≤ 1023 → e.armedCtr + e.completeCtr < 2 → e.stalled = false →
    a = (if e.nextOdd then e.buf1 else e.buf0) → bufferFits s.cfg a buf.length → a.toNat + buf.length ≤ 2 ^ 32 →
    bd = bdAddr (bdtBase s) ep .tx e.nextOdd → (a.toNat + buf.length ≤ bd ∨ bd + 8 ≤ a.toNat) →
    ownedByEngine s ep .tx e.nextOdd = false →
      ∃ u v, runCall (.write { dir := .tx, num := ep.val } buf) s = .next u ∧ u.drv.result = .length buf.length ∧
        exec (.busIn addr ep true) u = .next v ∧
        v.resp = .data (decide (e.epType ≠ .isochronous) && e.data01) buf ∧
        v.fifo = s.fifo ++ [{ ep := ep, dir := .tx, odd := e.nextOdd }] ∧ ownedByEngine v ep .tx e.nextOdd = false
end

