-- ==== Sys2Proof/Laws/Decode.lean ====
section
/-! SUPPORT. Fields of encoded words read back: each field of an encoding, extracted, is the field that was put in. -/

namespace Sys2Proof

/-! ## Bits -/

/-- The low part of a concatenation. -/
theorem extract_append_low {m n : Nat} (x : BitVec m) (y : BitVec n) : (x ++ y).extractLsb' 0 n = y := by
  apply BitVec.eq_of_getLsbD_eq
  intro i hi
  simp [BitVec.getLsbD_append, hi]

/-- The part of a concatenation above its low `n` bits. -/
theorem extract_append_high {m n k w : Nat} (x : BitVec m) (y : BitVec n) :
    (x ++ y).extractLsb' (n + k) w = x.extractLsb' k w := by
  apply BitVec.eq_of_getLsbD_eq
  intro i hi
  simp only [BitVec.getLsbD_extractLsb', BitVec.getLsbD_append, hi, decide_true, Bool.true_and]
  rw [if_neg (by omega)]
  congr 1
  omega

/-- A field that lies whole in the low part of a concatenation. -/
theorem extract_append_inside {m n k w : Nat} (x : BitVec m) (y : BitVec n) (h : k + w ≤ n) :
    (x ++ y).extractLsb' k w = y.extractLsb' k w := by
  apply BitVec.eq_of_getLsbD_eq
  intro i hi
  simp only [BitVec.getLsbD_extractLsb', BitVec.getLsbD_append, hi, decide_true, Bool.true_and]
  rw [if_pos (by omega)]

theorem extract_all {n : Nat} (x : BitVec n) : x.extractLsb' 0 n = x := by
  apply BitVec.eq_of_getLsbD_eq
  intro i hi
  simp [hi]

/-- A field that is zero has every bit zero. -/
theorem getLsbD_of_extract_zero {n k w : Nat} {x : BitVec n} (h : x.extractLsb' k w = 0#w) {i : Nat} (h1 : k ≤ i)
    (h2 : i < k + w) : x.getLsbD i = false := by
  have hb := congrArg (fun v => v.getLsbD (i - k)) h
  simp only [BitVec.getLsbD_extractLsb', BitVec.getLsbD_zero, Bool.and_eq_false_imp, decide_eq_true_eq] at hb
  rw [← hb (by omega)]
  congr 1
  omega

/-! ## Bytes -/

theorem half_of_bytes (v : Half) : half (byteAt 16 v 0) (byteAt 16 v 1) = v := by
  apply BitVec.eq_of_getLsbD_eq
  intro i hi
  simp only [half, byteAt, BitVec.getLsbD_append, BitVec.getLsbD_extractLsb']
  split
  · simp_all
  · simp [show i - 8 < 8 by omega, show 8 + (i - 8) = i by omega]

theorem word_of_bytes (v : Word) : word (byteAt 32 v 0) (byteAt 32 v 1) (byteAt 32 v 2) (byteAt 32 v 3) = v := by
  apply BitVec.eq_of_getLsbD_eq
  intro i hi
  simp only [word, byteAt, BitVec.getLsbD_append, BitVec.getLsbD_extractLsb']
  repeat' split
  · simp_all
  · simp_all [show 8 + (i - 8) = i by omega]
  · simp_all [show 16 + (i - 8 - 8) = i by omega]
  · simp [show i - 8 - 8 - 8 < 8 by omega, show 24 + (i - 8 - 8 - 8) = i by omega]

/-- The bytes of a half word are its own. -/
theorem bytes_of_half (b0 b1 : Byte) : halfBytes (half b0 b1) = [b0, b1] := by
  simp only [halfBytes, byteAt, half, List.cons.injEq, and_true]
  exact ⟨extract_append_low _ _, (extract_append_high (k := 0) _ _).trans (extract_all _)⟩

/-- The bytes of a word are its own. -/
theorem bytes_of_word (b0 b1 b2 b3 : Byte) : wordBytes (word b0 b1 b2 b3) = [b0, b1, b2, b3] := by
  simp only [wordBytes, byteAt, word, List.cons.injEq, and_true]
  refine ⟨extract_append_low _ _, ?_, ?_, ?_⟩
  · exact (extract_append_high (k := 0) _ _).trans (extract_append_low _ _)
  · exact (extract_append_high (k := 8) _ _).trans ((extract_append_high (k := 0) _ _).trans (extract_append_low _ _))
  · exact (extract_append_high (k := 16) _ _).trans ((extract_append_high (k := 8) _ _).trans
      ((extract_append_high (k := 0) _ _).trans (extract_all _)))

/-! ## Words of a descriptor -/

theorem flagsOf_word0 (n f : Half) : flagsOf (word0 n f) = f :=
  extract_append_low n f

theorem countOf_word0 (n f : Half) : countOf (word0 n f) = n :=
  (extract_append_high (k := 0) n f).trans (extract_all n)

/-- A descriptor's word 0 is its count above its flags. -/
theorem word0_of_fields (w : Word) : word0 (countOf w) (flagsOf w) = w := by
  apply BitVec.eq_of_getLsbD_eq
  intro i hi
  simp only [word0, countOf, flagsOf, BitVec.getLsbD_append, BitVec.getLsbD_extractLsb']
  split
  · simp_all
  · simp [show i - 16 < 16 by omega, show 16 + (i - 16) = i by omega]

/-- FETCH finds no command exactly when UOWN is 0 (30_encoding.md R101). -/
theorem fetchCommand_idle_iff (w : Word) : fetchCommand w = .ok .idle ↔ bitAt 16 (flagsOf w) 7 = false := by
  unfold fetchCommand
  dsimp only
  constructor
  · intro h
    repeat' split at h
    all_goals simp_all
  · intro h
    rw [if_pos h]

/-- A flag word whose reserved bits are zero is the data command of its two operands. -/
theorem dataFlags_of_bits {f : Half} (h7 : bitAt 16 f 7 = true) (hh : f.extractLsb' 8 8 = 0#8)
    (hl : f.extractLsb' 0 2 = 0#2) (h5 : bitAt 16 f 5 = false) (h4 : bitAt 16 f 4 = false) (h2 : bitAt 16 f 2 = false) :
    f = dataFlags (bitAt 16 f 6) (bitAt 16 f 3) := by
  apply BitVec.eq_of_getLsbD_eq
  intro i hi
  have hhi : ∀ j, 8 ≤ j → j < 16 → f.getLsbD j = false := fun j h1 h2 => getLsbD_of_extract_zero hh h1 (by omega)
  have hlo : ∀ j, j < 2 → f.getLsbD j = false := fun j h1 => getLsbD_of_extract_zero hl (by omega) (by omega)
  simp only [bitAt] at *
  interval_cases i <;> (simp only [dataFlags, bit, BitVec.getLsbD_append]; simp [-BitVec.getLsbD_eq_getElem, *])

/-- A flag word whose reserved bits are zero and whose BSTALL is 1 is the stall command of its two operands. -/
theorem stallFlags_of_bits {f : Half} (h7 : bitAt 16 f 7 = true) (hh : f.extractLsb' 8 8 = 0#8)
    (hl : f.extractLsb' 0 2 = 0#2) (h5 : bitAt 16 f 5 = false) (h4 : bitAt 16 f 4 = false) (h2 : bitAt 16 f 2 = true) :
    f = stallFlags (bitAt 16 f 6) (bitAt 16 f 3) := by
  apply BitVec.eq_of_getLsbD_eq
  intro i hi
  have hhi : ∀ j, 8 ≤ j → j < 16 → f.getLsbD j = false := fun j h1 h2 => getLsbD_of_extract_zero hh h1 (by omega)
  have hlo : ∀ j, j < 2 → f.getLsbD j = false := fun j h1 => getLsbD_of_extract_zero hl (by omega) (by omega)
  simp only [bitAt] at *
  interval_cases i <;> (simp only [stallFlags, bit, BitVec.getLsbD_append]; simp [-BitVec.getLsbD_eq_getElem, *])

/-- The data command that FETCH reads from a word, and the word it reads it from. -/
theorem fetchCommand_data {w : Word} {t s : Bool} {n : Half} (h : fetchCommand w = .ok (.data t s n)) :
    w = word0 n (dataFlags t s) ∧ n = countOf w ∧ n.toNat ≤ maxCount ∧ bitAt 16 (flagsOf w) 7 = true := by
  unfold fetchCommand at h
  dsimp only at h
  split at h
  · simp at h
  · rename_i h7
    split at h
    · simp at h
    · rename_i hr
      split at h
      · simp at h
      · rename_i hk
        split at h
        · simp at h
        · rename_i hc
          split at h
          · simp at h
          · rename_i h2
            simp only [Except.ok.injEq, Command.data.injEq] at h
            simp only [not_or, Bool.not_eq_true, ne_eq, not_not, Bool.not_eq_false] at h7 hr hk h2
            obtain ⟨rfl, rfl, rfl⟩ := h
            refine ⟨?_, rfl, by omega, h7⟩
            rw [← dataFlags_of_bits h7 hr.1 hr.2 hk.1 hk.2 h2, word0_of_fields]

/-- The stall command that FETCH reads from a word, and the word it reads it from. -/
theorem fetchCommand_stall {w : Word} {t s : Bool} {n : Half} (h : fetchCommand w = .ok (.stall t s n)) :
    w = word0 n (stallFlags t s) ∧ n = countOf w ∧ n.toNat ≤ maxCount ∧ bitAt 16 (flagsOf w) 7 = true := by
  unfold fetchCommand at h
  dsimp only at h
  split at h
  · simp at h
  · rename_i h7
    split at h
    · simp at h
    · rename_i hr
      split at h
      · simp at h
      · rename_i hk
        split at h
        · simp at h
        · rename_i hc
          split at h
          · rename_i h2
            simp only [Except.ok.injEq, Command.stall.injEq] at h
            simp only [not_or, Bool.not_eq_true, ne_eq, not_not, Bool.not_eq_false] at h7 hr hk
            obtain ⟨rfl, rfl, rfl⟩ := h
            refine ⟨?_, rfl, by omega, h7⟩
            rw [← stallFlags_of_bits h7 hr.1 hr.2 hk.1 hk.2 h2, word0_of_fields]
          · simp at h

/-- FETCH reads a written data command back, at every operand (41_descriptor_ops.md R160). -/
theorem fetchCommand_dataFlags (t s : Bool) {n : Half} (hn : n.toNat ≤ maxCount) :
    fetchCommand (word0 n (dataFlags t s)) = .ok (.data t s n) := by
  have hn' : ¬ maxCount < n.toNat := by omega
  unfold fetchCommand
  simp only [flagsOf_word0, countOf_word0, if_neg hn']
  cases t <;> cases s <;> rfl

/-- FETCH reads a written stall command back, at every operand (41_descriptor_ops.md R163). -/
theorem fetchCommand_stallFlags (t s : Bool) {n : Half} (hn : n.toNat ≤ maxCount) :
    fetchCommand (word0 n (stallFlags t s)) = .ok (.stall t s n) := by
  have hn' : ¬ maxCount < n.toNat := by omega
  unfold fetchCommand
  simp only [flagsOf_word0, countOf_word0, if_neg hn']
  cases t <;> cases s <;> rfl

/-- The engine's own result is no command (41_descriptor_ops.md R162). -/
theorem fetchCommand_resultFlags (t : Bool) (k : Kind) (n : Half) :
    fetchCommand (word0 n (resultFlags t k)) = .ok .idle := by
  rw [fetchCommand_idle_iff, flagsOf_word0]
  cases t <;> cases k <;> rfl

/-- The result word of a token names that token. -/
theorem resultKind_resultFlags (t : Bool) (k : Kind) {n : Half} (hn : n.toNat ≤ maxCount) :
    resultKind (resultFlags t k) n = some k := by
  unfold resultKind
  rw [if_pos ⟨by cases t <;> cases k <;> rfl, by cases t <;> cases k <;> rfl, hn⟩]
  cases t <;> cases k <;> rfl

theorem bitAt_resultFlags (t : Bool) (k : Kind) : bitAt 16 (resultFlags t k) 6 = t := by
  cases t <;> cases k <;> rfl

theorem kindOfPid_pidOf (k : Kind) : kindOfPid (pidOf k) = some k := by
  cases k <;> rfl

theorem pidOf_of_kindOfPid {p : BitVec 4} {k : Kind} (h : kindOfPid p = some k) : p = pidOf k := by
  unfold kindOfPid at h
  repeat' split at h
  all_goals simp_all

/-- A word that names a result is the result word of that token. -/
theorem resultFlags_of_resultKind {f n : Half} {k : Kind} (h : resultKind f n = some k) :
    f = resultFlags (bitAt 16 f 6) k ∧ n.toNat ≤ maxCount := by
  unfold resultKind at h
  split at h
  · rename_i hc
    refine ⟨?_, hc.2.2⟩
    have hp := pidOf_of_kindOfPid h
    have hpid : ∀ j, j < 4 → f.getLsbD (2 + j) = (pidOf k).getLsbD j := by
      intro j hj
      rw [← hp]
      simp [hj]
    have h0 := hpid 0 (by omega)
    have h1 := hpid 1 (by omega)
    have h2 := hpid 2 (by omega)
    have h3 := hpid 3 (by omega)
    have hhi : ∀ j, 7 ≤ j → j < 16 → f.getLsbD j = false := fun j h1 h2 => getLsbD_of_extract_zero hc.1 h1 (by omega)
    have hlo : ∀ j, j < 2 → f.getLsbD j = false := fun j h1 => getLsbD_of_extract_zero hc.2.1 (by omega) (by omega)
    apply BitVec.eq_of_getLsbD_eq
    intro i hi
    simp only [bitAt, Nat.reduceAdd] at *
    interval_cases i <;> (simp only [resultFlags, bit, BitVec.getLsbD_append]; simp [-BitVec.getLsbD_eq_getElem, *])
  · cases h

/-- What the decoder makes of word 0 of a descriptor: an idle word or a result, a data command, or a stall command. -/
theorem decodeBd_cases {w : Word} {i : Instr} (h : decodeBd w = .ok i) :
    (bitAt 16 (flagsOf w) 7 = false ∧ i = idleInstr (flagsOf w) (countOf w)) ∨
    (∃ t s, i = .bdData t s (countOf w) ∧ fetchCommand w = .ok (.data t s (countOf w))) ∨
    (∃ t s, i = .bdStall t s (countOf w) ∧ fetchCommand w = .ok (.stall t s (countOf w))) := by
  unfold decodeBd at h
  split at h
  · cases h
  · rename_i hc
    simp only [Except.ok.injEq] at h
    exact .inl ⟨(fetchCommand_idle_iff w).1 hc, h.symm⟩
  · rename_i t s n hc
    simp only [Except.ok.injEq] at h
    have hn := (fetchCommand_data hc).2.1
    subst hn
    exact .inr (.inl ⟨t, s, h.symm, hc⟩)
  · rename_i t s n hc
    simp only [Except.ok.injEq] at h
    have hn := (fetchCommand_stall hc).2.1
    subst hn
    exact .inr (.inr ⟨t, s, h.symm, hc⟩)

/-! ## Tokens -/

theorem tokenWord_pid (p : BitVec 4) (a : BitVec 7) (e : Fin 16) (x : Bool) : (tokenWord p a e x).extractLsb' 0 4 = p :=
  extract_append_low _ _

theorem tokenWord_addr (p : BitVec 4) (a : BitVec 7) (e : Fin 16) (x : Bool) : (tokenWord p a e x).extractLsb' 4 7 = a :=
  (extract_append_high (k := 0) _ _).trans (extract_append_low _ _)

theorem tokenWord_ep (p : BitVec 4) (a : BitVec 7) (e : Fin 16) (x : Bool) :
    ((tokenWord p a e x).extractLsb' 11 4).toFin = e := by
  have h : (tokenWord p a e x).extractLsb' 11 4 = BitVec.ofFin (w := 4) e :=
    (extract_append_high (k := 7) _ _).trans ((extract_append_high (k := 0) _ _).trans (extract_append_low _ _))
  rw [h]

theorem tokenWord_bit (p : BitVec 4) (a : BitVec 7) (e : Fin 16) (x : Bool) : bitAt 16 (tokenWord p a e x) 15 = x := by
  cases x <;> (simp only [bitAt, tokenWord, bit, BitVec.getLsbD_append]; simp [-BitVec.getLsbD_eq_getElem])

/-! ## Operand bytes -/

theorem epOfByte_operandByte (e : Fin 16) (d : Dir) (o t s : Bool) : epOfByte (operandByte e d o t s) = e := by
  have h : (operandByte e d o t s).extractLsb' 0 4 = BitVec.ofFin (w := 4) e := extract_append_low _ _
  simp [epOfByte, h]

theorem dirOfByte_operandByte (e : Fin 16) (d : Dir) (o t s : Bool) : dirOfByte (operandByte e d o t s) = d := by
  cases d <;> (simp only [dirOfByte, dirOfBit, bitAt, operandByte, bit, dirBit, BitVec.getLsbD_append]; simp [-BitVec.getLsbD_eq_getElem])

theorem oddOf_operandByte (e : Fin 16) (d : Dir) (o t s : Bool) : bitAt 8 (operandByte e d o t s) 5 = o := by
  cases o <;> (simp only [bitAt, operandByte, bit, BitVec.getLsbD_append]; simp [-BitVec.getLsbD_eq_getElem])

theorem toggleOf_operandByte (e : Fin 16) (d : Dir) (o t s : Bool) : bitAt 8 (operandByte e d o t s) 6 = t := by
  cases t <;> (simp only [bitAt, operandByte, bit, BitVec.getLsbD_append]; simp [-BitVec.getLsbD_eq_getElem])

theorem syncOf_operandByte (e : Fin 16) (d : Dir) (o t s : Bool) : bitAt 8 (operandByte e d o t s) 7 = s := by
  cases s <;> (simp only [bitAt, operandByte, bit, BitVec.getLsbD_append]; simp [-BitVec.getLsbD_eq_getElem])

theorem high_operandByte (e : Fin 16) (d : Dir) (o : Bool) :
    (operandByte e d o false false).extractLsb' 6 2 = 0#2 := by
  refine (extract_append_high (k := 2) _ _).trans ((extract_append_high (k := 1) _ _).trans
    ((extract_append_high (k := 0) _ _).trans ?_))
  rfl

/-! ## The register map -/

theorem mem_allRegs (r : Reg) : r ∈ allRegs := by
  cases r <;> simp [allRegs]

/-- In a well-formed map the address of a register finds it again (30_encoding.md R103). -/
theorem regOfAddr_regAddr {rm : RegMap} (h : rm.wf = true) (r : Reg) : regOfAddr rm (regAddr rm r) = some r := by
  simp only [RegMap.wf, Bool.and_eq_true, decide_eq_true_eq] at h
  have hinj : ∀ q ∈ allRegs, regAddr rm q = regAddr rm r → q = r := fun q hq he =>
    List.inj_on_of_nodup_map h.1 hq (mem_allRegs r) he
  unfold regOfAddr
  cases hf : allRegs.find? (fun q => regAddr rm q == regAddr rm r) with
  | none =>
    have := List.find?_eq_none.1 hf r (mem_allRegs r)
    simp at this
  | some q =>
    have h1 := List.find?_some hf
    have h2 := List.mem_of_find?_eq_some hf
    rw [hinj q h2 (by simpa using h1)]

theorem regAddr_aligned {rm : RegMap} (h : rm.wf = true) (r : Reg) : (regAddr rm r).extractLsb' 0 2 = 0#2 := by
  simp only [RegMap.wf, Bool.and_eq_true, List.all_eq_true] at h
  simpa using h.2 r (mem_allRegs r)

/-- An access at a register's address is that register's operation. -/
theorem accessInstr_regAddr {rm : RegMap} (h : rm.wf = true) (r : Reg) (k : Reg → Instr) :
    accessInstr rm (regAddr rm r) k = .ok (k r) := by
  simp [accessInstr, regAddr_aligned h r, regOfAddr_regAddr h r]

/-! ## Encoded frames -/

theorem decode_bdFrame (rm : RegMap) (n f : Half) : decode rm (bdFrame n f) = decodeBd (word0 n f) := by
  simp only [decode, bdFrame, wordBytes, word_of_bytes]

/-- A word with UOWN 0 is an idle word or a result (41_descriptor_ops.md R162, R164). -/
theorem decodeBd_of_software {n f : Half} (h : bitAt 16 f 7 = false) : decodeBd (word0 n f) = .ok (idleInstr f n) := by
  have := (fetchCommand_idle_iff (word0 n f)).2 (by rw [flagsOf_word0]; exact h)
  simp only [decodeBd, this, flagsOf_word0, countOf_word0]

theorem decode_readFrame {rm : RegMap} (h : rm.wf = true) (r : Reg) : decode rm (readFrame rm r) = .ok (readInstr r) := by
  simp only [decode, readFrame, readBytes, wordBytes, decodeReg]
  rw [if_neg (by decide), if_pos trivial, word_of_bytes, accessInstr_regAddr h]

theorem decode_writeFrame {rm : RegMap} (h : rm.wf = true) (r : Reg) (v : Word) :
    decode rm (writeFrame rm r v) = .ok (writeInstr v r) := by
  simp only [decode, writeFrame, writeBytesOf, wordBytes, decodeReg, List.cons_append, List.nil_append]
  rw [if_neg (by decide), if_pos trivial, word_of_bytes, word_of_bytes, accessInstr_regAddr h]

theorem decodeTok_tokenBytes (p : BitVec 4) (a : BitVec 7) (e : Fin 16) (x : Bool) {pl : List Byte}
    (h : pl.length ≤ maxCount) : decodeTok (tokenBytes p a e x pl) = decodeToken (tokenWord p a e x) pl := by
  have h1 : maxCount = 1023 := rfl
  simp only [decodeTok, tokenBytes, halfBytes, List.cons_append, List.nil_append, half_of_bytes]
  rw [if_neg (by simp [BitVec.toNat_ofNat]; omega), if_neg (by omega)]

end Sys2Proof
end

