-- ==== Sys2Proof/Laws/State.lean ====
section
/-! SUPPORT. For each named update of the state, what each field becomes: true by unfolding, once, so that no later proof
unfolds an update. -/

namespace Sys2Proof.Machine

variable (s : State)

/-! ## `storeBytes` -/

@[simp] theorem storeBytes_cfg (a : Nat) (bs : List Byte) : (storeBytes s a bs).cfg = s.cfg := rfl
@[simp] theorem storeBytes_usbpwr (a : Nat) (bs : List Byte) : (storeBytes s a bs).usbpwr = s.usbpwr := rfl
@[simp] theorem storeBytes_otgcon (a : Nat) (bs : List Byte) : (storeBytes s a bs).otgcon = s.otgcon := rfl
@[simp] theorem storeBytes_usben (a : Nat) (bs : List Byte) : (storeBytes s a bs).usben = s.usben := rfl
@[simp] theorem storeBytes_pktdis (a : Nat) (bs : List Byte) : (storeBytes s a bs).pktdis = s.pktdis := rfl
@[simp] theorem storeBytes_devaddr (a : Nat) (bs : List Byte) : (storeBytes s a bs).devaddr = s.devaddr := rfl
@[simp] theorem storeBytes_bdtp1 (a : Nat) (bs : List Byte) : (storeBytes s a bs).bdtp1 = s.bdtp1 := rfl
@[simp] theorem storeBytes_bdtp2 (a : Nat) (bs : List Byte) : (storeBytes s a bs).bdtp2 = s.bdtp2 := rfl
@[simp] theorem storeBytes_bdtp3 (a : Nat) (bs : List Byte) : (storeBytes s a bs).bdtp3 = s.bdtp3 := rfl
@[simp] theorem storeBytes_ie (a : Nat) (bs : List Byte) : (storeBytes s a bs).ie = s.ie := rfl
@[simp] theorem storeBytes_urstif (a : Nat) (bs : List Byte) : (storeBytes s a bs).urstif = s.urstif := rfl
@[simp] theorem storeBytes_stallif (a : Nat) (bs : List Byte) : (storeBytes s a bs).stallif = s.stallif := rfl
@[simp] theorem storeBytes_eir (a : Nat) (bs : List Byte) : (storeBytes s a bs).eir = s.eir := rfl
@[simp] theorem storeBytes_ep (a : Nat) (bs : List Byte) : (storeBytes s a bs).ep = s.ep := rfl
@[simp] theorem storeBytes_ppbiRx (a : Nat) (bs : List Byte) : (storeBytes s a bs).ppbiRx = s.ppbiRx := rfl
@[simp] theorem storeBytes_ppbiTx (a : Nat) (bs : List Byte) : (storeBytes s a bs).ppbiTx = s.ppbiTx := rfl
@[simp] theorem storeBytes_fifo (a : Nat) (bs : List Byte) : (storeBytes s a bs).fifo = s.fifo := rfl
@[simp] theorem storeBytes_mem (a : Nat) (bs : List Byte) : (storeBytes s a bs).mem = memPutBytes s.mem a bs := rfl
@[simp] theorem storeBytes_txn (a : Nat) (bs : List Byte) : (storeBytes s a bs).txn = s.txn := rfl
@[simp] theorem storeBytes_resp (a : Nat) (bs : List Byte) : (storeBytes s a bs).resp = s.resp := rfl
@[simp] theorem storeBytes_rdata (a : Nat) (bs : List Byte) : (storeBytes s a bs).rdata = s.rdata := rfl
@[simp] theorem storeBytes_draws (a : Nat) (bs : List Byte) : (storeBytes s a bs).draws = s.draws := rfl
@[simp] theorem storeBytes_inputs (a : Nat) (bs : List Byte) : (storeBytes s a bs).inputs = s.inputs := rfl
@[simp] theorem storeBytes_fine (a : Nat) (bs : List Byte) : (storeBytes s a bs).fine = s.fine := rfl
@[simp] theorem storeBytes_drv (a : Nat) (bs : List Byte) : (storeBytes s a bs).drv = s.drv := rfl
@[simp] theorem storeBytes_call (a : Nat) (bs : List Byte) : (storeBytes s a bs).call = s.call := rfl
@[simp] theorem storeBytes_pending (a : Nat) (bs : List Byte) : (storeBytes s a bs).pending = s.pending := rfl

/-! ## `storeHalf` -/

@[simp] theorem storeHalf_cfg (a : Nat) (v : Half) : (storeHalf s a v).cfg = s.cfg := rfl
@[simp] theorem storeHalf_usbpwr (a : Nat) (v : Half) : (storeHalf s a v).usbpwr = s.usbpwr := rfl
@[simp] theorem storeHalf_otgcon (a : Nat) (v : Half) : (storeHalf s a v).otgcon = s.otgcon := rfl
@[simp] theorem storeHalf_usben (a : Nat) (v : Half) : (storeHalf s a v).usben = s.usben := rfl
@[simp] theorem storeHalf_pktdis (a : Nat) (v : Half) : (storeHalf s a v).pktdis = s.pktdis := rfl
@[simp] theorem storeHalf_devaddr (a : Nat) (v : Half) : (storeHalf s a v).devaddr = s.devaddr := rfl
@[simp] theorem storeHalf_bdtp1 (a : Nat) (v : Half) : (storeHalf s a v).bdtp1 = s.bdtp1 := rfl
@[simp] theorem storeHalf_bdtp2 (a : Nat) (v : Half) : (storeHalf s a v).bdtp2 = s.bdtp2 := rfl
@[simp] theorem storeHalf_bdtp3 (a : Nat) (v : Half) : (storeHalf s a v).bdtp3 = s.bdtp3 := rfl
@[simp] theorem storeHalf_ie (a : Nat) (v : Half) : (storeHalf s a v).ie = s.ie := rfl
@[simp] theorem storeHalf_urstif (a : Nat) (v : Half) : (storeHalf s a v).urstif = s.urstif := rfl
@[simp] theorem storeHalf_stallif (a : Nat) (v : Half) : (storeHalf s a v).stallif = s.stallif := rfl
@[simp] theorem storeHalf_eir (a : Nat) (v : Half) : (storeHalf s a v).eir = s.eir := rfl
@[simp] theorem storeHalf_ep (a : Nat) (v : Half) : (storeHalf s a v).ep = s.ep := rfl
@[simp] theorem storeHalf_ppbiRx (a : Nat) (v : Half) : (storeHalf s a v).ppbiRx = s.ppbiRx := rfl
@[simp] theorem storeHalf_ppbiTx (a : Nat) (v : Half) : (storeHalf s a v).ppbiTx = s.ppbiTx := rfl
@[simp] theorem storeHalf_fifo (a : Nat) (v : Half) : (storeHalf s a v).fifo = s.fifo := rfl
@[simp] theorem storeHalf_mem (a : Nat) (v : Half) : (storeHalf s a v).mem = memPutBytes s.mem a (halfBytes v) := rfl
@[simp] theorem storeHalf_txn (a : Nat) (v : Half) : (storeHalf s a v).txn = s.txn := rfl
@[simp] theorem storeHalf_resp (a : Nat) (v : Half) : (storeHalf s a v).resp = s.resp := rfl
@[simp] theorem storeHalf_rdata (a : Nat) (v : Half) : (storeHalf s a v).rdata = s.rdata := rfl
@[simp] theorem storeHalf_draws (a : Nat) (v : Half) : (storeHalf s a v).draws = s.draws := rfl
@[simp] theorem storeHalf_inputs (a : Nat) (v : Half) : (storeHalf s a v).inputs = s.inputs := rfl
@[simp] theorem storeHalf_fine (a : Nat) (v : Half) : (storeHalf s a v).fine = s.fine := rfl
@[simp] theorem storeHalf_drv (a : Nat) (v : Half) : (storeHalf s a v).drv = s.drv := rfl
@[simp] theorem storeHalf_call (a : Nat) (v : Half) : (storeHalf s a v).call = s.call := rfl
@[simp] theorem storeHalf_pending (a : Nat) (v : Half) : (storeHalf s a v).pending = s.pending := rfl

/-! ## `storeWord` -/

@[simp] theorem storeWord_cfg (a : Nat) (v : Word) : (storeWord s a v).cfg = s.cfg := rfl
@[simp] theorem storeWord_usbpwr (a : Nat) (v : Word) : (storeWord s a v).usbpwr = s.usbpwr := rfl
@[simp] theorem storeWord_otgcon (a : Nat) (v : Word) : (storeWord s a v).otgcon = s.otgcon := rfl
@[simp] theorem storeWord_usben (a : Nat) (v : Word) : (storeWord s a v).usben = s.usben := rfl
@[simp] theorem storeWord_pktdis (a : Nat) (v : Word) : (storeWord s a v).pktdis = s.pktdis := rfl
@[simp] theorem storeWord_devaddr (a : Nat) (v : Word) : (storeWord s a v).devaddr = s.devaddr := rfl
@[simp] theorem storeWord_bdtp1 (a : Nat) (v : Word) : (storeWord s a v).bdtp1 = s.bdtp1 := rfl
@[simp] theorem storeWord_bdtp2 (a : Nat) (v : Word) : (storeWord s a v).bdtp2 = s.bdtp2 := rfl
@[simp] theorem storeWord_bdtp3 (a : Nat) (v : Word) : (storeWord s a v).bdtp3 = s.bdtp3 := rfl
@[simp] theorem storeWord_ie (a : Nat) (v : Word) : (storeWord s a v).ie = s.ie := rfl
@[simp] theorem storeWord_urstif (a : Nat) (v : Word) : (storeWord s a v).urstif = s.urstif := rfl
@[simp] theorem storeWord_stallif (a : Nat) (v : Word) : (storeWord s a v).stallif = s.stallif := rfl
@[simp] theorem storeWord_eir (a : Nat) (v : Word) : (storeWord s a v).eir = s.eir := rfl
@[simp] theorem storeWord_ep (a : Nat) (v : Word) : (storeWord s a v).ep = s.ep := rfl
@[simp] theorem storeWord_ppbiRx (a : Nat) (v : Word) : (storeWord s a v).ppbiRx = s.ppbiRx := rfl
@[simp] theorem storeWord_ppbiTx (a : Nat) (v : Word) : (storeWord s a v).ppbiTx = s.ppbiTx := rfl
@[simp] theorem storeWord_fifo (a : Nat) (v : Word) : (storeWord s a v).fifo = s.fifo := rfl
@[simp] theorem storeWord_mem (a : Nat) (v : Word) : (storeWord s a v).mem = memPutBytes s.mem a (wordBytes v) := rfl
@[simp] theorem storeWord_txn (a : Nat) (v : Word) : (storeWord s a v).txn = s.txn := rfl
@[simp] theorem storeWord_resp (a : Nat) (v : Word) : (storeWord s a v).resp = s.resp := rfl
@[simp] theorem storeWord_rdata (a : Nat) (v : Word) : (storeWord s a v).rdata = s.rdata := rfl
@[simp] theorem storeWord_draws (a : Nat) (v : Word) : (storeWord s a v).draws = s.draws := rfl
@[simp] theorem storeWord_inputs (a : Nat) (v : Word) : (storeWord s a v).inputs = s.inputs := rfl
@[simp] theorem storeWord_fine (a : Nat) (v : Word) : (storeWord s a v).fine = s.fine := rfl
@[simp] theorem storeWord_drv (a : Nat) (v : Word) : (storeWord s a v).drv = s.drv := rfl
@[simp] theorem storeWord_call (a : Nat) (v : Word) : (storeWord s a v).call = s.call := rfl
@[simp] theorem storeWord_pending (a : Nat) (v : Word) : (storeWord s a v).pending = s.pending := rfl

/-! ## `setRdata` -/

@[simp] theorem setRdata_cfg (v : Word) : (setRdata s v).cfg = s.cfg := rfl
@[simp] theorem setRdata_usbpwr (v : Word) : (setRdata s v).usbpwr = s.usbpwr := rfl
@[simp] theorem setRdata_otgcon (v : Word) : (setRdata s v).otgcon = s.otgcon := rfl
@[simp] theorem setRdata_usben (v : Word) : (setRdata s v).usben = s.usben := rfl
@[simp] theorem setRdata_pktdis (v : Word) : (setRdata s v).pktdis = s.pktdis := rfl
@[simp] theorem setRdata_devaddr (v : Word) : (setRdata s v).devaddr = s.devaddr := rfl
@[simp] theorem setRdata_bdtp1 (v : Word) : (setRdata s v).bdtp1 = s.bdtp1 := rfl
@[simp] theorem setRdata_bdtp2 (v : Word) : (setRdata s v).bdtp2 = s.bdtp2 := rfl
@[simp] theorem setRdata_bdtp3 (v : Word) : (setRdata s v).bdtp3 = s.bdtp3 := rfl
@[simp] theorem setRdata_ie (v : Word) : (setRdata s v).ie = s.ie := rfl
@[simp] theorem setRdata_urstif (v : Word) : (setRdata s v).urstif = s.urstif := rfl
@[simp] theorem setRdata_stallif (v : Word) : (setRdata s v).stallif = s.stallif := rfl
@[simp] theorem setRdata_eir (v : Word) : (setRdata s v).eir = s.eir := rfl
@[simp] theorem setRdata_ep (v : Word) : (setRdata s v).ep = s.ep := rfl
@[simp] theorem setRdata_ppbiRx (v : Word) : (setRdata s v).ppbiRx = s.ppbiRx := rfl
@[simp] theorem setRdata_ppbiTx (v : Word) : (setRdata s v).ppbiTx = s.ppbiTx := rfl
@[simp] theorem setRdata_fifo (v : Word) : (setRdata s v).fifo = s.fifo := rfl
@[simp] theorem setRdata_mem (v : Word) : (setRdata s v).mem = s.mem := rfl
@[simp] theorem setRdata_txn (v : Word) : (setRdata s v).txn = s.txn := rfl
@[simp] theorem setRdata_resp (v : Word) : (setRdata s v).resp = s.resp := rfl
@[simp] theorem setRdata_rdata (v : Word) : (setRdata s v).rdata = v := rfl
@[simp] theorem setRdata_draws (v : Word) : (setRdata s v).draws = s.draws := rfl
@[simp] theorem setRdata_inputs (v : Word) : (setRdata s v).inputs = s.inputs := rfl
@[simp] theorem setRdata_fine (v : Word) : (setRdata s v).fine = s.fine := rfl
@[simp] theorem setRdata_drv (v : Word) : (setRdata s v).drv = s.drv := rfl
@[simp] theorem setRdata_call (v : Word) : (setRdata s v).call = s.call := rfl
@[simp] theorem setRdata_pending (v : Word) : (setRdata s v).pending = s.pending := rfl

/-! ## `setPpbi` -/

@[simp] theorem setPpbi_cfg (e : Fin 16) (dir : Dir) (v : Bool) : (setPpbi s e dir v).cfg = s.cfg := by cases dir <;> rfl
@[simp] theorem setPpbi_usbpwr (e : Fin 16) (dir : Dir) (v : Bool) : (setPpbi s e dir v).usbpwr = s.usbpwr := by cases dir <;> rfl
@[simp] theorem setPpbi_otgcon (e : Fin 16) (dir : Dir) (v : Bool) : (setPpbi s e dir v).otgcon = s.otgcon := by cases dir <;> rfl
@[simp] theorem setPpbi_usben (e : Fin 16) (dir : Dir) (v : Bool) : (setPpbi s e dir v).usben = s.usben := by cases dir <;> rfl
@[simp] theorem setPpbi_pktdis (e : Fin 16) (dir : Dir) (v : Bool) : (setPpbi s e dir v).pktdis = s.pktdis := by cases dir <;> rfl
@[simp] theorem setPpbi_devaddr (e : Fin 16) (dir : Dir) (v : Bool) : (setPpbi s e dir v).devaddr = s.devaddr := by cases dir <;> rfl
@[simp] theorem setPpbi_bdtp1 (e : Fin 16) (dir : Dir) (v : Bool) : (setPpbi s e dir v).bdtp1 = s.bdtp1 := by cases dir <;> rfl
@[simp] theorem setPpbi_bdtp2 (e : Fin 16) (dir : Dir) (v : Bool) : (setPpbi s e dir v).bdtp2 = s.bdtp2 := by cases dir <;> rfl
@[simp] theorem setPpbi_bdtp3 (e : Fin 16) (dir : Dir) (v : Bool) : (setPpbi s e dir v).bdtp3 = s.bdtp3 := by cases dir <;> rfl
@[simp] theorem setPpbi_ie (e : Fin 16) (dir : Dir) (v : Bool) : (setPpbi s e dir v).ie = s.ie := by cases dir <;> rfl
@[simp] theorem setPpbi_urstif (e : Fin 16) (dir : Dir) (v : Bool) : (setPpbi s e dir v).urstif = s.urstif := by cases dir <;> rfl
@[simp] theorem setPpbi_stallif (e : Fin 16) (dir : Dir) (v : Bool) : (setPpbi s e dir v).stallif = s.stallif := by cases dir <;> rfl
@[simp] theorem setPpbi_eir (e : Fin 16) (dir : Dir) (v : Bool) : (setPpbi s e dir v).eir = s.eir := by cases dir <;> rfl
@[simp] theorem setPpbi_ep (e : Fin 16) (dir : Dir) (v : Bool) : (setPpbi s e dir v).ep = s.ep := by cases dir <;> rfl
@[simp] theorem setPpbi_fifo (e : Fin 16) (dir : Dir) (v : Bool) : (setPpbi s e dir v).fifo = s.fifo := by cases dir <;> rfl
@[simp] theorem setPpbi_mem (e : Fin 16) (dir : Dir) (v : Bool) : (setPpbi s e dir v).mem = s.mem := by cases dir <;> rfl
@[simp] theorem setPpbi_txn (e : Fin 16) (dir : Dir) (v : Bool) : (setPpbi s e dir v).txn = s.txn := by cases dir <;> rfl
@[simp] theorem setPpbi_resp (e : Fin 16) (dir : Dir) (v : Bool) : (setPpbi s e dir v).resp = s.resp := by cases dir <;> rfl
@[simp] theorem setPpbi_rdata (e : Fin 16) (dir : Dir) (v : Bool) : (setPpbi s e dir v).rdata = s.rdata := by cases dir <;> rfl
@[simp] theorem setPpbi_draws (e : Fin 16) (dir : Dir) (v : Bool) : (setPpbi s e dir v).draws = s.draws := by cases dir <;> rfl
@[simp] theorem setPpbi_inputs (e : Fin 16) (dir : Dir) (v : Bool) : (setPpbi s e dir v).inputs = s.inputs := by cases dir <;> rfl
@[simp] theorem setPpbi_fine (e : Fin 16) (dir : Dir) (v : Bool) : (setPpbi s e dir v).fine = s.fine := by cases dir <;> rfl
@[simp] theorem setPpbi_drv (e : Fin 16) (dir : Dir) (v : Bool) : (setPpbi s e dir v).drv = s.drv := by cases dir <;> rfl
@[simp] theorem setPpbi_call (e : Fin 16) (dir : Dir) (v : Bool) : (setPpbi s e dir v).call = s.call := by cases dir <;> rfl
@[simp] theorem setPpbi_pending (e : Fin 16) (dir : Dir) (v : Bool) : (setPpbi s e dir v).pending = s.pending := by cases dir <;> rfl

/-! ## `setEp` -/

@[simp] theorem setEp_cfg (e : Fin 16) (c : EpCtl) : (setEp s e c).cfg = s.cfg := rfl
@[simp] theorem setEp_usbpwr (e : Fin 16) (c : EpCtl) : (setEp s e c).usbpwr = s.usbpwr := rfl
@[simp] theorem setEp_otgcon (e : Fin 16) (c : EpCtl) : (setEp s e c).otgcon = s.otgcon := rfl
@[simp] theorem setEp_usben (e : Fin 16) (c : EpCtl) : (setEp s e c).usben = s.usben := rfl
@[simp] theorem setEp_pktdis (e : Fin 16) (c : EpCtl) : (setEp s e c).pktdis = s.pktdis := rfl
@[simp] theorem setEp_devaddr (e : Fin 16) (c : EpCtl) : (setEp s e c).devaddr = s.devaddr := rfl
@[simp] theorem setEp_bdtp1 (e : Fin 16) (c : EpCtl) : (setEp s e c).bdtp1 = s.bdtp1 := rfl
@[simp] theorem setEp_bdtp2 (e : Fin 16) (c : EpCtl) : (setEp s e c).bdtp2 = s.bdtp2 := rfl
@[simp] theorem setEp_bdtp3 (e : Fin 16) (c : EpCtl) : (setEp s e c).bdtp3 = s.bdtp3 := rfl
@[simp] theorem setEp_ie (e : Fin 16) (c : EpCtl) : (setEp s e c).ie = s.ie := rfl
@[simp] theorem setEp_urstif (e : Fin 16) (c : EpCtl) : (setEp s e c).urstif = s.urstif := rfl
@[simp] theorem setEp_stallif (e : Fin 16) (c : EpCtl) : (setEp s e c).stallif = s.stallif := rfl
@[simp] theorem setEp_eir (e : Fin 16) (c : EpCtl) : (setEp s e c).eir = s.eir := rfl
@[simp] theorem setEp_ep (e : Fin 16) (c : EpCtl) : (setEp s e c).ep = s.ep.set e c := rfl
@[simp] theorem setEp_ppbiRx (e : Fin 16) (c : EpCtl) : (setEp s e c).ppbiRx = s.ppbiRx := rfl
@[simp] theorem setEp_ppbiTx (e : Fin 16) (c : EpCtl) : (setEp s e c).ppbiTx = s.ppbiTx := rfl
@[simp] theorem setEp_fifo (e : Fin 16) (c : EpCtl) : (setEp s e c).fifo = s.fifo := rfl
@[simp] theorem setEp_mem (e : Fin 16) (c : EpCtl) : (setEp s e c).mem = s.mem := rfl
@[simp] theorem setEp_txn (e : Fin 16) (c : EpCtl) : (setEp s e c).txn = s.txn := rfl
@[simp] theorem setEp_resp (e : Fin 16) (c : EpCtl) : (setEp s e c).resp = s.resp := rfl
@[simp] theorem setEp_rdata (e : Fin 16) (c : EpCtl) : (setEp s e c).rdata = s.rdata := rfl
@[simp] theorem setEp_draws (e : Fin 16) (c : EpCtl) : (setEp s e c).draws = s.draws := rfl
@[simp] theorem setEp_inputs (e : Fin 16) (c : EpCtl) : (setEp s e c).inputs = s.inputs := rfl
@[simp] theorem setEp_fine (e : Fin 16) (c : EpCtl) : (setEp s e c).fine = s.fine := rfl
@[simp] theorem setEp_drv (e : Fin 16) (c : EpCtl) : (setEp s e c).drv = s.drv := rfl
@[simp] theorem setEp_call (e : Fin 16) (c : EpCtl) : (setEp s e c).call = s.call := rfl
@[simp] theorem setEp_pending (e : Fin 16) (c : EpCtl) : (setEp s e c).pending = s.pending := rfl

/-! ## `clearIr` -/

@[simp] theorem clearIr_cfg (v : Byte) : (clearIr s v).cfg = s.cfg := rfl
@[simp] theorem clearIr_usbpwr (v : Byte) : (clearIr s v).usbpwr = s.usbpwr := rfl
@[simp] theorem clearIr_otgcon (v : Byte) : (clearIr s v).otgcon = s.otgcon := rfl
@[simp] theorem clearIr_usben (v : Byte) : (clearIr s v).usben = s.usben := rfl
@[simp] theorem clearIr_pktdis (v : Byte) : (clearIr s v).pktdis = s.pktdis := rfl
@[simp] theorem clearIr_devaddr (v : Byte) : (clearIr s v).devaddr = s.devaddr := rfl
@[simp] theorem clearIr_bdtp1 (v : Byte) : (clearIr s v).bdtp1 = s.bdtp1 := rfl
@[simp] theorem clearIr_bdtp2 (v : Byte) : (clearIr s v).bdtp2 = s.bdtp2 := rfl
@[simp] theorem clearIr_bdtp3 (v : Byte) : (clearIr s v).bdtp3 = s.bdtp3 := rfl
@[simp] theorem clearIr_ie (v : Byte) : (clearIr s v).ie = s.ie := rfl
@[simp] theorem clearIr_urstif (v : Byte) : (clearIr s v).urstif = (s.urstif && !(bitAt 8 v 0)) := rfl
@[simp] theorem clearIr_stallif (v : Byte) : (clearIr s v).stallif = (s.stallif && !(bitAt 8 v 7)) := rfl
@[simp] theorem clearIr_eir (v : Byte) : (clearIr s v).eir = s.eir := rfl
@[simp] theorem clearIr_ep (v : Byte) : (clearIr s v).ep = s.ep := rfl
@[simp] theorem clearIr_ppbiRx (v : Byte) : (clearIr s v).ppbiRx = s.ppbiRx := rfl
@[simp] theorem clearIr_ppbiTx (v : Byte) : (clearIr s v).ppbiTx = s.ppbiTx := rfl
@[simp] theorem clearIr_fifo (v : Byte) : (clearIr s v).fifo = if bitAt 8 v 3 then s.fifo.tail else s.fifo := rfl
@[simp] theorem clearIr_mem (v : Byte) : (clearIr s v).mem = s.mem := rfl
@[simp] theorem clearIr_txn (v : Byte) : (clearIr s v).txn = s.txn := rfl
@[simp] theorem clearIr_resp (v : Byte) : (clearIr s v).resp = s.resp := rfl
@[simp] theorem clearIr_rdata (v : Byte) : (clearIr s v).rdata = s.rdata := rfl
@[simp] theorem clearIr_draws (v : Byte) : (clearIr s v).draws = s.draws := rfl
@[simp] theorem clearIr_inputs (v : Byte) : (clearIr s v).inputs = s.inputs := rfl
@[simp] theorem clearIr_fine (v : Byte) : (clearIr s v).fine = s.fine := rfl
@[simp] theorem clearIr_drv (v : Byte) : (clearIr s v).drv = s.drv := rfl
@[simp] theorem clearIr_call (v : Byte) : (clearIr s v).call = s.call := rfl
@[simp] theorem clearIr_pending (v : Byte) : (clearIr s v).pending = s.pending := rfl

/-! ## `clearEir` -/

@[simp] theorem clearEir_cfg (v : Byte) : (clearEir s v).cfg = s.cfg := rfl
@[simp] theorem clearEir_usbpwr (v : Byte) : (clearEir s v).usbpwr = s.usbpwr := rfl
@[simp] theorem clearEir_otgcon (v : Byte) : (clearEir s v).otgcon = s.otgcon := rfl
@[simp] theorem clearEir_usben (v : Byte) : (clearEir s v).usben = s.usben := rfl
@[simp] theorem clearEir_pktdis (v : Byte) : (clearEir s v).pktdis = s.pktdis := rfl
@[simp] theorem clearEir_devaddr (v : Byte) : (clearEir s v).devaddr = s.devaddr := rfl
@[simp] theorem clearEir_bdtp1 (v : Byte) : (clearEir s v).bdtp1 = s.bdtp1 := rfl
@[simp] theorem clearEir_bdtp2 (v : Byte) : (clearEir s v).bdtp2 = s.bdtp2 := rfl
@[simp] theorem clearEir_bdtp3 (v : Byte) : (clearEir s v).bdtp3 = s.bdtp3 := rfl
@[simp] theorem clearEir_ie (v : Byte) : (clearEir s v).ie = s.ie := rfl
@[simp] theorem clearEir_urstif (v : Byte) : (clearEir s v).urstif = s.urstif := rfl
@[simp] theorem clearEir_stallif (v : Byte) : (clearEir s v).stallif = s.stallif := rfl
@[simp] theorem clearEir_eir (v : Byte) : (clearEir s v).eir = s.eir &&& ~~~v := rfl
@[simp] theorem clearEir_ep (v : Byte) : (clearEir s v).ep = s.ep := rfl
@[simp] theorem clearEir_ppbiRx (v : Byte) : (clearEir s v).ppbiRx = s.ppbiRx := rfl
@[simp] theorem clearEir_ppbiTx (v : Byte) : (clearEir s v).ppbiTx = s.ppbiTx := rfl
@[simp] theorem clearEir_fifo (v : Byte) : (clearEir s v).fifo = s.fifo := rfl
@[simp] theorem clearEir_mem (v : Byte) : (clearEir s v).mem = s.mem := rfl
@[simp] theorem clearEir_txn (v : Byte) : (clearEir s v).txn = s.txn := rfl
@[simp] theorem clearEir_resp (v : Byte) : (clearEir s v).resp = s.resp := rfl
@[simp] theorem clearEir_rdata (v : Byte) : (clearEir s v).rdata = s.rdata := rfl
@[simp] theorem clearEir_draws (v : Byte) : (clearEir s v).draws = s.draws := rfl
@[simp] theorem clearEir_inputs (v : Byte) : (clearEir s v).inputs = s.inputs := rfl
@[simp] theorem clearEir_fine (v : Byte) : (clearEir s v).fine = s.fine := rfl
@[simp] theorem clearEir_drv (v : Byte) : (clearEir s v).drv = s.drv := rfl
@[simp] theorem clearEir_call (v : Byte) : (clearEir s v).call = s.call := rfl
@[simp] theorem clearEir_pending (v : Byte) : (clearEir s v).pending = s.pending := rfl

/-! ## `writeCon` -/

@[simp] theorem writeCon_cfg (v : Byte) : (writeCon s v).cfg = s.cfg := rfl
@[simp] theorem writeCon_usbpwr (v : Byte) : (writeCon s v).usbpwr = s.usbpwr := rfl
@[simp] theorem writeCon_otgcon (v : Byte) : (writeCon s v).otgcon = s.otgcon := rfl
@[simp] theorem writeCon_usben (v : Byte) : (writeCon s v).usben = bitAt 8 v 0 := rfl
@[simp] theorem writeCon_pktdis (v : Byte) : (writeCon s v).pktdis = (s.pktdis && bitAt 8 v 5) := rfl
@[simp] theorem writeCon_devaddr (v : Byte) : (writeCon s v).devaddr = s.devaddr := rfl
@[simp] theorem writeCon_bdtp1 (v : Byte) : (writeCon s v).bdtp1 = s.bdtp1 := rfl
@[simp] theorem writeCon_bdtp2 (v : Byte) : (writeCon s v).bdtp2 = s.bdtp2 := rfl
@[simp] theorem writeCon_bdtp3 (v : Byte) : (writeCon s v).bdtp3 = s.bdtp3 := rfl
@[simp] theorem writeCon_ie (v : Byte) : (writeCon s v).ie = s.ie := rfl
@[simp] theorem writeCon_urstif (v : Byte) : (writeCon s v).urstif = s.urstif := rfl
@[simp] theorem writeCon_stallif (v : Byte) : (writeCon s v).stallif = s.stallif := rfl
@[simp] theorem writeCon_eir (v : Byte) : (writeCon s v).eir = s.eir := rfl
@[simp] theorem writeCon_ep (v : Byte) : (writeCon s v).ep = s.ep := rfl
@[simp] theorem writeCon_ppbiRx (v : Byte) : (writeCon s v).ppbiRx = s.ppbiRx := rfl
@[simp] theorem writeCon_ppbiTx (v : Byte) : (writeCon s v).ppbiTx = s.ppbiTx := rfl
@[simp] theorem writeCon_fifo (v : Byte) : (writeCon s v).fifo = s.fifo := rfl
@[simp] theorem writeCon_mem (v : Byte) : (writeCon s v).mem = s.mem := rfl
@[simp] theorem writeCon_txn (v : Byte) : (writeCon s v).txn = s.txn := rfl
@[simp] theorem writeCon_resp (v : Byte) : (writeCon s v).resp = s.resp := rfl
@[simp] theorem writeCon_rdata (v : Byte) : (writeCon s v).rdata = s.rdata := rfl
@[simp] theorem writeCon_draws (v : Byte) : (writeCon s v).draws = s.draws := rfl
@[simp] theorem writeCon_inputs (v : Byte) : (writeCon s v).inputs = s.inputs := rfl
@[simp] theorem writeCon_fine (v : Byte) : (writeCon s v).fine = s.fine := rfl
@[simp] theorem writeCon_drv (v : Byte) : (writeCon s v).drv = s.drv := rfl
@[simp] theorem writeCon_call (v : Byte) : (writeCon s v).call = s.call := rfl
@[simp] theorem writeCon_pending (v : Byte) : (writeCon s v).pending = s.pending := rfl

/-! ## `setStallif` -/

@[simp] theorem setStallif_cfg : (setStallif s).cfg = s.cfg := rfl
@[simp] theorem setStallif_usbpwr : (setStallif s).usbpwr = s.usbpwr := rfl
@[simp] theorem setStallif_otgcon : (setStallif s).otgcon = s.otgcon := rfl
@[simp] theorem setStallif_usben : (setStallif s).usben = s.usben := rfl
@[simp] theorem setStallif_pktdis : (setStallif s).pktdis = s.pktdis := rfl
@[simp] theorem setStallif_devaddr : (setStallif s).devaddr = s.devaddr := rfl
@[simp] theorem setStallif_bdtp1 : (setStallif s).bdtp1 = s.bdtp1 := rfl
@[simp] theorem setStallif_bdtp2 : (setStallif s).bdtp2 = s.bdtp2 := rfl
@[simp] theorem setStallif_bdtp3 : (setStallif s).bdtp3 = s.bdtp3 := rfl
@[simp] theorem setStallif_ie : (setStallif s).ie = s.ie := rfl
@[simp] theorem setStallif_urstif : (setStallif s).urstif = s.urstif := rfl
@[simp] theorem setStallif_stallif : (setStallif s).stallif = true := rfl
@[simp] theorem setStallif_eir : (setStallif s).eir = s.eir := rfl
@[simp] theorem setStallif_ep : (setStallif s).ep = s.ep := rfl
@[simp] theorem setStallif_ppbiRx : (setStallif s).ppbiRx = s.ppbiRx := rfl
@[simp] theorem setStallif_ppbiTx : (setStallif s).ppbiTx = s.ppbiTx := rfl
@[simp] theorem setStallif_fifo : (setStallif s).fifo = s.fifo := rfl
@[simp] theorem setStallif_mem : (setStallif s).mem = s.mem := rfl
@[simp] theorem setStallif_txn : (setStallif s).txn = s.txn := rfl
@[simp] theorem setStallif_resp : (setStallif s).resp = s.resp := rfl
@[simp] theorem setStallif_rdata : (setStallif s).rdata = s.rdata := rfl
@[simp] theorem setStallif_draws : (setStallif s).draws = s.draws := rfl
@[simp] theorem setStallif_inputs : (setStallif s).inputs = s.inputs := rfl
@[simp] theorem setStallif_fine : (setStallif s).fine = s.fine := rfl
@[simp] theorem setStallif_drv : (setStallif s).drv = s.drv := rfl
@[simp] theorem setStallif_call : (setStallif s).call = s.call := rfl
@[simp] theorem setStallif_pending : (setStallif s).pending = s.pending := rfl

/-! ## `setUrstif` -/

@[simp] theorem setUrstif_cfg : (setUrstif s).cfg = s.cfg := rfl
@[simp] theorem setUrstif_usbpwr : (setUrstif s).usbpwr = s.usbpwr := rfl
@[simp] theorem setUrstif_otgcon : (setUrstif s).otgcon = s.otgcon := rfl
@[simp] theorem setUrstif_usben : (setUrstif s).usben = s.usben := rfl
@[simp] theorem setUrstif_pktdis : (setUrstif s).pktdis = s.pktdis := rfl
@[simp] theorem setUrstif_devaddr : (setUrstif s).devaddr = s.devaddr := rfl
@[simp] theorem setUrstif_bdtp1 : (setUrstif s).bdtp1 = s.bdtp1 := rfl
@[simp] theorem setUrstif_bdtp2 : (setUrstif s).bdtp2 = s.bdtp2 := rfl
@[simp] theorem setUrstif_bdtp3 : (setUrstif s).bdtp3 = s.bdtp3 := rfl
@[simp] theorem setUrstif_ie : (setUrstif s).ie = s.ie := rfl
@[simp] theorem setUrstif_urstif : (setUrstif s).urstif = true := rfl
@[simp] theorem setUrstif_stallif : (setUrstif s).stallif = s.stallif := rfl
@[simp] theorem setUrstif_eir : (setUrstif s).eir = s.eir := rfl
@[simp] theorem setUrstif_ep : (setUrstif s).ep = s.ep := rfl
@[simp] theorem setUrstif_ppbiRx : (setUrstif s).ppbiRx = s.ppbiRx := rfl
@[simp] theorem setUrstif_ppbiTx : (setUrstif s).ppbiTx = s.ppbiTx := rfl
@[simp] theorem setUrstif_fifo : (setUrstif s).fifo = s.fifo := rfl
@[simp] theorem setUrstif_mem : (setUrstif s).mem = s.mem := rfl
@[simp] theorem setUrstif_txn : (setUrstif s).txn = s.txn := rfl
@[simp] theorem setUrstif_resp : (setUrstif s).resp = s.resp := rfl
@[simp] theorem setUrstif_rdata : (setUrstif s).rdata = s.rdata := rfl
@[simp] theorem setUrstif_draws : (setUrstif s).draws = s.draws := rfl
@[simp] theorem setUrstif_inputs : (setUrstif s).inputs = s.inputs := rfl
@[simp] theorem setUrstif_fine : (setUrstif s).fine = s.fine := rfl
@[simp] theorem setUrstif_drv : (setUrstif s).drv = s.drv := rfl
@[simp] theorem setUrstif_call : (setUrstif s).call = s.call := rfl
@[simp] theorem setUrstif_pending : (setUrstif s).pending = s.pending := rfl

/-! ## `orEir` -/

@[simp] theorem orEir_cfg (m : Byte) : (orEir s m).cfg = s.cfg := rfl
@[simp] theorem orEir_usbpwr (m : Byte) : (orEir s m).usbpwr = s.usbpwr := rfl
@[simp] theorem orEir_otgcon (m : Byte) : (orEir s m).otgcon = s.otgcon := rfl
@[simp] theorem orEir_usben (m : Byte) : (orEir s m).usben = s.usben := rfl
@[simp] theorem orEir_pktdis (m : Byte) : (orEir s m).pktdis = s.pktdis := rfl
@[simp] theorem orEir_devaddr (m : Byte) : (orEir s m).devaddr = s.devaddr := rfl
@[simp] theorem orEir_bdtp1 (m : Byte) : (orEir s m).bdtp1 = s.bdtp1 := rfl
@[simp] theorem orEir_bdtp2 (m : Byte) : (orEir s m).bdtp2 = s.bdtp2 := rfl
@[simp] theorem orEir_bdtp3 (m : Byte) : (orEir s m).bdtp3 = s.bdtp3 := rfl
@[simp] theorem orEir_ie (m : Byte) : (orEir s m).ie = s.ie := rfl
@[simp] theorem orEir_urstif (m : Byte) : (orEir s m).urstif = s.urstif := rfl
@[simp] theorem orEir_stallif (m : Byte) : (orEir s m).stallif = s.stallif := rfl
@[simp] theorem orEir_eir (m : Byte) : (orEir s m).eir = s.eir ||| m := rfl
@[simp] theorem orEir_ep (m : Byte) : (orEir s m).ep = s.ep := rfl
@[simp] theorem orEir_ppbiRx (m : Byte) : (orEir s m).ppbiRx = s.ppbiRx := rfl
@[simp] theorem orEir_ppbiTx (m : Byte) : (orEir s m).ppbiTx = s.ppbiTx := rfl
@[simp] theorem orEir_fifo (m : Byte) : (orEir s m).fifo = s.fifo := rfl
@[simp] theorem orEir_mem (m : Byte) : (orEir s m).mem = s.mem := rfl
@[simp] theorem orEir_txn (m : Byte) : (orEir s m).txn = s.txn := rfl
@[simp] theorem orEir_resp (m : Byte) : (orEir s m).resp = s.resp := rfl
@[simp] theorem orEir_rdata (m : Byte) : (orEir s m).rdata = s.rdata := rfl
@[simp] theorem orEir_draws (m : Byte) : (orEir s m).draws = s.draws := rfl
@[simp] theorem orEir_inputs (m : Byte) : (orEir s m).inputs = s.inputs := rfl
@[simp] theorem orEir_fine (m : Byte) : (orEir s m).fine = s.fine := rfl
@[simp] theorem orEir_drv (m : Byte) : (orEir s m).drv = s.drv := rfl
@[simp] theorem orEir_call (m : Byte) : (orEir s m).call = s.call := rfl
@[simp] theorem orEir_pending (m : Byte) : (orEir s m).pending = s.pending := rfl

/-! ## `respond` -/

@[simp] theorem respond_cfg (r : Response) : (respond s r).cfg = s.cfg := rfl
@[simp] theorem respond_usbpwr (r : Response) : (respond s r).usbpwr = s.usbpwr := rfl
@[simp] theorem respond_otgcon (r : Response) : (respond s r).otgcon = s.otgcon := rfl
@[simp] theorem respond_usben (r : Response) : (respond s r).usben = s.usben := rfl
@[simp] theorem respond_pktdis (r : Response) : (respond s r).pktdis = s.pktdis := rfl
@[simp] theorem respond_devaddr (r : Response) : (respond s r).devaddr = s.devaddr := rfl
@[simp] theorem respond_bdtp1 (r : Response) : (respond s r).bdtp1 = s.bdtp1 := rfl
@[simp] theorem respond_bdtp2 (r : Response) : (respond s r).bdtp2 = s.bdtp2 := rfl
@[simp] theorem respond_bdtp3 (r : Response) : (respond s r).bdtp3 = s.bdtp3 := rfl
@[simp] theorem respond_ie (r : Response) : (respond s r).ie = s.ie := rfl
@[simp] theorem respond_urstif (r : Response) : (respond s r).urstif = s.urstif := rfl
@[simp] theorem respond_stallif (r : Response) : (respond s r).stallif = s.stallif := rfl
@[simp] theorem respond_eir (r : Response) : (respond s r).eir = s.eir := rfl
@[simp] theorem respond_ep (r : Response) : (respond s r).ep = s.ep := rfl
@[simp] theorem respond_ppbiRx (r : Response) : (respond s r).ppbiRx = s.ppbiRx := rfl
@[simp] theorem respond_ppbiTx (r : Response) : (respond s r).ppbiTx = s.ppbiTx := rfl
@[simp] theorem respond_fifo (r : Response) : (respond s r).fifo = s.fifo := rfl
@[simp] theorem respond_mem (r : Response) : (respond s r).mem = s.mem := rfl
@[simp] theorem respond_txn (r : Response) : (respond s r).txn = s.txn := rfl
@[simp] theorem respond_resp (r : Response) : (respond s r).resp = r := rfl
@[simp] theorem respond_rdata (r : Response) : (respond s r).rdata = s.rdata := rfl
@[simp] theorem respond_draws (r : Response) : (respond s r).draws = s.draws := rfl
@[simp] theorem respond_inputs (r : Response) : (respond s r).inputs = s.inputs := rfl
@[simp] theorem respond_fine (r : Response) : (respond s r).fine = s.fine := rfl
@[simp] theorem respond_drv (r : Response) : (respond s r).drv = s.drv := rfl
@[simp] theorem respond_call (r : Response) : (respond s r).call = s.call := rfl
@[simp] theorem respond_pending (r : Response) : (respond s r).pending = s.pending := rfl

/-! ## `finish` -/

@[simp] theorem finish_cfg (r : Response) : (finish s r).cfg = s.cfg := rfl
@[simp] theorem finish_usbpwr (r : Response) : (finish s r).usbpwr = s.usbpwr := rfl
@[simp] theorem finish_otgcon (r : Response) : (finish s r).otgcon = s.otgcon := rfl
@[simp] theorem finish_usben (r : Response) : (finish s r).usben = s.usben := rfl
@[simp] theorem finish_pktdis (r : Response) : (finish s r).pktdis = s.pktdis := rfl
@[simp] theorem finish_devaddr (r : Response) : (finish s r).devaddr = s.devaddr := rfl
@[simp] theorem finish_bdtp1 (r : Response) : (finish s r).bdtp1 = s.bdtp1 := rfl
@[simp] theorem finish_bdtp2 (r : Response) : (finish s r).bdtp2 = s.bdtp2 := rfl
@[simp] theorem finish_bdtp3 (r : Response) : (finish s r).bdtp3 = s.bdtp3 := rfl
@[simp] theorem finish_ie (r : Response) : (finish s r).ie = s.ie := rfl
@[simp] theorem finish_urstif (r : Response) : (finish s r).urstif = s.urstif := rfl
@[simp] theorem finish_stallif (r : Response) : (finish s r).stallif = s.stallif := rfl
@[simp] theorem finish_eir (r : Response) : (finish s r).eir = s.eir := rfl
@[simp] theorem finish_ep (r : Response) : (finish s r).ep = s.ep := rfl
@[simp] theorem finish_ppbiRx (r : Response) : (finish s r).ppbiRx = s.ppbiRx := rfl
@[simp] theorem finish_ppbiTx (r : Response) : (finish s r).ppbiTx = s.ppbiTx := rfl
@[simp] theorem finish_fifo (r : Response) : (finish s r).fifo = s.fifo := rfl
@[simp] theorem finish_mem (r : Response) : (finish s r).mem = s.mem := rfl
@[simp] theorem finish_txn (r : Response) : (finish s r).txn = none := rfl
@[simp] theorem finish_resp (r : Response) : (finish s r).resp = r := rfl
@[simp] theorem finish_rdata (r : Response) : (finish s r).rdata = s.rdata := rfl
@[simp] theorem finish_draws (r : Response) : (finish s r).draws = s.draws := rfl
@[simp] theorem finish_inputs (r : Response) : (finish s r).inputs = s.inputs := rfl
@[simp] theorem finish_fine (r : Response) : (finish s r).fine = s.fine := rfl
@[simp] theorem finish_drv (r : Response) : (finish s r).drv = s.drv := rfl
@[simp] theorem finish_call (r : Response) : (finish s r).call = s.call := rfl
@[simp] theorem finish_pending (r : Response) : (finish s r).pending = s.pending := rfl

/-! ## `setPhase` -/

@[simp] theorem setPhase_cfg (x : Txn) (p : Phase) : (setPhase s x p).cfg = s.cfg := rfl
@[simp] theorem setPhase_usbpwr (x : Txn) (p : Phase) : (setPhase s x p).usbpwr = s.usbpwr := rfl
@[simp] theorem setPhase_otgcon (x : Txn) (p : Phase) : (setPhase s x p).otgcon = s.otgcon := rfl
@[simp] theorem setPhase_usben (x : Txn) (p : Phase) : (setPhase s x p).usben = s.usben := rfl
@[simp] theorem setPhase_pktdis (x : Txn) (p : Phase) : (setPhase s x p).pktdis = s.pktdis := rfl
@[simp] theorem setPhase_devaddr (x : Txn) (p : Phase) : (setPhase s x p).devaddr = s.devaddr := rfl
@[simp] theorem setPhase_bdtp1 (x : Txn) (p : Phase) : (setPhase s x p).bdtp1 = s.bdtp1 := rfl
@[simp] theorem setPhase_bdtp2 (x : Txn) (p : Phase) : (setPhase s x p).bdtp2 = s.bdtp2 := rfl
@[simp] theorem setPhase_bdtp3 (x : Txn) (p : Phase) : (setPhase s x p).bdtp3 = s.bdtp3 := rfl
@[simp] theorem setPhase_ie (x : Txn) (p : Phase) : (setPhase s x p).ie = s.ie := rfl
@[simp] theorem setPhase_urstif (x : Txn) (p : Phase) : (setPhase s x p).urstif = s.urstif := rfl
@[simp] theorem setPhase_stallif (x : Txn) (p : Phase) : (setPhase s x p).stallif = s.stallif := rfl
@[simp] theorem setPhase_eir (x : Txn) (p : Phase) : (setPhase s x p).eir = s.eir := rfl
@[simp] theorem setPhase_ep (x : Txn) (p : Phase) : (setPhase s x p).ep = s.ep := rfl
@[simp] theorem setPhase_ppbiRx (x : Txn) (p : Phase) : (setPhase s x p).ppbiRx = s.ppbiRx := rfl
@[simp] theorem setPhase_ppbiTx (x : Txn) (p : Phase) : (setPhase s x p).ppbiTx = s.ppbiTx := rfl
@[simp] theorem setPhase_fifo (x : Txn) (p : Phase) : (setPhase s x p).fifo = s.fifo := rfl
@[simp] theorem setPhase_mem (x : Txn) (p : Phase) : (setPhase s x p).mem = s.mem := rfl
@[simp] theorem setPhase_txn (x : Txn) (p : Phase) : (setPhase s x p).txn = some { x with phase := p } := rfl
@[simp] theorem setPhase_resp (x : Txn) (p : Phase) : (setPhase s x p).resp = s.resp := rfl
@[simp] theorem setPhase_rdata (x : Txn) (p : Phase) : (setPhase s x p).rdata = s.rdata := rfl
@[simp] theorem setPhase_draws (x : Txn) (p : Phase) : (setPhase s x p).draws = s.draws := rfl
@[simp] theorem setPhase_inputs (x : Txn) (p : Phase) : (setPhase s x p).inputs = s.inputs := rfl
@[simp] theorem setPhase_fine (x : Txn) (p : Phase) : (setPhase s x p).fine = s.fine := rfl
@[simp] theorem setPhase_drv (x : Txn) (p : Phase) : (setPhase s x p).drv = s.drv := rfl
@[simp] theorem setPhase_call (x : Txn) (p : Phase) : (setPhase s x p).call = s.call := rfl
@[simp] theorem setPhase_pending (x : Txn) (p : Phase) : (setPhase s x p).pending = s.pending := rfl

/-! ## The pointers and the endpoint registers, read through their accessors -/

@[simp] theorem ppbi_setPpbi_self (e : Fin 16) (dir : Dir) (v : Bool) : ppbi (setPpbi s e dir v) e dir = v := by
  cases dir <;> simp [ppbi, setPpbi]

theorem ppbi_setPpbi_ne (e e' : Fin 16) (dir dir' : Dir) (v : Bool) (h : ¬(e' = e ∧ dir' = dir)) :
    ppbi (setPpbi s e dir v) e' dir' = ppbi s e' dir' := by
  cases dir <;> cases dir' <;> simp [ppbi, setPpbi] at h ⊢
  all_goals
    have hv : e.val ≠ e'.val := fun hv => h (Fin.ext hv.symm)
    simp [hv]

@[simp] theorem ep_setEp_self (e : Fin 16) (c : EpCtl) : (setEp s e c).ep[e] = c := by
  simp [setEp]

theorem ep_setEp_ne (e e' : Fin 16) (c : EpCtl) (h : e' ≠ e) : (setEp s e c).ep[e'] = s.ep[e'] := by
  have hv : e.val ≠ e'.val := fun hv => h (Fin.ext hv.symm)
  simp [setEp, hv]

/-- A pointer is read from the two pointer vectors alone. -/
theorem ppbi_congr (s t : State) (h1 : t.ppbiRx = s.ppbiRx) (h2 : t.ppbiTx = s.ppbiTx) (e : Fin 16) (dir : Dir) :
    ppbi t e dir = ppbi s e dir := by
  cases dir <;> simp [ppbi, h1, h2]

/-- The table base is read from the three base registers alone. -/
theorem bdtBase_congr (s t : State) (h1 : t.bdtp1 = s.bdtp1) (h2 : t.bdtp2 = s.bdtp2) (h3 : t.bdtp3 = s.bdtp3) :
    bdtBase t = bdtBase s := by
  simp [bdtBase, h1, h2, h3]

/-- A byte of memory is read from the memory alone. -/
theorem readByte_congr (s t : State) (h : t.mem = s.mem) (a : Nat) : readByte t a = readByte s a := by
  simp [readByte, h]

end Sys2Proof.Machine
end

