-- ==== Sys2Proof/Laws/Memory.lean ====
section
/-! SUPPORT. Memory: reading what was written, leaving the rest alone, and keeping the canonical form. -/

namespace Sys2Proof.Machine

/-! ## Canonical form -/

theorem memRising_mono {lo lo' : Nat} {m : Memory} (hle : lo' ≤ lo) (h : memRising lo m = true) :
    memRising lo' m = true := by
  cases m with
  | nil => rfl
  | cons c m =>
    simp only [memRising, Bool.and_eq_true, decide_eq_true_eq] at h ⊢
    exact ⟨⟨by omega, h.1.2⟩, h.2⟩

theorem memRising_memPut {lo : Nat} {m : Memory} {a : Nat} {v : Byte} (hm : memRising lo m = true) (hlo : lo ≤ a)
    (ha : a < 2 ^ 32) : memRising lo (memPut m a v) = true := by
  induction m generalizing lo with
  | nil => simp [memPut, memRising]; omega
  | cons c m ih =>
    simp only [memRising, Bool.and_eq_true, decide_eq_true_eq] at hm
    simp only [memPut]
    split
    · simp only [memRising, Bool.and_eq_true, decide_eq_true_eq]; exact ⟨⟨hlo, ha⟩, ⟨by omega, hm.1.2⟩, hm.2⟩
    · split
      · rename_i h1 h2
        simp only [memRising, Bool.and_eq_true, decide_eq_true_eq]; subst h2; exact ⟨⟨hlo, ha⟩, hm.2⟩
      · simp only [memRising, Bool.and_eq_true, decide_eq_true_eq]
        exact ⟨hm.1, ih hm.2 (by omega)⟩

theorem memWf_memPut {m : Memory} {a : Nat} {v : Byte} (hm : memWf m = true) (ha : a < 2 ^ 32) :
    memWf (memPut m a v) = true :=
  memRising_memPut hm (Nat.zero_le a) ha

/-- Writing bytes inside the 32-bit space keeps the canonical form. -/
theorem memWf_memPutBytes {m : Memory} {a : Nat} {bs : List Byte} (hm : memWf m = true) (ha : a + bs.length ≤ 2 ^ 32) :
    memWf (memPutBytes m a bs) = true := by
  induction bs generalizing m a with
  | nil => exact hm
  | cons b bs ih =>
    simp only [List.length_cons] at ha
    exact ih (memWf_memPut hm (by omega)) (by omega)

theorem memWf_reset : memWf State.reset.mem = true := rfl

/-! ## Reading after writing -/

theorem memGet_of_lt {lo a : Nat} {m : Memory} (hm : memRising lo m = true) (h : a < lo) : memGet m a = none := by
  induction m generalizing lo with
  | nil => rfl
  | cons c m ih =>
    simp only [memRising, Bool.and_eq_true, decide_eq_true_eq] at hm
    simp only [memGet]
    rw [if_neg (by omega)]
    exact ih hm.2 (by omega)

theorem memGet_memPut_self (m : Memory) (a : Nat) (v : Byte) : memGet (memPut m a v) a = some v := by
  induction m with
  | nil => simp [memPut, memGet]
  | cons c m ih =>
    simp only [memPut]
    split
    · simp [memGet]
    · split
      · simp [memGet]
      · rename_i h1 h2
        simp [memGet, ih, Ne.symm h2]

theorem memGet_memPut_ne (m : Memory) {a b : Nat} (v : Byte) (h : b ≠ a) : memGet (memPut m a v) b = memGet m b := by
  induction m with
  | nil => simp [memPut, memGet, Ne.symm h]
  | cons c m ih =>
    simp only [memPut]
    split
    · simp [memGet, Ne.symm h]
    · split
      · rename_i h1 h2
        simp [memGet, h2 ▸ Ne.symm h, Ne.symm h]
      · simp [memGet, ih]

/-- Bytes outside the written range stay. -/
theorem memGet_memPutBytes_outside (m : Memory) (a : Nat) (bs : List Byte) {b : Nat} (h : b < a ∨ a + bs.length ≤ b) :
    memGet (memPutBytes m a bs) b = memGet m b := by
  induction bs generalizing m a with
  | nil => rfl
  | cons c bs ih =>
    simp only [List.length_cons] at h
    rw [memPutBytes, ih _ _ (by omega), memGet_memPut_ne _ _ (by omega)]

/-- Bytes inside the written range are the written ones. -/
theorem memGet_memPutBytes_inside (m : Memory) (a : Nat) (bs : List Byte) {i : Nat} (h : i < bs.length) :
    memGet (memPutBytes m a bs) (a + i) = some bs[i] := by
  induction bs generalizing m a i with
  | nil => simp at h
  | cons c bs ih =>
    cases i with
    | zero => rw [memPutBytes, memGet_memPutBytes_outside _ _ _ (by omega)]; exact memGet_memPut_self _ _ _
    | succ i =>
      simp only [List.length_cons, Nat.add_lt_add_iff_right] at h
      rw [memPutBytes, show a + (i + 1) = a + 1 + i by omega, ih _ _ h]
      rfl

/-- Writing bytes one after another is writing them in one go. -/
theorem memPutBytes_append (m : Memory) (a : Nat) (bs cs : List Byte) :
    memPutBytes m a (bs ++ cs) = memPutBytes (memPutBytes m a bs) (a + bs.length) cs := by
  induction bs generalizing m a with
  | nil => rfl
  | cons b bs ih => simp only [List.cons_append, memPutBytes, ih, List.length_cons]; congr 1; omega

/-! ## Through the state -/

theorem readByte_storeBytes_outside (s : State) (a : Nat) (bs : List Byte) {b : Nat} (h : b < a ∨ a + bs.length ≤ b) :
    readByte (storeBytes s a bs) b = readByte s b := by
  simp [readByte, memGet_memPutBytes_outside _ _ _ h]

theorem readByte_storeBytes_inside (s : State) (a : Nat) (bs : List Byte) {i : Nat} (h : i < bs.length) :
    readByte (storeBytes s a bs) (a + i) = bs[i] := by
  simp [readByte, memGet_memPutBytes_inside _ _ _ h]

@[simp] theorem length_halfBytes (v : Half) : (halfBytes v).length = 2 := rfl

@[simp] theorem length_wordBytes (v : Word) : (wordBytes v).length = 4 := rfl

@[simp] theorem half_byteAt (v : Half) : half (byteAt 16 v 0) (byteAt 16 v 1) = v := by
  apply BitVec.eq_of_getLsbD_eq
  intro i hi
  simp only [half, byteAt, BitVec.getLsbD_append, BitVec.getLsbD_extractLsb']
  split
  · simp_all
  · have h8 : i - 8 < 8 := by omega
    simp [h8, show 8 + (i - 8) = i by omega]

@[simp] theorem word_byteAt (v : Word) : word (byteAt 32 v 0) (byteAt 32 v 1) (byteAt 32 v 2) (byteAt 32 v 3) = v := by
  apply BitVec.eq_of_getLsbD_eq
  intro i hi
  simp only [word, byteAt, BitVec.getLsbD_append, BitVec.getLsbD_extractLsb']
  split
  · simp_all
  · split
    · simp_all [show 8 + (i - 8) = i by omega]
    · split
      · simp_all [show 16 + (i - 8 - 8) = i by omega]
      · have h8 : i - 8 - 8 - 8 < 8 := by omega
        simp [h8, show 24 + (i - 8 - 8 - 8) = i by omega]

theorem readHalf_storeHalf (s : State) (a : Nat) (v : Half) : readHalf (storeHalf s a v) a = v := by
  have h0 := readByte_storeBytes_inside s a (halfBytes v) (i := 0) (by simp)
  have h1 := readByte_storeBytes_inside s a (halfBytes v) (i := 1) (by simp)
  simp only [readHalf, storeHalf]
  simp only [Nat.add_zero] at h0
  rw [h0, h1]
  exact half_byteAt v

theorem readWord_storeWord (s : State) (a : Nat) (v : Word) : readWord (storeWord s a v) a = v := by
  have h0 := readByte_storeBytes_inside s a (wordBytes v) (i := 0) (by simp)
  have h1 := readByte_storeBytes_inside s a (wordBytes v) (i := 1) (by simp)
  have h2 := readByte_storeBytes_inside s a (wordBytes v) (i := 2) (by simp)
  have h3 := readByte_storeBytes_inside s a (wordBytes v) (i := 3) (by simp)
  simp only [readWord, storeWord]
  simp only [Nat.add_zero] at h0
  rw [h0, h1, h2, h3]
  exact word_byteAt v

theorem readHalf_congr {s t : State} {a : Nat} (h0 : readByte t a = readByte s a)
    (h1 : readByte t (a + 1) = readByte s (a + 1)) : readHalf t a = readHalf s a := by
  simp [readHalf, h0, h1]

/-- The bytes of a word one by one. -/
theorem getElem_wordBytes (w : Word) (i : Nat) (h : i < (wordBytes w).length) : (wordBytes w)[i] = byteAt 32 w i := by
  simp only [length_wordBytes] at h
  match i, h with
  | 0, _ => rfl
  | 1, _ => rfl
  | 2, _ => rfl
  | 3, _ => rfl

/-- A half-word outside the written bytes stays. -/
theorem readHalf_storeBytes_outside {s : State} {a b : Nat} {bs : List Byte} (h : b + 2 ≤ a ∨ a + bs.length ≤ b) :
    readHalf (storeBytes s a bs) b = readHalf s b :=
  readHalf_congr (readByte_storeBytes_outside _ _ _ (by omega)) (readByte_storeBytes_outside _ _ _ (by omega))

/-- A word outside the written bytes stays. -/
theorem readWord_storeBytes_outside {s : State} {a b : Nat} {bs : List Byte} (h : b + 4 ≤ a ∨ a + bs.length ≤ b) :
    readWord (storeBytes s a bs) b = readWord s b := by
  simp only [readWord]
  rw [readByte_storeBytes_outside _ _ _ (by omega), readByte_storeBytes_outside _ _ _ (by omega),
    readByte_storeBytes_outside _ _ _ (by omega), readByte_storeBytes_outside _ _ _ (by omega)]

theorem length_readBytesAt (s : State) (a n : Nat) : (readBytesAt s a n).length = n := by
  induction n generalizing a with
  | zero => rfl
  | succ n ih => simp [readBytesAt, ih]

theorem readBytesAt_succ (s : State) (a n : Nat) :
    readBytesAt s a (n + 1) = readBytesAt s a n ++ [readByte s (a + n)] := by
  induction n generalizing a with
  | zero => rfl
  | succ n ih => rw [readBytesAt, ih (a + 1)]; simp [readBytesAt, show a + 1 + n = a + (n + 1) by omega]

/-- The bytes of a range are read from the memory alone. -/
theorem readBytesAt_congr (s t : State) (h : t.mem = s.mem) (a n : Nat) : readBytesAt t a n = readBytesAt s a n := by
  induction n generalizing a with
  | zero => rfl
  | succ n ih => rw [readBytesAt, readBytesAt, ih, readByte_congr s t h]

/-- A word is read from the memory alone. -/
theorem readWord_congr (s t : State) (h : t.mem = s.mem) (a : Nat) : readWord t a = readWord s a := by
  simp [readWord, readByte_congr s t h]

/-! ## Addresses of the table -/

theorem bdIndex_lt (ep : Fin 16) (dir : Dir) (odd : Bool) : bdIndex ep dir odd < 64 := by
  have := ep.isLt
  cases dir <;> cases odd <;> simp [bdIndex, natOfBool, dirBit] <;> omega

/-- The table base is a multiple of 512 (10_state.md R50). -/
theorem bdtBase_mod (s : State) : (bdtBase s).toNat % 512 = 0 := by
  have h : (bdtBase s).toNat = ((s.bdtp3 ++ s.bdtp2 ++ s.bdtp1).toNat <<< 9) ||| 0 := by
    simp only [bdtBase, BitVec.toNat_append, BitVec.toNat_ofNat, Nat.zero_mod]
  rw [h, Nat.or_zero, Nat.shiftLeft_eq]
  omega

/-- A descriptor of a table at a multiple of 512 lies inside the 32-bit space (20_memory.md R62). -/
theorem bdAddr_lt {base : Word} (h : base.toNat % 512 = 0) (ep : Fin 16) (dir : Dir) (odd : Bool) :
    bdAddr base ep dir odd + 8 ≤ 2 ^ 32 := by
  have h1 := bdIndex_lt ep dir odd
  have h2 := base.isLt
  simp only [bdAddr]
  omega

end Sys2Proof.Machine
end

