-- ==== Sys2Proof/Laws/Ops.lean ====
section
/-! SUPPORT. What each shared operation can do, said once: the lemmas that later proofs cite instead of unfolding it. -/

namespace Sys2Proof.Machine

/-! ## Sequencing -/

@[simp] theorem andThen_of_next {α β : Type} (a : α) (f : α → Host.Outcome β Fault Refusal) :
    andThen (.next a) f = f a := rfl

/-- A sequence goes on only through both parts. -/
theorem andThen_next_iff {α β : Type} (o : Host.Outcome α Fault Refusal) (f : α → Host.Outcome β Fault Refusal) (b : β) :
    andThen o f = .next b ↔ ∃ a, o = .next a ∧ f a = .next b := by
  cases o <;> simp [andThen]

/-! ## Registers -/

theorem readReg_next_iff (b : Byte) (s t : State) : readReg b s = .next t ↔ t = setRdata s (readValue b) := by
  simp [readReg, eq_comm]

theorem readDrawn_next_iff (f : State → Byte → Byte) (s t : State) :
    readDrawn f s = .next t ↔
      t = { s with rdata := readValue (f s (Config.freeBits s.draws)), draws := s.draws + 1 } := by
  simp [readDrawn, eq_comm]

/-- A register write stores only when no reserved bit is 1. -/
theorem writeReg_next_iff (mask : Byte) (v : Word) (f : State → Byte → State) (s t : State) :
    writeReg mask v f s = .next t ↔ lowByte v &&& mask = 0#8 ∧ t = f s (lowByte v) := by
  simp only [writeReg]
  split
  · simp_all
  · simp_all [eq_comm]

theorem writeReg_zero_mask (v : Word) (f : State → Byte → State) (s : State) :
    writeReg 0#8 v f s = .next (f s (lowByte v)) := by
  simp [writeReg]

/-- The value of a read is its byte (40_register_ops.md R118). -/
theorem toNat_readValue (b : Byte) : (readValue b).toNat = b.toNat := by
  simp only [readValue, BitVec.toNat_append, BitVec.toNat_ofNat, Nat.zero_mod, Nat.zero_shiftLeft, Nat.zero_or]

theorem readValue_lt (b : Byte) : (readValue b).toNat < 256 := by
  rw [toNat_readValue]
  exact b.isLt

theorem getLsbD_readValue (b : Byte) (i : Nat) : (readValue b).getLsbD i = b.getLsbD i := by
  rw [BitVec.getLsbD, BitVec.getLsbD, toNat_readValue]

theorem getLsbD_lowByte (v : Word) (i : Nat) : (lowByte v).getLsbD i = (decide (i < 8) && v.getLsbD i) := by
  simp [lowByte]

/-! ## Reserved bits -/

/-- A write whose reserved bits are 0 has its effect. -/
theorem writeReg_of_clear {mask : Byte} {v : Word} (f : State → Byte → State) (s : State) (h : lowByte v &&& mask = 0#8) :
    writeReg mask v f s = .next (f s (lowByte v)) := by
  simp [writeReg, h]

/-- A write with a 1 in a reserved bit is refused (U6). -/
theorem writeReg_of_set {mask : Byte} {v : Word} (f : State → Byte → State) (s : State) (h : lowByte v &&& mask ≠ 0#8) :
    writeReg mask v f s = .refused .reservedRegisterBit := by
  simp [writeReg, h]

theorem and_eq_zero_iff (b m : Byte) : b &&& m = 0#8 ↔ ∀ i, i < 8 → m.getLsbD i = true → b.getLsbD i = false := by
  constructor
  · intro h i hi hm
    have : (b &&& m).getLsbD i = false := by rw [h]; simp
    rw [BitVec.getLsbD_and, hm] at this
    simpa using this
  · intro h
    apply BitVec.eq_of_getLsbD_eq
    intro i hi
    rw [BitVec.getLsbD_and]
    cases hm : m.getLsbD i
    · simp
    · rw [h i hi hm]; simp

theorem extract_eq_zero_iff (v : Word) (a n : Nat) : v.extractLsb' a n = 0#n ↔ ∀ i, i < n → v.getLsbD (a + i) = false := by
  constructor
  · intro h i hi
    have : (v.extractLsb' a n).getLsbD i = false := by rw [h]; simp
    simpa [BitVec.getLsbD_extractLsb', hi] using this
  · intro h
    apply BitVec.eq_of_getLsbD_eq
    intro i hi
    rw [BitVec.getLsbD_extractLsb', h i hi]
    simp

/-- Which bits of a written value are reserved, for a mask of `n` bits from bit `a` up. -/
theorem lowByte_and_mask {mask : Byte} {a n : Nat} (h : ∀ i, i < 8 → mask.getLsbD i = (decide (a ≤ i) && decide (i < a + n)))
    (han : a + n ≤ 8) (v : Word) : lowByte v &&& mask = 0#8 ↔ v.extractLsb' a n = 0#n := by
  rw [and_eq_zero_iff, extract_eq_zero_iff]
  constructor
  · intro hv i hi
    have := hv (a + i) (by omega) (by rw [h _ (by omega)]; simp [hi])
    rwa [getLsbD_lowByte, decide_eq_true (by omega), Bool.true_and] at this
  · intro hv i hi hm
    rw [h i hi] at hm
    simp only [Bool.and_eq_true, decide_eq_true_eq] at hm
    have := hv (i - a) (by omega)
    rw [show a + (i - a) = i by omega] at this
    rw [getLsbD_lowByte, this, Bool.and_false]

theorem bitAt_lowByte (v : Word) {i : Nat} (h : i < 8) : bitAt 8 (lowByte v) i = v.getLsbD i := by
  rw [bitAt, getLsbD_lowByte, decide_eq_true h, Bool.true_and]

/-! ## Memory accesses of software -/

theorem length_storeValue (v : Word) (w : Width) : (storeValue v w).length = widthBytes w := by
  cases w <;> rfl

/-- A read of software goes on only inside the address space. -/
theorem softRead_next_iff (w : Width) (a : Nat) (s t : State) :
    softRead w a s = .next t ↔ a + widthBytes w ≤ 2 ^ 32 ∧ t = setRdata s (loadValue s a w) := by
  unfold softRead
  split
  · simp; omega
  · simp [eq_comm]; omega

/-- A write of software goes on only inside the address space. -/
theorem softWrite_next_iff (w : Width) (a : Nat) (v : Word) (s t : State) :
    softWrite w a v s = .next t ↔ a + widthBytes w ≤ 2 ^ 32 ∧ t = storeBytes s a (storeValue v w) := by
  unfold softWrite
  split
  · simp; omega
  · simp [eq_comm]; omega

/-- A memory access of software given as an input. -/
theorem memAccess_next_iff (x : MemAccess) (s t : State) :
    memAccess x s = .next t ↔
      x.addr.toNat + widthBytes x.width ≤ 2 ^ 32 ∧
        t = if x.write then storeBytes s x.addr.toNat (storeValue x.value x.width)
            else setRdata s (loadValue s x.addr.toNat x.width) := by
  unfold memAccess
  split
  · exact softWrite_next_iff ..
  · exact softRead_next_iff ..

/-! ## Descriptor writes keep the canonical form -/

theorem memWf_storeHalf {s : State} {a : Nat} {v : Half} (h : memWf s.mem = true) (ha : a + 2 ≤ 2 ^ 32) :
    memWf (storeHalf s a v).mem = true := by
  simpa using memWf_memPutBytes (bs := halfBytes v) h ha

theorem memWf_storeWord {s : State} {a : Nat} {v : Word} (h : memWf s.mem = true) (ha : a + 4 ≤ 2 ^ 32) :
    memWf (storeWord s a v).mem = true := by
  simpa using memWf_memPutBytes (bs := wordBytes v) h ha

/-- The descriptors of the table the registers select lie inside the address space. -/
theorem bdAddr_bdtBase_lt (s : State) (ep : Fin 16) (dir : Dir) (odd : Bool) :
    bdAddr (bdtBase s) ep dir odd + 8 ≤ 2 ^ 32 :=
  bdAddr_lt (bdtBase_mod s) ep dir odd

/-! ## Nothing but memory changes in a memory write -/

theorem storeBytes_frame (s : State) (a : Nat) (bs : List Byte) :
    storeBytes s a bs = { s with mem := (storeBytes s a bs).mem } := rfl

theorem storeHalf_frame (s : State) (a : Nat) (v : Half) : storeHalf s a v = { s with mem := (storeHalf s a v).mem } := rfl

theorem storeWord_frame (s : State) (a : Nat) (v : Word) : storeWord s a v = { s with mem := (storeWord s a v).mem } := rfl

/-! ## Software's writes one after the other -/

theorem storeValue_w16 (v : Half) : storeValue (v.setWidth 32) .w16 = halfBytes v := by
  simp only [storeValue, halfBytes, List.cons.injEq, and_true]
  constructor <;> apply BitVec.eq_of_getLsbD_eq <;> intro i hi <;>
    simp only [byteAt, BitVec.getLsbD_extractLsb', BitVec.getLsbD_setWidth]
  · simp [show i < 32 by omega]
  · simp [show 8 * 1 + i < 32 by omega]

theorem storeValue_w8 (b : Byte) : storeValue (b.setWidth 32) .w8 = [b] := by
  simp only [storeValue, List.cons.injEq, and_true]
  apply BitVec.eq_of_getLsbD_eq
  intro i hi
  simp only [byteAt, BitVec.getLsbD_extractLsb', BitVec.getLsbD_setWidth]
  simp [show i < 32 by omega, hi]

theorem memAccess_write16 {a : Nat} (h : a + 2 ≤ 2 ^ 32) (v : Half) (s : State) :
    memAccess (write16 a v) s = .next (storeHalf s a v) := by
  have ha : (BitVec.ofNat 32 a).toNat = a := by simp; omega
  refine (memAccess_next_iff ..).2 ⟨by simpa [write16, widthBytes, ha] using h, ?_⟩
  simp only [write16, ha, storeValue_w16, if_true]
  rfl

theorem memAccess_write32 {a : Nat} (h : a + 4 ≤ 2 ^ 32) (v : Word) (s : State) :
    memAccess (write32 a v) s = .next (storeWord s a v) := by
  have ha : (BitVec.ofNat 32 a).toNat = a := by simp; omega
  refine (memAccess_next_iff ..).2 ⟨by simpa [write32, widthBytes, ha] using h, ?_⟩
  simp only [write32, ha, storeValue, if_true]
  rfl

/-- No memory access looks at the writes still to make. -/
theorem memAccess_withPending (x : MemAccess) (s : State) (p : List MemAccess) :
    memAccess x { s with pending := p } = andThen (memAccess x s) fun t => .next { t with pending := p } := by
  simp only [memAccess, softRead, softWrite]
  repeat' split
  all_goals rfl

theorem allWrites_append (ws vs : List MemAccess) (s : State) :
    allWrites (ws ++ vs) s = andThen (allWrites ws s) (allWrites vs) := by
  induction ws generalizing s with
  | nil => rfl
  | cons w ws ih =>
    simp only [List.cons_append, allWrites]
    cases memAccess w s with
    | next t => exact ih t
    | fault e => rfl
    | refused e => rfl

/-- The writes of a hand-over operation made one by one, with nothing in between, come to all of them. -/
theorem writesRun_eq (ws : List MemAccess) (s : State) {k : Nat} (h : ws.length ≤ k) :
    writesRun k { s with pending := ws } = andThen (allWrites ws s) fun t => .next { t with pending := [] } := by
  induction ws generalizing s k with
  | nil => cases k <;> rfl
  | cons w ws ih =>
    obtain ⟨k, rfl⟩ : ∃ m, k = m + 1 := ⟨k - 1, by simp at h; omega⟩
    have hw : nextWrite { s with pending := w :: ws } = andThen (memAccess w s) fun t => .next { t with pending := ws } :=
      memAccess_withPending w s ws
    rw [writesRun, if_neg (by simp), hw, allWrites]
    cases memAccess w s with
    | next t => exact ih t (by simpa using h)
    | fault e => rfl
    | refused e => rfl

/-- A hand-over operation and then software's turns in it alone: all of its writes, in either form. -/
theorem writesRun_handOver (ws : List MemAccess) (s : State) {k : Nat} (hp : s.pending = [])
    (h : ws.length ≤ k + 1) :
    andThen (handOver ws s) (writesRun k) = allWrites ws s := by
  have hs : ({ s with pending := [] } : State) = s := by rw [← hp]
  have he : (andThen (allWrites ws s) fun t => .next { t with pending := [] }) = allWrites ws s := by
    have hn := fun s => (writesRun_eq ws s (Nat.le_refl _)).symm
    have hm : ∀ (ws : List MemAccess) (s t : State), allWrites ws s = .next t → t.pending = s.pending := by
      intro ws
      induction ws with
      | nil => intro s t h; cases h; rfl
      | cons w ws ih =>
        intro s t h
        obtain ⟨u, hu, h⟩ := (andThen_next_iff _ _ _).1 h
        rw [ih _ _ h]
        obtain ⟨-, rfl⟩ := (memAccess_next_iff w s u).1 hu
        split <;> rfl
    cases ha : allWrites ws s with
    | next t => have := hm ws s t ha; rw [hp] at this; simp only [andThen_of_next, ← this]
    | fault e => rfl
    | refused e => rfl
  unfold handOver
  split
  · cases ws with
    | nil => rw [← hs] at he ⊢; cases k <;> rfl
    | cons w ws =>
      have := writesRun_eq (w :: ws) s (k := k + 1) h
      rw [writesRun, if_neg (by simp)] at this
      rw [this, he]
  · cases ha : allWrites ws s with
    | next t =>
      rw [ha] at he
      simp only [andThen_of_next, Host.Outcome.next.injEq] at he
      have hq : t.pending = [] := by rw [← he]
      cases k <;> simp [writesRun, hq]
    | fault e => rfl
    | refused e => rfl

/-- A descriptor after the writes of ARM or ARMSTALL. -/
def armedState (bd : Nat) (n : Half) (a : Word) (flags : Half) (s : State) : State :=
  storeHalf (storeWord (storeHalf s (bd + 2) n) (bd + 4) a) bd flags

/-- A descriptor after the writes of BDINIT. -/
def initState (bd : Nat) (s : State) : State :=
  storeHalf (storeHalf s bd 0#16) (bd + 2) 0#16

theorem allWrites_armWrites {bd : Nat} (h : bd + 8 ≤ 2 ^ 32) (n : Half) (a : Word) (flags : Half) (s : State) :
    allWrites (armWrites bd n a flags) s = .next (armedState bd n a flags s) := by
  simp only [armWrites, allWrites]
  rw [memAccess_write16 (by omega), andThen_of_next, memAccess_write32 (by omega), andThen_of_next, memAccess_write16 (by omega)]
  rfl

theorem allWrites_initWrites {bd : Nat} (h : bd + 8 ≤ 2 ^ 32) (s : State) :
    allWrites (initWrites bd) s = .next (initState bd s) := by
  simp only [initWrites, allWrites]
  rw [memAccess_write16 (by omega), andThen_of_next, memAccess_write16 (by omega)]
  rfl

theorem armedState_frame (bd : Nat) (n : Half) (a : Word) (flags : Half) (s : State) :
    armedState bd n a flags s = { s with mem := (armedState bd n a flags s).mem } := rfl

theorem initState_frame (bd : Nat) (s : State) : initState bd s = { s with mem := (initState bd s).mem } := rfl

@[simp] theorem bdtBase_armedState (bd : Nat) (n : Half) (a : Word) (flags : Half) (s : State) :
    bdtBase (armedState bd n a flags s) = bdtBase s := rfl

@[simp] theorem bdtBase_initState (bd : Nat) (s : State) : bdtBase (initState bd s) = bdtBase s := rfl

/-! ## What a descriptor write leaves -/

theorem ownedByEngine_eq (s : State) (ep : Fin 16) (dir : Dir) (odd : Bool) :
    ownedByEngine s ep dir odd = bitAt 16 (readHalf s (bdAddr (bdtBase s) ep dir odd)) 7 := by
  simp only [ownedByEngine, bitAt, readHalf, half, BitVec.getLsbD_append]
  rfl

/-- The descriptor after ARM, ARMSTALL or the stall override (30_encoding.md R108). -/
theorem armedState_reads (bd : Nat) (n : Half) (a : Word) (flags : Half) (s : State) :
    readHalf (armedState bd n a flags s) bd = flags ∧ readHalf (armedState bd n a flags s) (bd + 2) = n ∧
    readWord (armedState bd n a flags s) (bd + 4) = a ∧
    ∀ b, (b < bd ∨ bd + 8 ≤ b) → readByte (armedState bd n a flags s) b = readByte s b := by
  simp only [armedState]
  refine ⟨readHalf_storeHalf _ _ _, ?_, ?_, ?_⟩
  · rw [storeHalf, readHalf_storeBytes_outside (by simp), storeWord, readHalf_storeBytes_outside (by simp),
      readHalf_storeHalf]
  · rw [storeHalf, readWord_storeBytes_outside (by rw [length_halfBytes]; omega), readWord_storeWord]
  · intro b hb
    rw [storeHalf, readByte_storeBytes_outside _ _ _ (by simp; omega), storeWord,
      readByte_storeBytes_outside _ _ _ (by simp; omega), storeHalf, readByte_storeBytes_outside _ _ _ (by simp; omega)]

/-- A descriptor after RECLAIM (41_descriptor_ops.md R166), or any write of two bytes. -/
theorem storeHalf_reads (a : Nat) (v : Half) (s : State) :
    readHalf (storeHalf s a v) a = v ∧ ∀ b, (b < a ∨ a + 2 ≤ b) → readByte (storeHalf s a v) b = readByte s b := by
  refine ⟨readHalf_storeHalf _ _ _, ?_⟩
  intro b hb
  exact readByte_storeBytes_outside _ _ _ (by simp; omega)

/-- One descriptor after BDINIT (41_descriptor_ops.md R167). -/
theorem initState_reads (bd : Nat) (s : State) :
    readHalf (initState bd s) bd = 0#16 ∧ readHalf (initState bd s) (bd + 2) = 0#16 ∧
    ∀ b, (b < bd ∨ bd + 4 ≤ b) → readByte (initState bd s) b = readByte s b := by
  simp only [initState]
  refine ⟨?_, readHalf_storeHalf _ _ _, ?_⟩
  · rw [storeHalf, readHalf_storeBytes_outside (by simp), readHalf_storeHalf]
  · intro b hb
    rw [storeHalf, readByte_storeBytes_outside _ _ _ (by simp; omega), storeHalf,
      readByte_storeBytes_outside _ _ _ (by simp; omega)]

/-! ## The checks of a token -/

/-- The checks let a token pass exactly when none of them applies (42_bus_transactions.md R193). -/
theorem tokenChecks_go_iff (s : State) (k : Kind) (addr : BitVec 7) (ep : Fin 16) :
    tokenChecks s k addr ep = .go ↔
      active s = true ∧ addr = s.devaddr ∧ enabled s.ep[ep] k = true ∧ ¬(s.ep[ep].epstall = true ∧ s.ep[ep].ephshk = false) ∧
        s.pktdis = false ∧ s.fifo.length < s.cfg.fifoDepth ∧ (k = .setup ∨ s.ep[ep].epstall = false) := by
  simp only [tokenChecks]
  constructor
  · intro h
    repeat' split at h
    all_goals simp_all
    rename_i h7
    cases k <;> simp_all
  · rintro ⟨h1, h2, h3, h4, h5, h6, h7⟩
    simp only [h1, h2, h3, h5]
    rw [if_neg (by simp), if_neg (by simp), if_neg (by simp), if_neg h4, if_neg (by simp), if_neg (by omega)]
    rw [if_neg]
    rintro ⟨hk, he⟩
    rcases h7 with h7 | h7
    · exact hk h7
    · rw [h7] at he; cases he

/-! ## The completion step -/

/-- The completion step changes memory, one pointer, the queue and PKTDIS, and nothing else (43_completion.md R231). -/
theorem retireOp_frame (base : Word) (ep : Fin 16) (dir : Dir) (odd : Bool) (n : Half) (t : Bool) (k : Kind) (s : State) :
    retireOp base ep dir odd n t k s =
      { s with
        mem := memPutBytes s.mem (bdAddr base ep dir odd) (wordBytes (word0 n (resultFlags t k)))
        ppbiRx := (setPpbi s ep dir (!odd)).ppbiRx
        ppbiTx := (setPpbi s ep dir (!odd)).ppbiTx
        fifo := s.fifo ++ [{ ep := ep, dir := dir, odd := odd }]
        pktdis := s.pktdis || decide (k = .setup) } := by
  cases dir <;> rfl

@[simp] theorem ppbi_retireOp_self (base : Word) (ep : Fin 16) (dir : Dir) (odd : Bool) (n : Half) (t : Bool) (k : Kind)
    (s : State) : ppbi (retireOp base ep dir odd n t k s) ep dir = !odd := by
  rw [← ppbi_setPpbi_self s ep dir (!odd)]
  exact ppbi_congr _ _ (by rw [retireOp_frame]) (by rw [retireOp_frame]) _ _

theorem ppbi_retireOp_ne (base : Word) (ep : Fin 16) (dir : Dir) (odd : Bool) (n : Half) (t : Bool) (k : Kind) (s : State)
    (ep' : Fin 16) (dir' : Dir) (h : ¬(ep' = ep ∧ dir' = dir)) :
    ppbi (retireOp base ep dir odd n t k s) ep' dir' = ppbi s ep' dir' := by
  rw [← ppbi_setPpbi_ne s ep ep' dir dir' (!odd) h]
  exact ppbi_congr _ _ (by rw [retireOp_frame]) (by rw [retireOp_frame]) _ _

end Sys2Proof.Machine
end

