-- ==== Sys2Proof/Laws/Driver.lean ====
section
/-! SUPPORT. The driver: its control blocks, what each access of a procedure does, and the two ways of reasoning about a whole
procedure: every return meets a condition, and a run access by access is the run as one step. -/

namespace Sys2Proof.Machine

/-! ## Control blocks -/

@[simp] theorem ecbOf_putEcb_self (d : Driver) (ep : Fin 16) (dir : Dir) (e : Option Ecb) :
    ecbOf (putEcb d ep dir e) ep dir = e := by
  cases dir <;> simp [ecbOf, putEcb]

theorem ecbOf_putEcb_ne (d : Driver) (ep : Fin 16) (dir : Dir) (e : Option Ecb) (ep' : Fin 16) (dir' : Dir)
    (h : ¬(ep' = ep ∧ dir' = dir)) : ecbOf (putEcb d ep dir e) ep' dir' = ecbOf d ep' dir' := by
  cases dir <;> cases dir' <;> simp_all [ecbOf, putEcb]
  · rw [Vector.getElem_set_ne]; omega
  · rw [Vector.getElem_set_ne]; omega

@[simp] theorem table_putEcb (d : Driver) (ep : Fin 16) (dir : Dir) (e : Option Ecb) : (putEcb d ep dir e).table = d.table := by
  cases dir <;> rfl

@[simp] theorem table_updateEcb (ep : Fin 16) (dir : Dir) (f : Ecb → Ecb) (d : Driver) :
    (updateEcb ep dir f d).table = d.table := by
  unfold updateEcb; split <;> simp

/-- An update of a control block reaches that block alone. -/
theorem ecbOf_updateEcb (ep : Fin 16) (dir : Dir) (f : Ecb → Ecb) (d : Driver) (ep' : Fin 16) (dir' : Dir) :
    ecbOf (updateEcb ep dir f d) ep' dir' = if ep' = ep ∧ dir' = dir then (ecbOf d ep' dir').map f else ecbOf d ep' dir' := by
  unfold updateEcb
  split
  · rename_i h
    split
    · rename_i hh; obtain ⟨rfl, rfl⟩ := hh; simp [h]
    · rfl
  · rename_i e h
    split
    · rename_i hh; obtain ⟨rfl, rfl⟩ := hh; simp [h]
    · exact ecbOf_putEcb_ne _ _ _ _ _ _ ‹_›

/-! ## A condition on every control block -/

/-- Every control block of the driver meets a condition. -/
def everyEcb (P : Fin 16 → Dir → Ecb → Prop) (d : Driver) : Prop :=
  ∀ ep dir e, ecbOf d ep dir = some e → P ep dir e

theorem everyEcb_initial (P : Fin 16 → Dir → Ecb → Prop) (table : Word) :
    everyEcb P { Driver.initial with table := table } := by
  intro ep dir e h
  cases dir <;> simp [ecbOf, Driver.initial] at h

/-- A block that meets the condition put in its place, or none, keeps it. -/
theorem everyEcb_putEcb {P : Fin 16 → Dir → Ecb → Prop} {d : Driver} (h : everyEcb P d) (ep : Fin 16) (dir : Dir)
    {e : Option Ecb} (he : ∀ e', e = some e' → P ep dir e') : everyEcb P (putEcb d ep dir e) := by
  intro ep' dir' e' h'
  by_cases hh : ep' = ep ∧ dir' = dir
  · obtain ⟨rfl, rfl⟩ := hh
    rw [ecbOf_putEcb_self] at h'
    exact he _ h'
  · rw [ecbOf_putEcb_ne _ _ _ _ _ _ hh] at h'
    exact h _ _ _ h'

/-- An update that keeps the condition of its block keeps it of every block. -/
theorem everyEcb_updateEcb {P : Fin 16 → Dir → Ecb → Prop} {d : Driver} (h : everyEcb P d) (ep : Fin 16) (dir : Dir)
    {f : Ecb → Ecb} (hf : ∀ e, P ep dir e → P ep dir (f e)) : everyEcb P (updateEcb ep dir f d) := by
  unfold updateEcb
  split
  · exact h
  · rename_i e he
    exact everyEcb_putEcb h ep dir fun e' h' => by cases h'; exact hf _ (h _ _ _ he)

/-! ## What a procedure returns, whatever its accesses answer -/

/-- Every return of a procedure meets a condition, whatever its accesses answer. -/
def returnsAll (P : Driver → Prop) : Procedure → Prop
  | .returns d => P d
  | .access _ next => ∀ v, returnsAll P (next v)

theorem returnsAll_afterAnswers {P : Driver → Prop} {p : Procedure} (h : returnsAll P p) (vs : List Word) :
    returnsAll P (afterAnswers p vs) := by
  induction vs generalizing p with
  | nil => cases p <;> exact h
  | cons v vs ih =>
    cases p with
    | returns d => exact h
    | access a next => exact ih (h v)

/-- No access looks at the driver's state or at the call in progress. -/
theorem runAccess_withSoftware (a : Access) (s : State) (d : Driver) (c : Option CallInProgress) :
    runAccess a { s with drv := d, call := c } = andThen (runAccess a s) fun t => .next { t with drv := d, call := c } := by
  cases a with
  | readMem w a => simp only [runAccess, softRead]; split <;> rfl
  | writeMem w a v => simp only [runAccess, softWrite]; split <;> rfl
  | readReg r =>
    cases r <;> first | rfl | (simp only [runAccess, readInstr, exec, execRdStat]; split <;> rfl)
  | writeReg r v =>
    cases r <;> simp only [runAccess, writeInstr, exec, execWrIr, execWrCon, execWrStat, execWrOtgcon, execWrPwrc, execWrIe,
      execWrEir, execWrAddr, execWrBdtp1, execWrBdtp2, execWrBdtp3, execWrEp, writeReg] <;> split <;> rfl

/-- No access touches the driver's state or the call in progress. -/
theorem runAccess_drv {a : Access} {s t : State} (h : runAccess a s = .next t) : t.drv = s.drv ∧ t.call = s.call := by
  have hs := runAccess_withSoftware a s s.drv s.call
  rw [show ({ s with drv := s.drv, call := s.call } : State) = s from rfl, h, andThen_of_next] at hs
  simp only [Host.Outcome.next.injEq] at hs
  rw [hs]
  exact ⟨rfl, rfl⟩

/-- The driver's state after a call run to its end is one the procedure returns. -/
theorem runProcedure_drv {P : Driver → Prop} {p : Procedure} (hp : returnsAll P p) {s t : State}
    (h : runProcedure p s = .next t) : P t.drv := by
  induction p generalizing s with
  | returns d => simp only [runProcedure, Host.Outcome.next.injEq] at h; subst h; exact hp
  | access a next ih =>
    obtain ⟨u, -, h⟩ := (andThen_next_iff _ _ _).1 h
    exact ih _ (hp _) h

/-- A turn of software in a call in progress leaves the driver's state, or sets it to one the procedure returns. -/
theorem callTurn_drv {P : Driver → Prop} {c : CallInProgress} {s t : State}
    (hp : ∀ n, returnsAll P (procedure n c.call s.drv)) (h : callTurn c s = .next t) : t.drv = s.drv ∨ P t.drv := by
  unfold callTurn at h
  have hr := returnsAll_afterAnswers (hp (c.answers.length + 1)) c.answers
  split at h
  · rename_i d hd
    rw [hd] at hr
    simp only [Host.Outcome.next.injEq] at h; subst h; exact .inr hr
  · obtain ⟨u, hu, h⟩ := (andThen_next_iff _ _ _).1 h
    simp only [Host.Outcome.next.injEq] at h; subst h
    exact .inl (runAccess_drv hu).1

/-! ## A condition on the driver's state kept by every call -/

/-- A condition that every change a call other than `poll` makes to the driver's state keeps (45_software_agent.md R253 to R267). -/
structure KeptByCalls (I : Driver → Prop) : Prop where
  notes : ∀ d out su r, I d → I { d with prOut := out, prSu := su, result := r }
  armed : ∀ d ep dir e stall, I d → ecbOf d ep dir = some e → e.armedCtr + e.completeCtr < 2 →
    I (putEcb d ep dir (some (armedEcb e stall)))
  taken : ∀ d ep dir e, I d → ecbOf d ep dir = some e → e.completeCtr ≠ 0 →
    I (putEcb d ep dir (some { e with completeCtr := e.completeCtr - 1, nextCompleteOdd := !e.nextCompleteOdd }))
  cancelled : ∀ d ep dir e, I d → ecbOf d ep dir = some e → I (putEcb d ep dir (some (cancelledEcb e)))
  cleared : ∀ d ep dir, I d → I (updateEcb ep dir clearedEcb d)
  dropped : ∀ d ep dir, I d → I (putEcb d ep dir none)
  allocated : ∀ d ep dir ty size b0 b1, I d →
    I (putEcb d ep dir (some (newEcb ty size b0 b1 (BitVec.ofNat 32 (bdAddr d.table ep dir false)))))

/-- A condition that the changes of `poll` keep as well (45_software_agent.md R270). -/
structure KeptByPoll (I : Driver → Prop) : Prop extends KeptByCalls I where
  received : ∀ d ep, I d → I (updateEcb ep .rx countReceived d)
  sent : ∀ d ep, I d → I (updateEcb ep .tx countSent d)
  setup : ∀ d ep, I d → I (updateEcb ep .rx (fun e => countReceived (clearedEcb e)) d)
  toggled : ∀ d ep dir, I d → I (updateEcb ep dir (fun e => { e with data01 := true }) d)

variable {I : Driver → Prop}

theorem KeptByCalls.ret (h : KeptByCalls I) {d : Driver} (hd : I d) (r : CallResult) : returnsAll I (ret r d) :=
  h.notes d d.prOut d.prSu r hd

theorem returnsAll_mwBytes {p : Procedure} (hp : returnsAll I p) (a : Nat) (bs : List Byte) : returnsAll I (mwBytes a bs p) := by
  induction bs generalizing a with
  | nil => exact hp
  | cons b bs ih => exact fun _ => ih _

theorem returnsAll_mrBytes {next : List Byte → Procedure} (hp : ∀ bs, returnsAll I (next bs)) (a n : Nat) :
    returnsAll I (mrBytes a n next) := by
  induction n generalizing a next with
  | zero => exact hp []
  | succ n ih => exact fun _ => ih (fun bs => hp _) _

theorem returnsAll_disableAll {p : Procedure} (hp : returnsAll I p) (ns : List (Fin 16)) : returnsAll I (disableAll ns p) := by
  induction ns with
  | nil => exact hp
  | cons n ns ih => exact fun _ => ih

theorem KeptByCalls.armGenericOn (h : KeptByCalls I) {d : Driver} (hd : I d) {ep : Fin 16} {dir : Dir} {e : Ecb}
    (he : ecbOf d ep dir = some e) (len : Nat) (stall : Bool) {next : CallResult → Driver → Procedure}
    (hn : ∀ r d, I d → returnsAll I (next r d)) : returnsAll I (Machine.armGenericOn ep dir e len stall d next) := by
  unfold Machine.armGenericOn
  split
  · exact hn _ _ hd
  split
  · exact hn _ _ hd
  split
  · exact hn _ _ hd
  rename_i _ hc _
  exact fun _ _ _ => hn _ _ (h.armed d ep dir e stall hd he (by omega))

theorem KeptByCalls.armGeneric (h : KeptByCalls I) {d : Driver} (hd : I d) (ep : Fin 16) (dir : Dir) (len : Nat) (stall : Bool)
    {next : CallResult → Driver → Procedure} (hn : ∀ r d, I d → returnsAll I (next r d)) :
    returnsAll I (Machine.armGeneric ep dir len stall d next) := by
  unfold Machine.armGeneric
  split
  · exact hn _ _ hd
  · exact h.armGenericOn hd ‹_› len stall hn

theorem KeptByCalls.allocAt (h : KeptByCalls I) {d : Driver} (hd : I d) (ep : Fin 16) (dir : Dir) (ty : EpType) (size : Nat)
    (bufs : Option (Word × Word)) : returnsAll I (Machine.allocAt ep dir ty size bufs d) := by
  have hn : ∀ (r : CallResult) (d : Driver), I d → returnsAll I (match dir, r with
    | .rx, .endpoint n => Machine.armGeneric ep .rx size false d fun _ d => Machine.ret (.endpoint n) d
    | .rx, _ => Machine.ret r d
    | .tx, _ => Machine.ret r d) := by
    intro r d hd
    split
    · exact h.armGeneric hd ep .rx size false fun _ _ hd => h.ret hd _
    · exact h.ret hd _
    · exact h.ret hd _
  unfold Machine.allocAt alloc
  split
  · exact hn _ _ hd
  · exact fun _ _ _ _ _ _ => hn _ _ (h.allocated d ep dir ty size _ _ hd)

theorem KeptByCalls.readEp (h : KeptByCalls I) {d : Driver} (hd : I d) (ep : Fin 16) (len : Nat) :
    returnsAll I (Machine.readEp ep len d) := by
  unfold Machine.readEp
  split
  · exact h.ret hd _
  · rename_i e he
    split
    · exact h.ret hd _
    · rename_i hc
      intro v
      dsimp only
      split
      · exact h.ret hd _
      · exact returnsAll_mrBytes (fun bs => h.armGenericOn (h.taken d ep .rx e hd he hc) (ecbOf_putEcb_self ..) _ _
          fun _ _ hd => h.ret hd _) _ _

theorem KeptByCalls.writeEp (h : KeptByCalls I) {d : Driver} (hd : I d) (ep : Fin 16) (buf : List Byte) :
    returnsAll I (Machine.writeEp ep buf d) := by
  unfold Machine.writeEp
  split
  · exact h.ret hd _
  · rename_i e he
    split
    · exact h.ret hd _
    · intro v
      dsimp only
      split
      · exact h.ret hd _
      · refine returnsAll_mwBytes (h.armGenericOn hd he _ _ fun r d hd => ?_) _ _
        split <;> exact h.ret hd _

theorem KeptByCalls.cancel (h : KeptByCalls I) {d : Driver} (hd : I d) (ep : Fin 16) (dir : Dir)
    {next : CallResult → Driver → Procedure} (hn : ∀ r d, I d → returnsAll I (next r d)) :
    returnsAll I (Machine.cancel ep dir d next) := by
  unfold Machine.cancel
  split
  · exact hn _ _ hd
  · exact fun _ _ => hn _ _ (h.cancelled d ep dir _ hd ‹_›)

/-- Every return of `poll` meets a condition its changes keep. -/
theorem KeptByPoll.poll (h : KeptByPoll I) {d : Driver} (hd : I d) (n : Nat) : returnsAll I (Machine.poll n d) := by
  have report : ∀ prIn d, I d → returnsAll I (pollReport prIn d) := fun prIn d hd => h.ret hd _
  have fin : ∀ prIn d, I d → returnsAll I (pollEnd prIn d) := by
    intro prIn d hd v
    dsimp only
    split
    · exact fun _ _ => h.ret hd _
    · intro v
      dsimp only
      split
      · exact fun _ _ _ => report _ _ hd
      · exact report _ _ hd
  have loop : ∀ n prIn d, I d → returnsAll I (pollLoop n prIn d) := by
    intro n
    induction n with
    | zero => exact fun prIn d hd _ => fin _ _ hd
    | succ n ih =>
      intro prIn d hd v
      dsimp only
      split
      · intro st _ f
        dsimp only
        split
        · exact ih _ _ (h.notes _ _ _ _ (h.received _ _ hd))
        · exact ih _ _ (h.sent _ _ hd)
        · refine h.cancel hd _ _ fun _ d hd => ?_
          exact fun _ _ => ih _ _ (h.toggled _ _ _ (h.toggled _ _ _ (h.notes _ _ _ _ (h.setup _ _ hd))))
        · exact ih _ _ hd
      · exact fin _ _ hd
  intro e
  dsimp only
  split
  · exact loop _ _ _ hd
  · exact fun _ => loop _ _ _ hd

/-- Every return of a call meets a condition that its changes keep. -/
theorem returnsAll_procedure (h : KeptByCalls I) {d : Driver} (hd : I d) (n : Nat) (c : Call)
    (hnew : ∀ table, c = .new table → I { Driver.initial with table := table }) (hpoll : c = .poll → KeptByPoll I) :
    returnsAll I (procedure n c d) := by
  cases c with
  | new table =>
    have hb : returnsAll I (setBase table (.returns { Driver.initial with table := table })) := fun _ _ _ => hnew table rfl
    exact fun _ _ _ => returnsAll_disableAll hb _
  | allocEp dir addr ty size interval bufs =>
    simp only [procedure, allocEp]
    repeat' split
    all_goals first
      | exact h.allocAt hd ..
      | exact h.ret hd _
  | enable => exact fun _ _ => h.ret hd _
  | reset => exact h.ret (h.cleared _ _ _ hd) _
  | setDeviceAddress addr => exact fun _ => h.ret hd _
  | write addr buf =>
    simp only [procedure, busWrite]
    repeat' split
    all_goals first
      | exact h.writeEp hd ..
      | exact h.ret hd _
  | read addr len =>
    simp only [procedure, busRead]
    repeat' split
    all_goals first
      | exact h.readEp (h.notes _ _ _ d.result hd) ..
      | exact h.ret hd _
  | setStalled ep dir b =>
    simp only [procedure, setStalled]
    split
    · exact fun _ _ => h.ret hd _
    · exact h.ret hd _
  | isStalled ep dir => exact h.ret hd _
  | suspend => exact h.ret hd _
  | resume => exact h.ret hd _
  | poll => exact (hpoll rfl).poll hd n
  | canArm ep dir =>
    simp only [procedure, canArm]
    split
    · exact h.ret hd _
    · exact fun _ => h.ret hd _
  | armGeneric ep dir len stall => exact h.armGeneric hd ep dir len stall fun _ _ hd => h.ret hd _
  | cancel ep dir => exact h.cancel hd ep dir fun _ _ hd => h.ret hd _
  | clearCompleted ep dir =>
    simp only [procedure, clearCompleted]
    split
    · exact h.ret hd _
    · exact h.ret (h.cleared _ _ _ hd) _
  | drop ep dir => exact h.ret (h.dropped _ _ _ hd) _

/-! ## What one access after another does -/

@[simp] theorem runProcedure_ret (r : CallResult) (d : Driver) (s : State) :
    runProcedure (ret r d) s = .next { s with drv := { d with result := r } } := rfl

theorem runProcedure_rd (r : Reg) (next : Word → Procedure) (s : State) :
    runProcedure (rd r next) s = andThen (exec (readInstr r) s) fun t => runProcedure (next t.rdata) t := rfl

theorem runProcedure_wr (r : Reg) (v : Word) (p : Procedure) (s : State) :
    runProcedure (wr r v p) s = andThen (exec (writeInstr v r) s) (runProcedure p) := rfl

theorem runProcedure_mr16 {a : Nat} (h : a + 2 ≤ 2 ^ 32) (next : Half → Procedure) (s : State) :
    runProcedure (mr16 a next) s = runProcedure (next (readHalf s a)) (setRdata s ((readHalf s a).setWidth 32)) := by
  have e : ((readHalf s a).setWidth 32).extractLsb' 0 16 = readHalf s a := by
    apply BitVec.eq_of_toNat_eq
    have := (readHalf s a).isLt
    simp; omega
  have hr : runAccess (.readMem .w16 a) s = .next (setRdata s ((readHalf s a).setWidth 32)) :=
    (softRead_next_iff ..).2 ⟨h, rfl⟩
  simp only [mr16, runProcedure, hr, andThen_of_next, setRdata_rdata, e]

/-- A write inside the address space, and then the rest. -/
theorem runProcedure_writeMem {w : Width} {a : Nat} (h : a + widthBytes w ≤ 2 ^ 32) (v : Word) (p : Procedure) (s : State) :
    runProcedure (.access (.writeMem w a v) fun _ => p) s = runProcedure p (storeBytes s a (storeValue v w)) := by
  have hw : runAccess (.writeMem w a v) s = .next (storeBytes s a (storeValue v w)) := (softWrite_next_iff ..).2 ⟨h, rfl⟩
  simp only [runProcedure, hw, andThen_of_next]

theorem runProcedure_mw16 {a : Nat} (h : a + 2 ≤ 2 ^ 32) (v : Half) (p : Procedure) (s : State) :
    runProcedure (mw16 a v p) s = runProcedure p (storeHalf s a v) := by
  rw [mw16, runProcedure_writeMem h, storeValue_w16]; rfl

theorem runProcedure_mw32 {a : Nat} (h : a + 4 ≤ 2 ^ 32) (v : Word) (p : Procedure) (s : State) :
    runProcedure (mw32 a v p) s = runProcedure p (storeWord s a v) := by
  rw [mw32, runProcedure_writeMem h]; rfl

/-- The bytes of a buffer written one after another are written as a whole. -/
theorem runProcedure_mwBytes {a : Nat} {bs : List Byte} (h : a + bs.length ≤ 2 ^ 32) (p : Procedure) (s : State) :
    runProcedure (mwBytes a bs p) s = runProcedure p (storeBytes s a bs) := by
  induction bs generalizing a s with
  | nil => rfl
  | cons b bs ih =>
    simp only [List.length_cons] at h
    rw [mwBytes, runProcedure_writeMem (by simp only [widthBytes]; omega), storeValue_w8]
    exact ih (by omega) _

/-! ## The hand-over of a control block -/

/-- The flag word of `arm_generic` (45_software_agent.md R256): UOWN, DTS and DATA01 but for isochronous, BSTALL. -/
theorem armFlags_toNat (e : Ecb) (stall : Bool) : (armFlags e stall).toNat =
    128 + 64 * natOfBool (!decide (e.epType = .isochronous) && e.data01) + 8 * natOfBool (!decide (e.epType = .isochronous)) +
      4 * natOfBool stall := by
  unfold armFlags
  cases stall <;> cases e.data01 <;> cases e.epType <;> decide

/-- `arm_generic` where its three checks pass and its descriptor lies in the space: the buffer, the count, the flags last. -/
theorem runProcedure_armGenericOn {e : Ecb} {len : Nat} {stall : Bool} (h1 : len ≤ e.epSize)
    (h2 : e.armedCtr + e.completeCtr < 2) (h3 : ¬(e.stalled = true ∧ stall = true)) (h4 : slotOf e e.nextOdd + 8 ≤ 2 ^ 32)
    (ep : Fin 16) (dir : Dir) (d : Driver) (next : CallResult → Driver → Procedure) (s : State) :
    runProcedure (armGenericOn ep dir e len stall d next) s =
      runProcedure (next .ok (putEcb d ep dir (some (armedEcb e stall))))
        (storeHalf (storeHalf (storeWord s (slotOf e e.nextOdd + 4) (bufOf e e.nextOdd)) (slotOf e e.nextOdd + 2)
          (BitVec.ofNat 16 len)) (slotOf e e.nextOdd) (armFlags e stall)) := by
  rw [armGenericOn, if_neg (by omega), if_neg (by omega), if_neg h3, runProcedure_mw32 (by omega), runProcedure_mw16 (by omega),
    runProcedure_mw16 (by omega)]

/-- `cancel` of a control block whose pair lies in the space: the flags of both descriptors are zeroed. -/
theorem runProcedure_cancel {ep : Fin 16} {dir : Dir} {d : Driver} {e : Ecb} (he : ecbOf d ep dir = some e)
    (h : e.pair.toNat + 16 ≤ 2 ^ 32) (next : CallResult → Driver → Procedure) (s : State) :
    runProcedure (cancel ep dir d next) s =
      runProcedure (next .ok (putEcb d ep dir (some (cancelledEcb e))))
        (storeHalf (storeHalf s (slotOf e false) 0#16) (slotOf e true) 0#16) := by
  have h0 : slotOf e false + 2 ≤ 2 ^ 32 := by simp only [slotOf, natOfBool]; simp; omega
  have h1 : slotOf e true + 2 ≤ 2 ^ 32 := by simp only [slotOf, natOfBool]; simp; omega
  rw [cancel, he]
  dsimp only
  rw [runProcedure_mw16 h0, runProcedure_mw16 h1]

/-! ## Register sequences -/

theorem lowByte_setWidth (x : Byte) : lowByte (x.setWidth 32) = x := by
  apply BitVec.eq_of_toNat_eq
  simp [lowByte]
  exact x.isLt

/-- A byte written to a register without reserved bits is never refused. -/
theorem writeReg_byte (x : Byte) (s : State) (f : State → Byte → State) : writeReg 0x00#8 (x.setWidth 32) f s = .next (f s x) := by
  simp [writeReg, lowByte_setWidth]

/-- SETBASE (30_encoding.md R108): the three bytes of the address, bit 0 of the lowest dropped, and nothing else. -/
theorem runProcedure_setBase (a : Word) (p : Procedure) (s : State) :
    runProcedure (setBase a p) s = runProcedure p { s with
      bdtp1 := (a.extractLsb' 8 8).extractLsb' 1 7
      bdtp2 := a.extractLsb' 16 8
      bdtp3 := a.extractLsb' 24 8 } := by
  simp only [setBase, runProcedure_wr, writeInstr, exec, execWrBdtp1, execWrBdtp2, execWrBdtp3, writeReg_byte, andThen]

/-- `WR EP[n], 0` over a list zeroes those registers and changes nothing else (45_software_agent.md R262). -/
theorem runProcedure_disableAll (ns : List (Fin 16)) (p : Procedure) (s : State) :
    ∃ e, runProcedure (disableAll ns p) s = runProcedure p { s with ep := e } ∧
      ∀ n, (n ∈ ns ∨ s.ep[n] = EpCtl.zero) → e[n] = EpCtl.zero := by
  induction ns generalizing s with
  | nil => exact ⟨s.ep, rfl, by simp⟩
  | cons m ms ih =>
    obtain ⟨e, h1, h2⟩ := ih (setEp s m EpCtl.zero)
    refine ⟨e, ?_, fun n hn => h2 n ?_⟩
    · show runProcedure (disableAll ms p) (setEp s m EpCtl.zero) = _
      rw [h1]; rfl
    · by_cases h : n = m
      · subst h; right; simp [setEp]
      · rcases hn with hn | hn
        · left; simpa [h] using hn
        · right; simp only [setEp]; rw [← hn]; exact Vector.getElem_set_ne _ _ (by omega)

/-- A value of CON with all but USBEN masked off has no reserved bit. -/
theorem lowByte_maskedCon (b : Byte) : lowByte (readValue b &&& 1#32) &&& 0x1E#8 = 0#8 := by
  revert b; simp only [lowByte, readValue]; decide +revert

/-- CLRPKTDIS (30_encoding.md R108) clears PKTDIS and leaves USBEN; it uses up one draw. -/
theorem runProcedure_clrPktdis (s : State) : ∃ v, ∀ p : Procedure,
    runProcedure (clrPktdis p) s = runProcedure p { s with rdata := v, draws := s.draws + 1, pktdis := false } := by
  refine ⟨readValue (conByte s (Config.freeBits s.draws)), fun p => ?_⟩
  simp only [clrPktdis, runProcedure_rd, runProcedure_wr, readInstr, writeInstr, exec, execRdCon, readDrawn, andThen, execWrCon,
    writeReg]
  rw [lowByte_maskedCon, if_neg (by simp)]
  have h : ∀ b, bitAt 8 (lowByte (readValue (conByte s b) &&& 1#32)) 0 = s.usben ∧
      bitAt 8 (lowByte (readValue (conByte s b) &&& 1#32)) 5 = false := by
    intro b
    simp only [conByte]
    cases s.usben <;> cases s.pktdis <;> revert b <;> decide
  simp only [writeCon, (h _).1, (h _).2, Bool.and_false]

/-- The modelled bits of IR as `poll` tests them (40_register_ops.md R130). -/
theorem irByte_bits (s : State) (d : Byte) : bitAt 32 (readValue (irByte s d)) 3 = trnif s ∧
    bitAt 32 (readValue (irByte s d)) 0 = s.urstif ∧ bitAt 32 (readValue (irByte s d)) 7 = s.stallif := by
  simp only [irByte, readValue]
  generalize trnif s = x
  refine ⟨?_, ?_, ?_⟩ <;> cases s.urstif <;> cases x <;> cases s.stallif <;> revert d <;> decide

/-! ## The loop of `poll` -/

/-- The fields of STAT name the entry at the head of the queue (10_state.md R38). -/
theorem statOf_fields (q : Entry) : (((readValue (statOf q)).extractLsb' 4 4).toFin : Fin 16) = q.ep ∧
    dirOfBit (bitAt 32 (readValue (statOf q)) 3) = q.dir ∧ bitAt 32 (readValue (statOf q)) 2 = q.odd := by
  obtain ⟨ep, dir, odd⟩ := q
  revert ep odd
  cases dir <;> decide

/-- What one pass does with the entry at the head of the queue, popped, and the flags of its descriptor, read. -/
def passOn (q : Entry) (f : Half) (prIn : Half) (d : Driver) (next : Half → Driver → Procedure) : Procedure :=
  match kindOfPid (f.extractLsb' 2 4) with
  | some .out => next prIn (handleOut q.ep d)
  | some .inn => next (prIn ||| epMask q.ep) (handleIn q.ep d)
  | some .setup => handleSetup q.ep d (next prIn)
  | none => next prIn d

/-- One pass of the loop with an entry queued: the entry is popped, its descriptor's flags are read. -/
theorem runProcedure_pollPass {d : Driver} (ht : d.table.toNat % 512 = 0) {s : State} {q : Entry} {rest : List Entry}
    (hf : s.fifo = q :: rest) (prIn : Half) (next : Half → Driver → Procedure) :
    runProcedure (pollPass prIn d next) s =
      runProcedure (passOn q (readHalf s (bdAddr d.table q.ep q.dir q.odd)) prIn d next)
        { s with fifo := rest, rdata := (readHalf s (bdAddr d.table q.ep q.dir q.odd)).setWidth 32 } := by
  have hr : exec (readInstr .stat) s = .next { s with rdata := readValue (statOf q) } := by
    simp only [readInstr, exec, execRdStat]
    split
    · rename_i h; rw [hf] at h; cases h; rfl
    · rename_i h; rw [hf] at h; cases h
  obtain ⟨h1, h2, h3⟩ := statOf_fields q
  rw [pollPass, runProcedure_rd, hr, andThen_of_next]
  dsimp only
  rw [h1, h2, h3, ackTrn, runProcedure_wr]
  have hw : exec (writeInstr 0x08#32 .ir) { s with rdata := readValue (statOf q) } =
      .next { s with rdata := readValue (statOf q), fifo := rest } := by
    have hl : lowByte 8#32 = 8#8 := rfl
    simp only [writeInstr, exec, execWrIr, writeReg_zero_mask, hl]
    simp [clearIr, hf, bitAt]
  have ha := bdAddr_lt ht q.ep q.dir q.odd
  rw [hw, andThen_of_next, runProcedure_mr16 (by omega)]
  rfl

/-- The test of the loop. -/
theorem runProcedure_pollLoop {n : Nat} {s : State} (hn : s.fifo.length ≤ n) (prIn : Half) (d : Driver) :
    ∃ t, (∃ v k, t = { s with rdata := v, draws := k }) ∧
      runProcedure (pollLoop n prIn d) s =
        match s.fifo with
        | [] => runProcedure (pollEnd prIn d) t
        | _ :: _ => runProcedure (pollPass prIn d (pollLoop (n - 1))) t := by
  refine ⟨{ s with rdata := readValue (irByte s (Config.freeBits s.draws)), draws := s.draws + 1 }, ⟨_, _, rfl⟩, ?_⟩
  have hr : exec (readInstr .ir) s =
      .next { s with rdata := readValue (irByte s (Config.freeBits s.draws)), draws := s.draws + 1 } := rfl
  cases n with
  | zero =>
    have : s.fifo = [] := List.length_eq_zero_iff.1 (by omega)
    rw [pollLoop, runProcedure_rd, hr, andThen_of_next, this]
  | succ n =>
    rw [pollLoop, runProcedure_rd, hr, andThen_of_next, (irByte_bits s _).1]
    cases hq : s.fifo with
    | nil => simp [trnif, hq]
    | cons q rest => simp [trnif, hq]

/-! ## A call access by access

The bound of `poll`'s loop does not show: the procedures of a call, one for each bound, are told apart only by how often the
loop can go round, and after `k` accesses every bound from `k` on says the same of the next one. -/

theorem afterAnswers_append (p : Procedure) (vs ws : List Word) :
    afterAnswers p (vs ++ ws) = afterAnswers (afterAnswers p vs) ws := by
  induction vs generalizing p with
  | nil => cases p <;> rfl
  | cons v vs ih =>
    cases p with
    | returns d => cases ws <;> rfl
    | access a next => exact ih _

/-- A family of procedures, one for each bound, that differ in the bound of `poll`'s loop alone. -/
inductive BoundedLoop : (Nat → Procedure) → Prop where
  | const (p : Procedure) : BoundedLoop fun _ => p
  | loop (prIn : Half) (d : Driver) : BoundedLoop fun n => pollLoop n prIn d
  | access (a : Access) (next : Nat → Word → Procedure) :
      (∀ v, BoundedLoop fun n => next n v) → BoundedLoop fun n => .access a (next n)

theorem boundedLoop_pollPass (prIn : Half) (d : Driver) : BoundedLoop fun n => pollPass prIn d (pollLoop n) := by
  refine .access _ _ fun st => .access _ _ fun _ => .access _ _ fun f => ?_
  beta_reduce
  split
  · exact .loop _ _
  · exact .loop _ _
  · simp only [handleSetup, cancel]
    split
    · exact .access _ _ fun _ => .access _ _ fun _ => .loop _ _
    · exact .access _ _ fun _ => .access _ _ fun _ => .access _ _ fun _ => .access _ _ fun _ => .loop _ _
  · exact .loop _ _

theorem boundedLoop_procedure (c : Call) (d : Driver) : BoundedLoop fun n => procedure n c d := by
  cases c
  case poll =>
    refine .access _ _ fun e => ?_
    split
    · exact .loop _ _
    · exact .access _ _ fun _ => .loop _ _
  all_goals exact .const _

/-- What a procedure does next: it returns, or makes an access. -/
def whatNext : Procedure → Driver ⊕ Access
  | .returns d => .inl d
  | .access a _ => .inr a

theorem BoundedLoop.whatNext {P : Nat → Procedure} (h : BoundedLoop P) (n m : Nat) :
    Machine.whatNext (P n) = Machine.whatNext (P m) := by
  cases h with
  | const p => rfl
  | loop prIn d => cases n <;> cases m <;> rfl
  | access a next _ => rfl

/-- After `k` accesses the families have used up at most `k` rounds. -/
theorem BoundedLoop.afterAnswers {P : Nat → Procedure} (h : BoundedLoop P) (vs : List Word) :
    ∃ j Q, j ≤ vs.length ∧ BoundedLoop Q ∧ ∀ n, Machine.afterAnswers (P (n + j)) vs = Q n := by
  induction vs generalizing P with
  | nil => exact ⟨0, P, Nat.le_refl _, h, fun n => by cases P n <;> rfl⟩
  | cons v vs ih =>
    cases h with
    | const p => exact ⟨0, _, Nat.zero_le _, .const (Machine.afterAnswers p (v :: vs)), fun n => rfl⟩
    | loop prIn d =>
      have hu : BoundedLoop fun n => if bitAt 32 v 3 then pollPass prIn d (pollLoop n) else pollEnd prIn d := by
        split
        · exact boundedLoop_pollPass _ _
        · exact .const _
      obtain ⟨j, Q, hj, hQ, h⟩ := ih hu
      exact ⟨j + 1, Q, Nat.succ_le_succ hj, hQ, fun n => h n⟩
    | access a next hF =>
      obtain ⟨j, Q, hj, hQ, h⟩ := ih (hF v)
      exact ⟨j, Q, Nat.le_succ_of_le hj, hQ, h⟩

/-- A turn of a call in progress, with any bound that is large enough. -/
theorem callTurn_eq (c : CallInProgress) (s : State) {n : Nat} (hn : c.answers.length ≤ n) :
    callTurn c s = match whatNext (afterAnswers (procedure n c.call s.drv) c.answers) with
      | .inl d => .next { s with drv := d, call := none }
      | .inr a => andThen (runAccess a s) fun t =>
          .next { t with call := some { c with answers := c.answers ++ [t.rdata] } } := by
  obtain ⟨j, Q, hj, hQ, h⟩ := (boundedLoop_procedure c.call s.drv).afterAnswers c.answers
  have hw : ∀ m, c.answers.length ≤ m →
      whatNext (afterAnswers (procedure m c.call s.drv) c.answers) = whatNext (Q 0) := by
    intro m hm
    obtain ⟨m', rfl⟩ := Nat.exists_eq_add_of_le (Nat.le_trans hj hm)
    rw [Nat.add_comm]
    exact (congrArg _ (h m')).trans (hQ.whatNext _ _)
  rw [hw n hn, ← hw (c.answers.length + 1) (Nat.le_succ _), callTurn]
  generalize afterAnswers (procedure (c.answers.length + 1) c.call s.drv) c.answers = p
  cases p <;> rfl

end Sys2Proof.Machine
end

