-- ==== Sys2Proof/Laws/Engine.lean ====
section
/-! SUPPORT. What the engine can do: one inversion lemma for each of its operations, and that each keeps the invariant. -/

namespace Sys2Proof.Machine

/-! ## Small facts -/

@[simp] theorem storeBytes_nil (s : State) (a : Nat) : storeBytes s a [] = s := rfl

/-- A buffer that passed the range check ends inside the address space (42_bus_transactions.md R203). -/
theorem bufferOk_range {c : Config} {a : Word} {n : Nat} (h : bufferOk c a n = true) : a.toNat + n ≤ 2 ^ 32 := by
  unfold bufferOk at h
  split at h
  · have := a.isLt; omega
  · simp only [Bool.and_eq_true, decide_eq_true_eq] at h; exact h.1

/-- Every byte of a buffer that passed the range check may be accessed. -/
theorem bufferOk_memValid {c : Config} {a : Word} {n i : Nat} (h : bufferOk c a n = true) (hi : i < n) :
    memValid c (a.toNat + i) = true := by
  unfold bufferOk at h
  split at h
  · omega
  · simp only [Bool.and_eq_true, List.all_eq_true] at h
    exact h.2 i (List.mem_range.2 hi)

/-! ## The completion step in the spec's numbers -/

/-- The word a completion step writes, as the number of 43_completion.md R231. -/
theorem word0_resultFlags (n : Half) (tg : Bool) (k : Kind) : word0 n (resultFlags tg k) = resultWord n tg k := by
  apply BitVec.eq_of_toNat_eq
  have hn := n.isLt
  have h1 : (resultFlags tg k).toNat = 64 * natOfBool tg + 4 * pidNumber k := by cases tg <;> cases k <;> rfl
  have h2 : (word0 n (resultFlags tg k)).toNat = n.toNat * 65536 + (resultFlags tg k).toNat := by
    have := (resultFlags tg k).isLt
    unfold word0
    simp only [BitVec.toNat_append]
    rw [← Nat.shiftLeft_add_eq_or_of_lt (i := 16) (by omega), Nat.shiftLeft_eq]
  have h3 : (resultFlags tg k).toNat < 65536 := (resultFlags tg k).isLt
  rw [h2, resultWord, BitVec.toNat_ofNat, h1]
  rw [h1] at h3
  rw [Nat.mod_eq_of_lt] <;> omega

/-- A byte of memory after a packet was stored and the completion step made. -/
theorem readByte_retireOp (base : Word) (ep : Fin 16) (dir : Dir) (odd : Bool) (n : Half) (tg : Bool) (k : Kind) (s : State)
   (a : Nat) (bs : List Byte) (b : Nat) :
   readByte (retireOp base ep dir odd n tg k (storeBytes s a bs)) b =
    byteAfter s (base.toNat + 8 * bdIndex ep dir odd) (resultWord n tg k) a bs b := by
  have h0 : readByte (retireOp base ep dir odd n tg k (storeBytes s a bs)) b = readByte (storeWord (storeBytes s a bs) (bdAddr base ep dir odd) (word0 n (resultFlags tg k))) b := by
    apply readByte_congr; rw [retireOp_frame]; rfl
  rw [h0, word0_resultFlags]
  simp only [byteAfter, storeWord, bdAddr]
  split
  · rename_i hb
    have := readByte_storeBytes_inside (storeBytes s a bs) (base.toNat + 8 * bdIndex ep dir odd) (wordBytes (resultWord n tg k)) (i := b - (base.toNat + 8 * bdIndex ep dir odd)) (by simp; omega)
    rw [show base.toNat + 8 * bdIndex ep dir odd + (b - (base.toNat + 8 * bdIndex ep dir odd)) = b by omega] at this
    rw [this, getElem_wordBytes]
  · rename_i hb
    rw [readByte_storeBytes_outside _ _ _ (by simp; omega)]
    split
    · rename_i hb'
      have := readByte_storeBytes_inside s a bs (i := b - a) (by omega)
      rw [show a + (b - a) = b by omega] at this
      rw [this, List.getD_eq_getElem?_getD, List.getElem?_eq_getElem (by omega)]; rfl
    · exact readByte_storeBytes_outside _ _ _ (by omega)

/-- The completion step is what 43_completion.md R231 says, whatever response and latch the transaction leaves. -/
theorem completed_retireOp (s : State) (base : Word) (ep : Fin 16) (dir : Dir) (odd : Bool) (n : Half) (tg : Bool) (k : Kind)
   (a : Nat) (bs : List Byte) (r : Response) (x : Option Txn) :
   Completed s { retireOp base ep dir odd n tg k (storeBytes s a bs) with resp := r, txn := x } base ep dir odd n tg k a bs := by
  refine ⟨?_, ?_, ?_, ?_, ?_, ?_⟩
  · intro b
    rw [← readByte_retireOp]
    exact readByte_congr _ _ rfl _
  · exact ppbi_retireOp_self base ep dir odd n tg k (storeBytes s a bs)
  · intro ep' dir' h
    exact ppbi_retireOp_ne base ep dir odd n tg k (storeBytes s a bs) ep' dir' h
  · rw [retireOp_frame]; rfl
  · rw [retireOp_frame]; rfl
  · rw [retireOp_frame]; rfl

theorem completed_finish (s : State) (base : Word) (ep : Fin 16) (dir : Dir) (odd : Bool) (n : Half) (tg : Bool) (k : Kind)
   (a : Nat) (bs : List Byte) (r : Response)  :
   Completed s (finish (retireOp base ep dir odd n tg k (storeBytes s a bs)) r) base ep dir odd n tg k a bs :=
  completed_retireOp s base ep dir odd n tg k a bs r none

/-! ## The data phase in the spec's words -/

theorem bufferOk_iff (c : Config) (a : Word) (n : Nat) : bufferOk c a n = true ↔ bufferFits c a n := by
  unfold bufferOk bufferFits
  split
  · simp [*]
  · simp [*]

theorem readBytesAt_bytesOf (s : State) (a n : Nat) : readBytesAt s a n = bytesOf s a n := by
  induction n with
  | zero => rfl
  | succ n ih => rw [readBytesAt_succ, ih]; simp [bytesOf, List.range_succ]

/-- A token that passes its checks. -/
theorem tokenChecks_of_passes {s : State} {k : Kind} {addr : BitVec 7} {ep : Fin 16} (h : tokenPasses s k addr ep) : tokenChecks s k addr ep = .go :=
  (tokenChecks_go_iff ..).2 ⟨by simp [active, h.1], h.2⟩

/-- The three ways of receiving a packet (42_bus_transactions.md R205, R206, R203). -/
theorem receive_eq (s : State) (x : Txn) (odd : Bool) (n : Half) (a : Word) (ha : a = readWord s (txnBd x odd + 4)) :
  (x.payload.length ≤ n.toNat → bufferFits s.cfg a n.toNat → receive s x odd n = .next (finish (retireOp x.base x.ep (dirOf x.kind) odd (BitVec.ofNat 16 x.payload.length) x.toggle x.kind
        (storeBytes s a.toNat x.payload)) (ackOrNone x.ctl))) ∧
  (n.toNat < x.payload.length → receive s x odd n = .refused .overrun) ∧
  (x.payload.length ≤ n.toNat → ¬bufferFits s.cfg a n.toNat → receive s x odd n = .refused .badBuffer) := by
  subst ha
  refine ⟨fun h hb => ?_, fun h => ?_, fun h hb => ?_⟩
  · rw [receive, if_neg (by omega)]; dsimp only; rw [if_neg]; rw [(bufferOk_iff ..).2 hb]; decide
  · rw [receive, if_pos h]
  · rw [receive, if_neg (by omega)]; dsimp only; rw [if_pos]; rw [← bufferOk_iff] at hb; simpa using hb

/-- The three ways of sending a packet (42_bus_transactions.md R210 to R212, R203). -/
theorem send_eq (s : State) (x : Txn) (odd tg : Bool) (n : Half) (a : Word) (ha : a = readWord s (txnBd x odd + 4)) :
  (bufferFits s.cfg a n.toNat → x.ctl.ephshk = true → x.ack = false →
        send s x odd tg n = .next { s with resp := .data tg (bytesOf s a.toNat n.toNat), txn := none }) ∧
      (bufferFits s.cfg a n.toNat → (x.ctl.ephshk = false ∨ x.ack = true) →
         send s x odd tg n = .next (finish (retireOp x.base x.ep (dirOf x.kind) odd n tg x.kind s) (.data tg (bytesOf s a.toNat n.toNat)))) ∧
      (¬bufferFits s.cfg a n.toNat → send s x odd tg n = .refused .badBuffer) := by
  subst ha
  refine ⟨fun hb h1 h2 => ?_, fun hb h => ?_, fun hb => ?_⟩
  · rw [send]; dsimp only; rw [if_neg (by rw [(bufferOk_iff ..).2 hb]; decide), if_pos ⟨h1, h2⟩, readBytesAt_bytesOf]; rfl
  · rw [send]; dsimp only; rw [if_neg (by rw [(bufferOk_iff ..).2 hb]; decide), if_neg, readBytesAt_bytesOf]
    rintro ⟨h1, h2⟩
    rcases h with h | h
    · rw [h1] at h; cases h
    · rw [h2] at h; cases h
  · rw [send]; dsimp only; rw [if_pos]; rw [← bufferOk_iff] at hb; simpa using hb

/-! ## A command run to its end -/

/-- A transaction that retires its descriptor: it stored `bs` at `a` (nothing for an IN), then made the completion step. -/
def Retires (s : State) (x : Txn) (odd : Bool) (t : State) : Prop :=
  ∃ (a : Nat) (bs : List Byte) (n : Half) (tg : Bool) (r : Response),
    (x.kind = .inn → bs = []) ∧ a + bs.length ≤ 2 ^ 32 ∧
      t = finish (retireOp x.base x.ep (dirOf x.kind) odd n tg x.kind (storeBytes s a bs)) r

theorem receive_next {s : State} {x : Txn} {odd : Bool} {n : Half} {t : State} (hk : x.kind ≠ .inn)
    (h : receive s x odd n = .next t) : Retires s x odd t := by
  unfold receive at h
  split at h
  · cases h
  · dsimp only at h
    split at h
    · cases h
    · rename_i hn hb
      simp only [Host.Outcome.next.injEq] at h
      have := bufferOk_range (Bool.not_eq_false _ ▸ hb)
      exact ⟨_, _, _, _, _, fun hx => absurd hx hk, by omega, h.symm⟩

theorem send_next {s : State} {x : Txn} {odd tg : Bool} {n : Half} {t : State} (h : send s x odd tg n = .next t) :
    (∃ r, t = finish s r) ∨ Retires s x odd t := by
  unfold send at h
  dsimp only at h
  split at h
  · cases h
  · split at h
    · simp only [Host.Outcome.next.injEq] at h; exact .inl ⟨_, h.symm⟩
    · simp only [Host.Outcome.next.injEq] at h
      exact .inr ⟨0, [], _, _, _, fun _ => rfl, by simp, h.symm⟩

theorem runData_next {s : State} {x : Txn} {odd tg d : Bool} {n : Half} {t : State} (h : runData s x odd tg d n = .next t) :
    (∃ r, t = finish s r) ∨ Retires s x odd t := by
  unfold runData at h
  split at h
  · exact send_next h
  · rename_i hk
    split at h
    · simp only [Host.Outcome.next.injEq] at h; exact .inl ⟨_, h.symm⟩
    · exact .inr (receive_next hk h)

/-- A fetched command ends its transaction in one of three ways: with a response alone, with the stall armed, or retired. -/
theorem runCommand_next {s : State} {x : Txn} {odd : Bool} {c : Command} {t : State} (h : runCommand s x odd c = .next t) :
    (∃ r, t = finish s r) ∨ (x.kind ≠ .setup ∧ t = stallArmed s x) ∨ Retires s x odd t := by
  unfold runCommand at h
  split at h
  · simp only [Host.Outcome.next.injEq] at h; exact .inl ⟨_, h.symm⟩
  · split at h
    · rcases runData_next h with h | h
      · exact .inl h
      · exact .inr (.inr h)
    · rename_i hk
      simp only [Host.Outcome.next.injEq] at h; exact .inr (.inl ⟨hk, h.symm⟩)
  · rcases runData_next h with h | h
    · exact .inl h
    · exact .inr (.inr h)

theorem transact_next {s : State} {x : Txn} {t : State} (h : transact s x = .next t) :
    (∃ r, t = finish s r) ∨ (x.kind ≠ .setup ∧ t = stallArmed s x) ∨ Retires s x (ppbi s x.ep (dirOf x.kind)) t := by
  unfold transact at h
  dsimp only at h
  split at h
  · cases h
  · exact runCommand_next h

/-- What a token can lead to (42_bus_transactions.md R193). -/
theorem tokenOp_next {k : Kind} {addr : BitVec 7} {ep : Fin 16} {tg : Bool} {p : List Byte} {ack : Bool} {s t : State}
    (h : tokenOp k addr ep tg p ack s = .next t) :
    (∃ r, tokenChecks s k addr ep = .answer r ∧ t = respond s r) ∨
    (tokenChecks s k addr ep = .halted ∧ t = respond (setStallif s) .stall) ∨
    (tokenChecks s k addr ep = .go ∧ s.fine = true ∧ t = { s with txn := some (newTxn s k ep tg p ack) }) ∨
    (tokenChecks s k addr ep = .go ∧ s.fine = false ∧ transact s (newTxn s k ep tg p ack) = .next t) := by
  unfold tokenOp at h
  split at h
  · rename_i r hc
    simp only [Host.Outcome.next.injEq] at h; exact .inl ⟨r, hc, h.symm⟩
  · rename_i hc
    simp only [Host.Outcome.next.injEq] at h; exact .inr (.inl ⟨hc, h.symm⟩)
  · cases h
  · rename_i hc
    split at h
    · rename_i hf
      simp only [Host.Outcome.next.injEq] at h; exact .inr (.inr (.inl ⟨hc, hf, h.symm⟩))
    · rename_i hf
      exact .inr (.inr (.inr ⟨hc, Bool.eq_false_iff.2 hf, h⟩))

/-! ## Commands executed from the latch -/

theorem idleCommand_next {s t : State} (h : idleCommand s = .next t) : t = s ∨ ∃ r, t = finish s r := by
  unfold idleCommand at h
  split at h
  · simp only [Host.Outcome.next.injEq] at h; exact .inl h.symm
  · split at h <;> simp only [Host.Outcome.next.injEq] at h
    · exact .inr ⟨_, h.symm⟩
    · exact .inl h.symm
    · exact .inl h.symm
    · exact .inl h.symm

theorem beginData_next {s : State} {x : Txn} {odd : Bool} {w0 : Word} {tg d : Bool} {n : Half} {t : State}
    (h : beginData s x odd w0 tg d n = .next t) :
    (∃ r, t = finish s r) ∨
      ∃ a : Word, a.toNat + n.toNat ≤ 2 ^ 32 ∧ bytesToMove x n ≤ n.toNat ∧ t = afterMove s x odd w0 a tg n 0 [] := by
  unfold beginData at h
  split at h
  · simp only [Host.Outcome.next.injEq] at h; exact .inl ⟨_, h.symm⟩
  · split at h
    · cases h
    · rename_i hn
      dsimp only at h
      split at h
      · cases h
      · rename_i hb
        simp only [Host.Outcome.next.injEq] at h
        refine .inr ⟨_, bufferOk_range (Bool.not_eq_false _ ▸ hb), ?_, h.symm⟩
        unfold bytesToMove
        split
        · exact Nat.le_refl _
        · rename_i hk; simp only [hk, ne_eq, reduceCtorEq, not_false_eq_true, true_and] at hn; omega
        · rename_i hk; simp only [hk, ne_eq, reduceCtorEq, not_false_eq_true, true_and] at hn; omega

/-- What executing a data command from the latch can lead to. -/
theorem dataCommand_next {tg d : Bool} {n : Half} {s t : State} (h : dataCommand tg d n s = .next t) :
    t = s ∨ ∃ x, s.txn = some x ∧
      ((∃ odd w0, x.phase = .command odd w0 ∧ s.fine = true ∧ beginData s x odd w0 tg d n = .next t) ∨
       (∃ odd w0, x.phase = .command odd w0 ∧ s.fine = false ∧ runData s x odd tg d n = .next t) ∨
       (∃ odd w0 a i got, x.phase = .data odd w0 a i got ∧ t = moveByte s x odd w0 a tg n i got)) := by
  unfold dataCommand at h
  split at h
  · simp only [Host.Outcome.next.injEq] at h; exact .inl h.symm
  · rename_i x hx
    split at h
    · rename_i odd w0 hp
      split at h
      · rename_i hf; exact .inr ⟨x, hx, .inl ⟨odd, w0, hp, hf, h⟩⟩
      · rename_i hf; exact .inr ⟨x, hx, .inr (.inl ⟨odd, w0, hp, Bool.eq_false_iff.2 hf, h⟩)⟩
    · rename_i odd w0 a i got hp
      simp only [Host.Outcome.next.injEq] at h
      exact .inr ⟨x, hx, .inr (.inr ⟨odd, w0, a, i, got, hp, h.symm⟩)⟩
    · simp only [Host.Outcome.next.injEq] at h; exact .inl h.symm
    · simp only [Host.Outcome.next.injEq] at h; exact .inl h.symm

/-- What executing a stall command from the latch can lead to. -/
theorem stallCommand_next {tg d : Bool} {n : Half} {s t : State} (h : stallCommand tg d n s = .next t) :
    t = s ∨ ∃ x, s.txn = some x ∧
      ((x.kind = .setup ∧ dataCommand tg d n s = .next t) ∨
       (x.kind ≠ .setup ∧ ∃ odd w0, x.phase = .command odd w0 ∧ t = stallArmed s x)) := by
  unfold stallCommand at h
  split at h
  · simp only [Host.Outcome.next.injEq] at h; exact .inl h.symm
  · rename_i x hx
    split at h
    · rename_i hk; exact .inr ⟨x, hx, .inl ⟨hk, h⟩⟩
    · rename_i hk
      split at h <;> simp only [Host.Outcome.next.injEq] at h
      · rename_i odd w0 hp
        exact .inr ⟨x, hx, .inr ⟨hk, odd, w0, hp, h.symm⟩⟩
      · exact .inl h.symm
      · exact .inl h.symm
      · exact .inl h.symm

/-- What executing a result word from the latch can lead to. -/
theorem resultCommand_next {tg : Bool} {k : Kind} {n : Half} {s t : State} (h : resultCommand tg k n s = .next t) :
    t = s ∨ (∃ r, t = finish s r) ∨
      ∃ x odd m u, s.txn = some x ∧ x.phase = .done odd m u ∧ t = retireStep x.ep (dirOf x.kind) odd n tg k s := by
  unfold resultCommand at h
  split at h
  · simp only [Host.Outcome.next.injEq] at h; exact .inl h.symm
  · rename_i x hx
    split at h
    · rename_i odd m u hp
      simp only [Host.Outcome.next.injEq] at h
      exact .inr (.inr ⟨x, odd, m, u, hx, hp, h.symm⟩)
    · rcases idleCommand_next h with h | h
      · exact .inl h
      · exact .inr (.inl h)
    · simp only [Host.Outcome.next.injEq] at h; exact .inl h.symm
    · simp only [Host.Outcome.next.injEq] at h; exact .inl h.symm

theorem fetchStep_next {s : State} {x : Txn} {t : State} (h : fetchStep s x = .next t) :
    (fetchCommand (readWord s (txnBd x (ppbi s x.ep (dirOf x.kind))))).isOk = true ∧
      t = setPhase s x (.command (ppbi s x.ep (dirOf x.kind)) (readWord s (txnBd x (ppbi s x.ep (dirOf x.kind))))) := by
  unfold fetchStep at h
  dsimp only at h
  split at h
  · cases h
  · rename_i c hc
    simp only [Host.Outcome.next.injEq] at h
    exact ⟨by rw [hc]; rfl, h.symm⟩

theorem execFetch_next {s t : State} (h : execFetch s = .next t) :
    t = s ∨ ∃ x, s.txn = some x ∧ x.phase = .fetch ∧ fetchStep s x = .next t := by
  unfold execFetch at h
  split at h
  · simp only [Host.Outcome.next.injEq] at h; exact .inl h.symm
  · rename_i x hx
    split at h
    · rename_i hp; exact .inr ⟨x, hx, hp, h⟩
    · simp only [Host.Outcome.next.injEq] at h; exact .inl h.symm
    · simp only [Host.Outcome.next.injEq] at h; exact .inl h.symm
    · simp only [Host.Outcome.next.injEq] at h; exact .inl h.symm

/-! ## The invariant -/

/-- With no transaction in progress the clause about it is empty. -/
theorem txnOk_of_none {s : State} (h : s.txn = none) : txnOk s := by
  intro x hx
  rw [h] at hx
  cases hx

theorem inv_respond {s : State} (h : Inv s) (r : Response) : Inv (respond s r) :=
  ⟨h.mem, h.otgcon, h.fifo, h.txn⟩

theorem inv_setStallif {s : State} (h : Inv s) : Inv (setStallif s) :=
  ⟨h.mem, h.otgcon, h.fifo, h.txn⟩

theorem inv_finish {s : State} (h : Inv s) (r : Response) : Inv (finish s r) :=
  ⟨h.mem, h.otgcon, h.fifo, txnOk_of_none rfl⟩

theorem inv_stallArmed {s : State} (h : Inv s) (x : Txn) : Inv (stallArmed s x) :=
  ⟨h.mem, h.otgcon, h.fifo, txnOk_of_none rfl⟩

/-- The completion step of a transaction that began with a free place in the queue (42_bus_transactions.md R197). -/
theorem inv_finish_retireOp {s : State} (h : Inv s) {base : Word} (hb : base.toNat % 512 = 0)
    (hf : s.fifo.length < s.cfg.fifoDepth) (ep : Fin 16) (dir : Dir) (odd : Bool) (n : Half) (tg : Bool) (k : Kind)
    (r : Response) : Inv (finish (retireOp base ep dir odd n tg k s) r) := by
  have ha := bdAddr_lt hb ep dir odd
  refine ⟨?_, ?_, ?_, txnOk_of_none rfl⟩
  · rw [retireOp_frame]; exact memWf_memPutBytes h.mem (by rw [length_wordBytes]; omega)
  · rw [retireOp_frame]; exact h.otgcon
  · rw [retireOp_frame]; simp only [finish_fifo, List.length_append, List.length_singleton, finish_cfg]; omega

theorem inv_storeBytes {s : State} (h : Inv s) {a : Nat} {bs : List Byte} (ha : a + bs.length ≤ 2 ^ 32) :
    Inv (storeBytes s a bs) :=
  ⟨memWf_memPutBytes h.mem ha, h.otgcon, h.fifo, h.txn⟩

theorem inv_retires {s t : State} (h : Inv s) {x : Txn} {odd : Bool} (hb : x.base.toNat % 512 = 0)
    (hf : s.fifo.length < s.cfg.fifoDepth) (hr : Retires s x odd t) : Inv t := by
  obtain ⟨a, bs, n, tg, r, -, ha, rfl⟩ := hr
  exact inv_finish_retireOp (inv_storeBytes h ha) hb hf _ _ _ _ _ _ _

theorem inv_transact {s t : State} (h : Inv s) {x : Txn} (hb : x.base.toNat % 512 = 0)
    (hf : s.fifo.length < s.cfg.fifoDepth) (ht : transact s x = .next t) : Inv t := by
  rcases transact_next ht with ⟨r, rfl⟩ | ⟨-, rfl⟩ | hr
  · exact inv_finish h r
  · exact inv_stallArmed h x
  · exact inv_retires h hb hf hr

/-- A token keeps the invariant: its checks let nothing begin while the queue is full. -/
theorem inv_tokenOp {k : Kind} {addr : BitVec 7} {ep : Fin 16} {tg : Bool} {p : List Byte} {ack : Bool} {s t : State}
    (h : Inv s) (ht : tokenOp k addr ep tg p ack s = .next t) : Inv t := by
  rcases tokenOp_next ht with ⟨r, -, rfl⟩ | ⟨-, rfl⟩ | ⟨hc, -, rfl⟩ | ⟨hc, -, ht⟩
  · exact inv_respond h r
  · exact inv_respond (inv_setStallif h) _
  · have hg := (tokenChecks_go_iff s k addr ep).1 hc
    refine ⟨h.mem, h.otgcon, h.fifo, ?_⟩
    intro x hx
    simp only [Option.some.injEq] at hx
    subst hx
    exact ⟨hg.2.2.2.2.2.1, bdtBase_mod s, trivial⟩
  · have hg := (tokenChecks_go_iff s k addr ep).1 hc
    exact inv_transact h (bdtBase_mod s) hg.2.2.2.2.2.1 ht

/-- A transaction goes on in another phase. -/
theorem inv_setPhase {s : State} (h : Inv s) {x : Txn} {p : Phase} (hb : x.base.toNat % 512 = 0)
    (hf : s.fifo.length < s.cfg.fifoDepth) (hp : phaseOk s { x with phase := p }) : Inv (setPhase s x p) := by
  refine ⟨h.mem, h.otgcon, h.fifo, ?_⟩
  intro y hy
  simp only [setPhase_txn, Option.some.injEq] at hy
  subst hy
  exact ⟨hf, hb, hp⟩

/-! ## The data phase, one access at a time -/

/-- A data phase of the word `w0` may go on: the descriptor is the pointer's, the word is a command, and the packet fits the
buffer that was checked. -/
structure DataOk (s : State) (x : Txn) (odd : Bool) (w0 a : Word) : Prop where
  base : x.base.toNat % 512 = 0
  free : s.fifo.length < s.cfg.fifoDepth
  odd : odd = ppbi s x.ep (dirOf x.kind)
  fetched : (fetchCommand w0).isOk = true
  owned : bitAt 16 (flagsOf w0) 7 = true
  count : (countOf w0).toNat ≤ maxCount
  fits : bytesToMove x (countOf w0) ≤ (countOf w0).toNat
  range : a.toNat + (countOf w0).toNat ≤ 2 ^ 32

theorem DataOk.storeBytes {s : State} {x : Txn} {odd : Bool} {w0 a : Word} (h : DataOk s x odd w0 a) (b : Nat)
    (bs : List Byte) : DataOk (Machine.storeBytes s b bs) x odd w0 a :=
  ⟨h.base, h.free, h.odd, h.fetched, h.owned, h.count, h.fits, h.range⟩

theorem inv_allMoved {s : State} {x : Txn} {odd tg : Bool} {w0 a : Word} {got : List Byte} (h : Inv s)
    (hd : DataOk s x odd w0 a) : Inv (allMoved s x odd tg (countOf w0) got) := by
  have hc := hd.count
  have hf := hd.fits
  unfold allMoved
  split
  · split
    · exact inv_finish h _
    · exact inv_setPhase (inv_respond h _) hd.base hd.free ⟨hd.odd, hd.count⟩
  · rename_i hk
    refine inv_setPhase h hd.base hd.free ⟨hd.odd, ?_⟩
    simp only [bytesToMove, hk] at hf
    rw [BitVec.toNat_ofNat]
    exact Nat.le_trans (Nat.mod_le _ _) (by omega)
  · rename_i hk
    refine inv_setPhase h hd.base hd.free ⟨hd.odd, ?_⟩
    simp only [bytesToMove, hk] at hf
    rw [BitVec.toNat_ofNat]
    exact Nat.le_trans (Nat.mod_le _ _) (by omega)

theorem inv_afterMove {s : State} {x : Txn} {odd tg : Bool} {w0 a : Word} {i : Nat} {got : List Byte} (h : Inv s)
    (hd : DataOk s x odd w0 a) : Inv (afterMove s x odd w0 a tg (countOf w0) i got) := by
  unfold afterMove
  split
  · exact inv_allMoved h hd
  · rename_i hi
    exact inv_setPhase h hd.base hd.free ⟨hd.odd, hd.fetched, hd.owned, by
      change i < bytesToMove x (countOf w0)
      omega, hd.fits, hd.range⟩

theorem inv_moveByte {s : State} {x : Txn} {odd tg : Bool} {w0 a : Word} {i : Nat} {got : List Byte} (h : Inv s)
    (hd : DataOk s x odd w0 a) : Inv (moveByte s x odd w0 a tg (countOf w0) i got) := by
  have hf := hd.fits
  have hr := hd.range
  unfold moveByte
  split
  · exact inv_allMoved h hd
  · rename_i hi
    have hone : ∀ b : Byte, a.toNat + i + [b].length ≤ 2 ^ 32 := fun b => by
      simp only [List.length_singleton]
      omega
    split
    · exact inv_afterMove h hd
    · exact inv_afterMove (inv_storeBytes h (hone _)) (hd.storeBytes _ _)
    · exact inv_afterMove (inv_storeBytes h (hone _)) (hd.storeBytes _ _)

end Sys2Proof.Machine
end

