-- ==== Sys2Proof/Laws/Software.lean ====
section
/-! SUPPORT. What software cannot change, register by register and call by call: the pointers, the transaction in progress,
the parameters; and what it keeps: the canonical form of memory, the queue's bound, OTGCON at 0. -/

namespace Sys2Proof.Machine

/-- `t` is what an operation of the software agent may make of `s` (10_state.md R27, 43_completion.md R236): it moves no
pointer, starts and ends no transaction, only pops the queue and never sets PKTDIS. -/
structure Keeps (s t : State) : Prop where
  cfg : t.cfg = s.cfg
  txn : t.txn = s.txn
  ppbiRx : t.ppbiRx = s.ppbiRx
  ppbiTx : t.ppbiTx = s.ppbiTx
  inputs : t.inputs = s.inputs
  fine : t.fine = s.fine
  fifo : t.fifo <:+ s.fifo
  pktdis : t.pktdis = true → s.pktdis = true
  otgcon : s.otgcon = 0#8 → t.otgcon = 0#8
  mem : memWf s.mem = true → memWf t.mem = true

theorem Keeps.refl (s : State) : Keeps s s :=
  ⟨rfl, rfl, rfl, rfl, rfl, rfl, List.suffix_refl _, id, id, id⟩

theorem Keeps.trans {s t u : State} (h : Keeps s t) (k : Keeps t u) : Keeps s u :=
  ⟨k.cfg.trans h.cfg, k.txn.trans h.txn, k.ppbiRx.trans h.ppbiRx, k.ppbiTx.trans h.ppbiTx, k.inputs.trans h.inputs,
    k.fine.trans h.fine, k.fifo.trans h.fifo, fun p => h.pktdis (k.pktdis p), fun o => k.otgcon (h.otgcon o),
    fun m => k.mem (h.mem m)⟩

/-- An update of none of the fields the relation speaks of. -/
theorem Keeps.of_fields {s t : State} (cfg : t.cfg = s.cfg) (txn : t.txn = s.txn) (rx : t.ppbiRx = s.ppbiRx)
    (tx : t.ppbiTx = s.ppbiTx) (inputs : t.inputs = s.inputs) (fine : t.fine = s.fine) (fifo : t.fifo = s.fifo)
    (pktdis : t.pktdis = s.pktdis) (otgcon : t.otgcon = s.otgcon) (mem : t.mem = s.mem) : Keeps s t :=
  ⟨cfg, txn, rx, tx, inputs, fine, fifo ▸ List.suffix_refl _, fun h => pktdis ▸ h, fun h => otgcon ▸ h, fun h => mem ▸ h⟩

/-- An update of memory alone that keeps its form. -/
theorem Keeps.of_mem {s : State} {m : Memory} (h : memWf s.mem = true → memWf m = true) : Keeps s { s with mem := m } :=
  ⟨rfl, rfl, rfl, rfl, rfl, rfl, List.suffix_refl _, id, id, h⟩

/-- The pointers and the table base that a descriptor address is made of. -/
theorem Keeps.ppbi {s t : State} (h : Keeps s t) (ep : Fin 16) (dir : Dir) :
    Machine.ppbi t ep dir = Machine.ppbi s ep dir :=
  ppbi_congr s t h.ppbiRx h.ppbiTx ep dir

theorem Keeps.fifo_length {s t : State} (h : Keeps s t) : t.fifo.length ≤ s.fifo.length :=
  h.fifo.length_le

/-- Every operation that keeps these fields keeps the invariant. -/
theorem Keeps.inv {s t : State} (h : Keeps s t) (hi : Inv s) : Inv t := by
  refine ⟨h.mem hi.mem, h.otgcon hi.otgcon, ?_, ?_⟩
  · rw [h.cfg]; exact Nat.le_trans h.fifo_length hi.fifo
  · intro x hx
    rw [h.txn] at hx
    obtain ⟨h1, h2, h3⟩ := hi.txn x hx
    refine ⟨?_, h2, ?_⟩
    · rw [h.cfg]; exact Nat.lt_of_le_of_lt h.fifo_length h1
    · have hp := h.ppbi x.ep (dirOf x.kind)
      simp only [phaseOk, hp]
      exact h3

/-- A sequence of two keeps what both keep. -/
theorem Keeps.andThen {o : Result} {f : State → Result} {s u : State} (h : Machine.andThen o f = .next u)
    (h1 : ∀ t, o = .next t → Keeps s t) (h2 : ∀ t, f t = .next u → Keeps t u) : Keeps s u := by
  obtain ⟨t, ht, hu⟩ := (andThen_next_iff o f u).1 h
  exact (h1 t ht).trans (h2 t hu)

/-! ## Register operations -/

theorem readReg_keeps {b : Byte} {s t : State} (h : readReg b s = .next t) : Keeps s t := by
  rw [(readReg_next_iff b s t).1 h]
  exact .of_fields rfl rfl rfl rfl rfl rfl rfl rfl rfl rfl

theorem readDrawn_keeps {f : State → Byte → Byte} {s t : State} (h : readDrawn f s = .next t) : Keeps s t := by
  rw [(readDrawn_next_iff f s t).1 h]
  exact .of_fields rfl rfl rfl rfl rfl rfl rfl rfl rfl rfl

theorem writeReg_keeps {mask : Byte} {v : Word} {f : State → Byte → State} {s t : State} (h : writeReg mask v f s = .next t)
    (hf : Keeps s (f s (lowByte v))) : Keeps s t := by
  rw [((writeReg_next_iff mask v f s t).1 h).2]
  exact hf

theorem execRdEp_keeps {n : Fin 16} {s t : State} (h : execRdEp n s = .next t) : Keeps s t := readReg_keeps h

theorem execRdEir_keeps {s t : State} (h : execRdEir s = .next t) : Keeps s t := readReg_keeps h

theorem execRdIr_keeps {s t : State} (h : execRdIr s = .next t) : Keeps s t := readDrawn_keeps h

theorem execRdCon_keeps {s t : State} (h : execRdCon s = .next t) : Keeps s t := readDrawn_keeps h

theorem execRdStat_keeps {s t : State} (h : execRdStat s = .next t) : Keeps s t := by
  unfold execRdStat at h
  split at h
  · exact readReg_keeps h
  · exact readDrawn_keeps h

theorem execWrEp_keeps {n : Fin 16} {v : Word} {s t : State} (h : execWrEp n v s = .next t) : Keeps s t :=
  writeReg_keeps h (.of_fields rfl rfl rfl rfl rfl rfl rfl rfl rfl rfl)

theorem execWrPwrc_keeps {v : Word} {s t : State} (h : execWrPwrc v s = .next t) : Keeps s t :=
  writeReg_keeps h (.of_fields rfl rfl rfl rfl rfl rfl rfl rfl rfl rfl)

theorem execWrCon_keeps {v : Word} {s t : State} (h : execWrCon v s = .next t) : Keeps s t := by
  refine writeReg_keeps h ⟨rfl, rfl, rfl, rfl, rfl, rfl, List.suffix_refl _, ?_, id, id⟩
  simp only [writeCon_pktdis, Bool.and_eq_true]
  exact And.left

theorem execWrAddr_keeps {v : Word} {s t : State} (h : execWrAddr v s = .next t) : Keeps s t :=
  writeReg_keeps h (.of_fields rfl rfl rfl rfl rfl rfl rfl rfl rfl rfl)

theorem execWrOtgcon_keeps {v : Word} {s t : State} (h : execWrOtgcon v s = .next t) : Keeps s t :=
  writeReg_keeps h ⟨rfl, rfl, rfl, rfl, rfl, rfl, List.suffix_refl _, id, fun _ => rfl, id⟩

theorem execWrIr_keeps {v : Word} {s t : State} (h : execWrIr v s = .next t) : Keeps s t := by
  refine writeReg_keeps h ⟨rfl, rfl, rfl, rfl, rfl, rfl, ?_, id, id, id⟩
  simp only [clearIr_fifo]
  split
  · exact List.tail_suffix _
  · exact List.suffix_refl _

theorem execWrIe_keeps {v : Word} {s t : State} (h : execWrIe v s = .next t) : Keeps s t :=
  writeReg_keeps h (.of_fields rfl rfl rfl rfl rfl rfl rfl rfl rfl rfl)

theorem execWrEir_keeps {v : Word} {s t : State} (h : execWrEir v s = .next t) : Keeps s t :=
  writeReg_keeps h (.of_fields rfl rfl rfl rfl rfl rfl rfl rfl rfl rfl)

theorem execWrStat_keeps {v : Word} {s t : State} (h : execWrStat v s = .next t) : Keeps s t :=
  writeReg_keeps h (.refl s)

theorem execWrBdtp1_keeps {v : Word} {s t : State} (h : execWrBdtp1 v s = .next t) : Keeps s t :=
  writeReg_keeps h (.of_fields rfl rfl rfl rfl rfl rfl rfl rfl rfl rfl)

theorem execWrBdtp2_keeps {v : Word} {s t : State} (h : execWrBdtp2 v s = .next t) : Keeps s t :=
  writeReg_keeps h (.of_fields rfl rfl rfl rfl rfl rfl rfl rfl rfl rfl)

theorem execWrBdtp3_keeps {v : Word} {s t : State} (h : execWrBdtp3 v s = .next t) : Keeps s t :=
  writeReg_keeps h (.of_fields rfl rfl rfl rfl rfl rfl rfl rfl rfl rfl)

/-! ## Memory and descriptors -/

theorem softRead_keeps {w : Width} {a : Nat} {s t : State} (h : softRead w a s = .next t) : Keeps s t := by
  obtain ⟨-, rfl⟩ := (softRead_next_iff w a s t).1 h
  exact .of_fields rfl rfl rfl rfl rfl rfl rfl rfl rfl rfl

theorem softWrite_keeps {w : Width} {a : Nat} {v : Word} {s t : State} (h : softWrite w a v s = .next t) : Keeps s t := by
  obtain ⟨ha, rfl⟩ := (softWrite_next_iff w a v s t).1 h
  exact .of_mem fun hm => memWf_memPutBytes hm (by rw [length_storeValue]; exact ha)

theorem memAccess_keeps {x : MemAccess} {s t : State} (h : memAccess x s = .next t) : Keeps s t := by
  unfold memAccess at h
  split at h
  · exact softWrite_keeps h
  · exact softRead_keeps h

theorem pending_keeps (s : State) (p : List MemAccess) : Keeps s { s with pending := p } :=
  .of_fields rfl rfl rfl rfl rfl rfl rfl rfl rfl rfl

theorem nextWrite_keeps {s t : State} (h : nextWrite s = .next t) : Keeps s t := by
  unfold nextWrite at h
  split at h
  · simp only [Host.Outcome.next.injEq] at h; subst h; exact .refl s
  · exact (pending_keeps s _).trans (memAccess_keeps h)

theorem allWrites_keeps {ws : List MemAccess} {s t : State} (h : allWrites ws s = .next t) : Keeps s t := by
  induction ws generalizing s with
  | nil => simp only [allWrites, Host.Outcome.next.injEq] at h; subst h; exact .refl s
  | cons w ws ih => exact .andThen h (fun _ => memAccess_keeps) fun _ => ih

/-- No hand-over operation moves a pointer, starts or ends a transaction, or touches a register. -/
theorem handOver_keeps {ws : List MemAccess} {s t : State} (h : handOver ws s = .next t) : Keeps s t := by
  unfold handOver at h
  split at h
  · exact (pending_keeps s ws).trans (nextWrite_keeps h)
  · exact allWrites_keeps h

/-! ## Register operations by the register's name -/

theorem exec_readInstr_keeps {r : Reg} {s t : State} (h : exec (readInstr r) s = .next t) : Keeps s t := by
  cases r with
  | ir => exact execRdIr_keeps h
  | con => exact execRdCon_keeps h
  | stat => exact execRdStat_keeps h
  | otgcon => exact readReg_keeps h
  | pwrc => exact readReg_keeps h
  | ie => exact readReg_keeps h
  | eir => exact readReg_keeps h
  | addr => exact readReg_keeps h
  | bdtp1 => exact readReg_keeps h
  | bdtp2 => exact readReg_keeps h
  | bdtp3 => exact readReg_keeps h
  | ep n => exact readReg_keeps h

theorem exec_writeInstr_keeps {r : Reg} {v : Word} {s t : State} (h : exec (writeInstr v r) s = .next t) : Keeps s t := by
  cases r with
  | ir => exact execWrIr_keeps h
  | con => exact execWrCon_keeps h
  | stat => exact execWrStat_keeps h
  | otgcon => exact execWrOtgcon_keeps h
  | pwrc => exact execWrPwrc_keeps h
  | ie => exact execWrIe_keeps h
  | eir => exact execWrEir_keeps h
  | addr => exact execWrAddr_keeps h
  | bdtp1 => exact execWrBdtp1_keeps h
  | bdtp2 => exact execWrBdtp2_keeps h
  | bdtp3 => exact execWrBdtp3_keeps h
  | ep n => exact execWrEp_keeps h

/-! ## The driver: a procedure keeps what each of its accesses keeps -/

theorem drv_keeps (s : State) (d : Driver) : Keeps s { s with drv := d } :=
  .of_fields rfl rfl rfl rfl rfl rfl rfl rfl rfl rfl

theorem call_keeps (s : State) (c : Option CallInProgress) : Keeps s { s with call := c } :=
  .of_fields rfl rfl rfl rfl rfl rfl rfl rfl rfl rfl

theorem runAccess_keeps {a : Access} {s t : State} (h : runAccess a s = .next t) : Keeps s t := by
  cases a with
  | readReg r => exact exec_readInstr_keeps h
  | writeReg r v => exact exec_writeInstr_keeps h
  | readMem w a => exact softRead_keeps h
  | writeMem w a v => exact softWrite_keeps h

theorem runProcedure_keeps {p : Procedure} {s t : State} (h : runProcedure p s = .next t) : Keeps s t := by
  induction p generalizing s with
  | returns d => simp only [runProcedure, Host.Outcome.next.injEq] at h; subst h; exact drv_keeps s d
  | access a next ih => exact .andThen h (fun _ => runAccess_keeps) fun t => ih _

/-- No call of the driver moves a pointer, starts or ends a transaction, or sets PKTDIS. -/
theorem runCall_keeps {c : Call} {s t : State} (h : runCall c s = .next t) : Keeps s t :=
  runProcedure_keeps h

theorem startCall_keeps {c : Call} {s t : State} (h : startCall c s = .next t) : Keeps s t := by
  unfold startCall at h
  split at h
  · simp only [Host.Outcome.next.injEq] at h; subst h; exact call_keeps s _
  · exact runCall_keeps h

theorem callTurn_keeps {c : CallInProgress} {s t : State} (h : callTurn c s = .next t) : Keeps s t := by
  unfold callTurn at h
  split at h
  · rename_i d _
    simp only [Host.Outcome.next.injEq] at h; subst h; exact (drv_keeps s d).trans (call_keeps _ none)
  · refine .andThen h (fun _ => runAccess_keeps) fun u h => ?_
    simp only [Host.Outcome.next.injEq] at h; subst h; exact call_keeps u _

end Sys2Proof.Machine
end

