-- ==== Sys2Proof/Laws/Turns.lean ====
section
/-! SUPPORT. What one step can do, said once: an operation of software, a bus event, or a turn of the engine. -/

namespace Sys2Proof.Machine

/-! ## What comes from outside -/

theorem portInstr_decode {rm : RegMap} {f : Frame} {i : Instr} (h : portInstr rm f = .ok i) :
    f.fmt ≠ .bd ∧ f.fmt ≠ .eng ∧ decode rm f = .ok i := by
  unfold portInstr at h
  split at h <;> simp_all

/-- What a frame of format `tok` can decode to. -/
theorem decodeTok_cases {bs : List Byte} {i : Instr} (h : decodeTok bs = .ok i) :
    (∃ k addr ep tg p ack, i = tokenInstr k addr ep tg p ack ∧ p.length ≤ maxCount) ∨ i = .busSof := by
  unfold decodeTok at h
  split at h
  · split at h
    · cases h
    · split at h
      · cases h
      · rename_i hl
        unfold decodeToken at h
        dsimp only at h
        split at h
        · simp only [Except.ok.injEq] at h; exact .inl ⟨.out, _, _, _, _, false, h.symm, by omega⟩
        · simp only [Except.ok.injEq] at h; exact .inl ⟨.setup, _, _, _, _, false, h.symm, by omega⟩
        · split at h
          · simp only [Except.ok.injEq] at h; exact .inl ⟨.inn, _, _, false, [], _, h.symm, by simp⟩
          · cases h
        · split at h
          · split at h
            · simp only [Except.ok.injEq] at h; exact .inr h.symm
            · cases h
          · cases h
  · cases h

/-- What a frame of format `cond` can decode to. -/
theorem decodeCond_cases {bs : List Byte} {i : Instr} (h : decodeCond bs = .ok i) :
    i = .busReset ∨ ∃ m, i = .busErr m := by
  unfold decodeCond at h
  split at h
  · split at h
    · simp only [Except.ok.injEq] at h; exact .inl h.symm
    · cases h
  · split at h
    · simp only [Except.ok.injEq] at h; exact .inr ⟨_, h.symm⟩
    · cases h
  · cases h

/-- What a frame of format `reg` can decode to. -/
theorem decodeReg_cases {rm : RegMap} {bs : List Byte} {i : Instr} (h : decodeReg rm bs = .ok i) :
    (∃ r, i = readInstr r) ∨ ∃ r v, i = writeInstr v r := by
  unfold decodeReg accessInstr at h
  repeat' split at h
  all_goals first
    | (cases h; done)
    | (simp only [Except.ok.injEq] at h; exact .inl ⟨_, h.symm⟩)
    | (simp only [Except.ok.injEq] at h; exact .inr ⟨_, _, h.symm⟩)

/-- What a frame of format `pseudo` can decode to. -/
theorem decodePseudo_cases {bs : List Byte} {i : Instr} (h : decodePseudo bs = .ok i) :
    (∃ ep dir odd n a t d, i = .arm ep dir odd n a t d ∨ i = .armStall ep dir odd n a t d ∨
      i = .stallOverride ep dir odd n a t d) ∨ (∃ ep dir odd, i = .reclaim ep dir odd) ∨ (∃ ep dir, i = .bdInit ep dir) := by
  unfold decodePseudo at h
  repeat' split at h
  all_goals first
    | (cases h; done)
    | (simp only [Except.ok.injEq] at h; exact .inl ⟨_, _, _, _, _, _, _, .inl h.symm⟩)
    | (simp only [Except.ok.injEq] at h; exact .inl ⟨_, _, _, _, _, _, _, .inr (.inl h.symm)⟩)
    | (simp only [Except.ok.injEq] at h; exact .inl ⟨_, _, _, _, _, _, _, .inr (.inr h.symm)⟩)
    | (simp only [Except.ok.injEq] at h; exact .inr (.inl ⟨_, _, _, h.symm⟩))
    | (simp only [Except.ok.injEq] at h; exact .inr (.inr ⟨_, _, h.symm⟩))

/-! ## Operations of software -/

/-- A hand-over operation of software keeps what software cannot change. -/
theorem exec_pseudo_keeps {bs : List Byte} {i : Instr} {s t : State} (hd : decodePseudo bs = .ok i)
    (h : exec i s = .next t) : Keeps s t := by
  rcases decodePseudo_cases hd with ⟨ep, dir, odd, n, a, tg, d, rfl | rfl | rfl⟩ | ⟨ep, dir, odd, rfl⟩ | ⟨ep, dir, rfl⟩
  · exact handOver_keeps (ws := armWrites ..) h
  · exact handOver_keeps (ws := armWrites ..) h
  · exact handOver_keeps (ws := armWrites ..) h
  · exact memAccess_keeps (x := write16 _ _) h
  · exact handOver_keeps (ws := initWrites _ ++ initWrites _) h

/-! ## Bus events -/

/-- A bus event that is no transaction at most sets URSTIF or EIR bits (42_bus_transactions.md R217 to R219). -/
def Quiet (s t : State) : Prop :=
  t = { s with urstif := t.urstif, eir := t.eir, resp := t.resp }

/-- A bus event is a token of a transaction, or quiet. -/
theorem exec_bus_cases {rm : RegMap} {f : Frame} {i : Instr} {s t : State} (hd : decode rm f = .ok i)
    (hf : f.fmt = .tok ∨ f.fmt = .cond) (h : exec i s = .next t) :
    Quiet s t ∨ ∃ k addr ep tg p ack, tokenOp k addr ep tg p ack s = .next t := by
  unfold decode at hd
  rcases hf with hf | hf
  · rw [hf] at hd
    rcases decodeTok_cases hd with ⟨k, addr, ep, tg, p, ack, rfl, -⟩ | rfl
    · cases k
      · exact .inr ⟨_, _, _, _, _, _, h⟩
      · exact .inr ⟨_, _, _, _, _, _, h⟩
      · exact .inr ⟨_, _, _, _, _, _, h⟩
    · simp only [exec, execBusSof, Host.Outcome.next.injEq] at h; subst h; exact .inl rfl
  · rw [hf] at hd
    rcases decodeCond_cases hd with rfl | ⟨m, rfl⟩
    · simp only [exec, execBusReset, Host.Outcome.next.injEq] at h; subst h
      split
      · exact .inl rfl
      · exact .inl rfl
    · simp only [exec, execBusErr, Host.Outcome.next.injEq] at h; subst h
      split
      · exact .inl rfl
      · exact .inl rfl

/-! ## A turn of the engine -/

/-- The parity of the descriptor a transaction has fetched. -/
def latchOdd : Phase → Option Bool
  | .fetch => none
  | .command odd _ => some odd
  | .data odd _ _ _ _ => some odd
  | .done odd _ _ => some odd

/-- What a turn of the engine can do: end the transaction with a response, with the stall armed or with its descriptor
retired, or take it one access on. -/
theorem engineTurn_cases {s t : State} {x : Txn} (hx : s.txn = some x) (h : engineTurn x s = .next t) :
    t = s ∨ (∃ r, t = finish s r) ∨ (x.kind ≠ .setup ∧ t = stallArmed s x) ∨ (∃ odd, latchOdd x.phase = some odd ∧ Retires s x odd t) ∨
      (∃ p, t = setPhase s x p) ∨ (∃ odd w0 a tg n, t = afterMove s x odd w0 a tg n 0 []) ∨
      (∃ odd w0 a tg n i got, t = moveByte s x odd w0 a tg n i got) := by
  have data : ∀ {tg d : Bool} {n : Half}, dataCommand tg d n s = .next t →
      t = s ∨ (∃ r, t = finish s r) ∨ (∃ odd, latchOdd x.phase = some odd ∧ Retires s x odd t) ∨
        (∃ odd w0 a tg n, t = afterMove s x odd w0 a tg n 0 []) ∨
        (∃ odd w0 a tg n i got, t = moveByte s x odd w0 a tg n i got) := by
    intro tg d n hd
    rcases dataCommand_next hd with hs | ⟨y, hy, hh⟩
    · exact .inl hs
    · rw [hx] at hy; simp only [Option.some.injEq] at hy; subst hy
      rcases hh with ⟨odd, w0, -, -, hb⟩ | ⟨odd, w0, hp, -, hb⟩ | ⟨odd, w0, a, i, got, -, rfl⟩
      · rcases beginData_next hb with hr | ⟨a, -, -, rfl⟩
        · exact .inr (.inl hr)
        · exact .inr (.inr (.inr (.inl ⟨_, _, _, _, _, rfl⟩)))
      · rcases runData_next hb with hr | hr
        · exact .inr (.inl hr)
        · exact .inr (.inr (.inl ⟨odd, by rw [hp]; rfl, hr⟩))
      · exact .inr (.inr (.inr (.inr ⟨_, _, _, _, _, _, _, rfl⟩)))
  have word : ∀ {w0 : Word} {i : Instr}, decodeBd w0 = .ok i → exec i s = .next t → (∀ odd m v, x.phase ≠ .done odd m v) →
      t = s ∨ (∃ r, t = finish s r) ∨ (x.kind ≠ .setup ∧ t = stallArmed s x) ∨ (∃ odd, latchOdd x.phase = some odd ∧ Retires s x odd t) ∨
        (∃ odd w0 a tg n, t = afterMove s x odd w0 a tg n 0 []) ∨
        (∃ odd w0 a tg n i got, t = moveByte s x odd w0 a tg n i got) := by
    intro w0 i hdec he hnd
    have result : ∀ {tg : Bool} {k : Kind} {n : Half}, resultCommand tg k n s = .next t → t = s ∨ ∃ r, t = finish s r := by
      intro tg k n hr
      rcases resultCommand_next hr with hs | hr | ⟨y, odd, m, v, hy, hp, -⟩
      · exact .inl hs
      · exact .inr hr
      · rw [hx] at hy; simp only [Option.some.injEq] at hy; subst hy
        exact absurd hp (hnd _ _ _)
    rcases decodeBd_cases hdec with ⟨-, rfl⟩ | ⟨tg, d, rfl, -⟩ | ⟨tg, d, rfl, -⟩
    · have : t = s ∨ ∃ r, t = finish s r := by
        unfold idleInstr at he
        split at he
        · exact result he
        · exact result he
        · exact result he
        · exact idleCommand_next he
      rcases this with hs | hr
      · exact .inl hs
      · exact .inr (.inl hr)
    · rcases data he with h1 | h1 | h1 | h1
      · exact .inl h1
      · exact .inr (.inl h1)
      · exact .inr (.inr (.inr (.inl h1)))
      · exact .inr (.inr (.inr (.inr h1)))
    · rcases stallCommand_next he with hs | ⟨y, hy, ⟨-, hd⟩ | ⟨hk, odd, w, -, rfl⟩⟩
      · exact .inl hs
      · rcases data hd with h1 | h1 | h1 | h1
        · exact .inl h1
        · exact .inr (.inl h1)
        · exact .inr (.inr (.inr (.inl h1)))
        · exact .inr (.inr (.inr (.inr h1)))
      · rw [hx] at hy; simp only [Option.some.injEq] at hy; subst hy
        exact .inr (.inr (.inl ⟨hk, rfl⟩))
  have lift : ∀ {A B C D E F : Prop}, A ∨ B ∨ C ∨ D ∨ F → A ∨ B ∨ C ∨ D ∨ E ∨ F := by tauto
  unfold engineTurn at h
  split at h
  · rename_i i hi
    unfold engineInstr at hi
    split at hi
    · simp only [Except.ok.injEq] at hi; subst hi
      rcases execFetch_next h with hs | ⟨y, hy, -, hf⟩
      · exact .inl hs
      · rw [hx] at hy; simp only [Option.some.injEq] at hy; subst hy
        exact .inr (.inr (.inr (.inr (.inl ⟨_, (fetchStep_next hf).2⟩))))
    · rename_i odd w0 hp
      exact lift (word hi h (by intro _ _ _ hq; rw [hp] at hq; cases hq))
    · rename_i odd w0 a j got hp
      exact lift (word hi h (by intro _ _ _ hq; rw [hp] at hq; cases hq))
    · rename_i odd n tg hp
      simp only [Except.ok.injEq] at hi; subst hi
      simp only [exec, execRetire, Host.Outcome.next.injEq, retireStep, hx] at h
      exact .inr (.inr (.inr (.inl ⟨odd, by rw [hp]; rfl, 0, [], n, tg, _, fun _ => rfl, by simp, h.symm⟩)))
  · cases h

/-! ## A step -/

/-- What a port operation can do. -/
theorem portInstr_cases {rm : RegMap} {f : Frame} {i : Instr} {s t : State} (hi : portInstr rm f = .ok i)
    (h : exec i s = .next t) :
    (agentOf (.op f) = .bus ∧ (Quiet s t ∨ ∃ k addr ep tg p ack, tokenOp k addr ep tg p ack s = .next t)) ∨
      (agentOf (.op f) = .software ∧ Keeps s t) := by
  obtain ⟨hb, he, hd⟩ := portInstr_decode hi
  by_cases hf : f.fmt = .tok ∨ f.fmt = .cond
  · exact .inl ⟨by simp only [agentOf, if_pos hf], exec_bus_cases hd hf h⟩
  · refine .inr ⟨by simp only [agentOf, if_neg hf], ?_⟩
    unfold decode at hd
    split at hd
    · exact absurd ‹_› hb
    · exact absurd (.inl ‹_›) hf
    · exact absurd (.inr ‹_›) hf
    · rcases decodeReg_cases hd with ⟨r, rfl⟩ | ⟨r, v, rfl⟩
      · exact exec_readInstr_keeps h
      · exact exec_writeInstr_keeps h
    · exact exec_pseudo_keeps hd h
    · exact absurd ‹_› he

/-- Whose turn it is, case by case. -/
theorem whoseTurn_cases (s : State) :
    (whoseTurn s = .idle) ∨ (∃ x, whoseTurn s = .engine x ∧ s.txn = some x) ∨
      (whoseTurn s = .software ∧ softwareBusy s = true) ∨
      (∃ i rest, whoseTurn s = .input i rest ∧ s.inputs = i :: rest ∧ (agentOf i = .bus → s.txn = none) ∧
        (agentOf i = .software → softwareBusy s = false ∨ i = .software)) := by
  unfold whoseTurn
  split
  · split
    · exact .inr (.inl ⟨_, rfl, ‹_›⟩)
    · split
      · exact .inr (.inr (.inl ⟨rfl, ‹_›⟩))
      · exact .inl rfl
  · rename_i i rest hin
    split
    · exact .inr (.inl ⟨_, rfl, ‹_›⟩)
    · rename_i ha hx
      exact .inr (.inr (.inr ⟨i, rest, rfl, hin, fun _ => hx, fun hb => by rw [ha] at hb; cases hb⟩))
    · rename_i ha
      split
      · exact .inr (.inr (.inl ⟨rfl, And.left ‹_›⟩))
      · rename_i hs
        refine .inr (.inr (.inr ⟨i, rest, rfl, hin, fun hb => (by rw [ha] at hb; cases hb), fun _ => ?_⟩))
        cases hb : softwareBusy s
        · exact .inl rfl
        · exact .inr (Classical.byContradiction fun hn => hs ⟨hb, hn⟩)
    · rename_i ha
      exact .inr (.inr (.inr ⟨i, rest, rfl, hin, fun hb => (by rw [ha] at hb; cases hb), fun hb => by rw [ha] at hb; cases hb⟩))

theorem softwareTurn_keeps {s t : State} (h : softwareTurn s = .next t) : Keeps s t := by
  unfold softwareTurn at h
  split at h
  · exact nextWrite_keeps h
  · exact callTurn_keeps h
  · simp only [Host.Outcome.next.injEq] at h; subst h; exact .refl _

/-- Everything a step can do. `s1` is the state with the input used up, or the state itself where the input waits or there is
none: an operation of software or an access of the one in progress, a bus event that is no transaction, a token with no
transaction in progress, or a turn of the engine in the transaction in progress. -/
theorem step_cases {s t : State} (h : step s = .next t) :
    ∃ s1, (s1 = s ∨ ∃ i rest, s.inputs = i :: rest ∧ s1 = { s with inputs := rest }) ∧
      (Keeps s1 t ∨ (s.txn = none ∧ Quiet s1 t) ∨
        (s.txn = none ∧ ∃ k addr ep tg p ack, tokenOp k addr ep tg p ack s1 = .next t) ∨
        ∃ x, s.txn = some x ∧ engineTurn x s1 = .next t) := by
  unfold step nextStep at h
  rcases whoseTurn_cases s with hw | ⟨x, hw, hx⟩ | ⟨hw, -⟩ | ⟨i, rest, hw, hin, hb, -⟩ <;> rw [hw] at h
  · simp only [Host.Outcome.next.injEq] at h; subst h
    exact ⟨s, .inl rfl, .inl (Keeps.refl s)⟩
  · exact ⟨s, .inl rfl, .inr (.inr (.inr ⟨x, hx, h⟩))⟩
  · exact ⟨s, .inl rfl, .inl (softwareTurn_keeps h)⟩
  · refine ⟨_, .inr ⟨i, rest, hin, rfl⟩, ?_⟩
    simp only [runInput] at h
    split at h
    · split at h
      · rename_i j hj
        rcases portInstr_cases hj h with ⟨ha, hq | ht⟩ | ⟨-, hk⟩
        · exact .inr (.inl ⟨hb ha, hq⟩)
        · exact .inr (.inr (.inl ⟨hb ha, ht⟩))
        · exact .inl hk
      · cases h
    · exact .inl (memAccess_keeps h)
    · exact .inl (startCall_keeps h)
    · split at h
      · rename_i x hx
        exact .inr (.inr (.inr ⟨x, hx, h⟩))
      · simp only [Host.Outcome.next.injEq] at h; subst h
        exact .inl (Keeps.refl _)
    · exact .inl (softwareTurn_keeps h)

end Sys2Proof.Machine
end

