-- ==== Sys2Proof/Laws/Frame.lean ====
section
/-! SUPPORT. What leaves the driver's state and the call in progress as they are: every operation of exec, and every step but
those of a driver call. -/

namespace Sys2Proof.Machine

/-! ## The engine's operations -/

theorem retireOp_software (base : Word) (ep : Fin 16) (dir : Dir) (odd : Bool) (n : Half) (tg : Bool) (k : Kind) (s : State) :
    (retireOp base ep dir odd n tg k s).drv = s.drv ∧ (retireOp base ep dir odd n tg k s).call = s.call := by
  rw [retireOp_frame]; exact ⟨rfl, rfl⟩

theorem retireStep_software (ep : Fin 16) (dir : Dir) (odd : Bool) (n : Half) (tg : Bool) (k : Kind) (s : State) :
    (retireStep ep dir odd n tg k s).drv = s.drv ∧ (retireStep ep dir odd n tg k s).call = s.call := by
  unfold retireStep; split <;> simp [retireOp_software]

theorem allMoved_software (s : State) (x : Txn) (odd tg : Bool) (n : Half) (got : List Byte) :
    (allMoved s x odd tg n got).drv = s.drv ∧ (allMoved s x odd tg n got).call = s.call := by
  unfold allMoved; repeat' split
  all_goals simp

theorem afterMove_software (s : State) (x : Txn) (odd : Bool) (w0 a : Word) (tg : Bool) (n : Half) (i : Nat) (got : List Byte) :
    (afterMove s x odd w0 a tg n i got).drv = s.drv ∧ (afterMove s x odd w0 a tg n i got).call = s.call := by
  unfold afterMove; split <;> simp [allMoved_software]

theorem moveByte_software (s : State) (x : Txn) (odd : Bool) (w0 a : Word) (tg : Bool) (n : Half) (i : Nat) (got : List Byte) :
    (moveByte s x odd w0 a tg n i got).drv = s.drv ∧ (moveByte s x odd w0 a tg n i got).call = s.call := by
  unfold moveByte; repeat' split
  all_goals simp [allMoved_software, afterMove_software]

theorem runData_software {s : State} {x : Txn} {odd tg d : Bool} {n : Half} {t : State} (h : runData s x odd tg d n = .next t) :
    t.drv = s.drv ∧ t.call = s.call := by
  simp only [runData, send, receive] at h
  repeat' split at h
  all_goals first
    | (cases h; done)
    | (simp only [Host.Outcome.next.injEq] at h; subst h; simp [retireOp_software])

theorem dataCommand_software {tg d : Bool} {n : Half} {s t : State} (h : dataCommand tg d n s = .next t) :
    t.drv = s.drv ∧ t.call = s.call := by
  simp only [dataCommand, beginData] at h
  repeat' split at h
  all_goals first
    | (cases h; done)
    | exact runData_software h
    | (simp only [Host.Outcome.next.injEq] at h; subst h; simp [afterMove_software, moveByte_software])

theorem stallArmed_software (s : State) (x : Txn) : (stallArmed s x).drv = s.drv ∧ (stallArmed s x).call = s.call := by
  simp [stallArmed]

theorem tokenOp_software {k : Kind} {addr : BitVec 7} {ep : Fin 16} {tg : Bool} {p : List Byte} {ack : Bool} {s t : State}
    (h : tokenOp k addr ep tg p ack s = .next t) : t.drv = s.drv ∧ t.call = s.call := by
  simp only [tokenOp, transact] at h
  repeat' split at h
  all_goals first
    | (cases h; done)
    | (simp only [Host.Outcome.next.injEq] at h; subst h; simp)
    | skip
  rename_i c _
  cases c <;> simp only [runCommand] at h
  all_goals repeat' split at h
  all_goals first
    | exact runData_software h
    | (simp only [Host.Outcome.next.injEq] at h; subst h; simp [stallArmed_software])

theorem stallCommand_software {tg d : Bool} {n : Half} {s t : State} (h : stallCommand tg d n s = .next t) :
    t.drv = s.drv ∧ t.call = s.call := by
  unfold stallCommand at h
  repeat' split at h
  all_goals first
    | exact dataCommand_software h
    | (simp only [Host.Outcome.next.injEq] at h; subst h; simp [stallArmed_software])

theorem idleCommand_software {s t : State} (h : idleCommand s = .next t) : t.drv = s.drv ∧ t.call = s.call := by
  rcases idleCommand_next h with rfl | ⟨r, rfl⟩ <;> exact ⟨rfl, rfl⟩

theorem resultCommand_software {tg : Bool} {k : Kind} {n : Half} {s t : State} (h : resultCommand tg k n s = .next t) :
    t.drv = s.drv ∧ t.call = s.call := by
  unfold resultCommand at h
  repeat' split at h
  all_goals first
    | exact idleCommand_software h
    | (simp only [Host.Outcome.next.injEq] at h; subst h; simp [retireStep_software])

theorem execFetch_software {s t : State} (h : execFetch s = .next t) : t.drv = s.drv ∧ t.call = s.call := by
  rcases execFetch_next h with rfl | ⟨x, -, -, hf⟩
  · exact ⟨rfl, rfl⟩
  · rw [(fetchStep_next hf).2]; exact ⟨rfl, rfl⟩

/-! ## Software's writes -/

theorem memAccess_software {x : MemAccess} {s t : State} (h : memAccess x s = .next t) : t.drv = s.drv ∧ t.call = s.call := by
  obtain ⟨-, rfl⟩ := (memAccess_next_iff x s t).1 h
  split <;> exact ⟨rfl, rfl⟩

theorem nextWrite_software {s t : State} (h : nextWrite s = .next t) : t.drv = s.drv ∧ t.call = s.call := by
  unfold nextWrite at h
  split at h
  · simp only [Host.Outcome.next.injEq] at h; subst h; exact ⟨rfl, rfl⟩
  · rename_i rest _
    exact memAccess_software (s := { s with pending := rest }) h

theorem allWrites_software {ws : List MemAccess} {s t : State} (h : allWrites ws s = .next t) :
    t.drv = s.drv ∧ t.call = s.call := by
  induction ws generalizing s with
  | nil => simp only [allWrites, Host.Outcome.next.injEq] at h; subst h; exact ⟨rfl, rfl⟩
  | cons w ws ih =>
    obtain ⟨u, hu, h⟩ := (andThen_next_iff _ _ _).1 h
    have := memAccess_software hu
    exact ⟨(ih h).1.trans this.1, (ih h).2.trans this.2⟩

theorem handOver_software {ws : List MemAccess} {s t : State} (h : handOver ws s = .next t) :
    t.drv = s.drv ∧ t.call = s.call := by
  unfold handOver at h
  split at h
  · exact nextWrite_software (s := { s with pending := ws }) h
  · exact allWrites_software h

/-! ## An operation, a step -/

/-- No operation of exec touches the driver's state or the call in progress: only a driver call does. -/
theorem exec_software {i : Instr} {s t : State} (h : exec i s = .next t) : t.drv = s.drv ∧ t.call = s.call := by
  have soft : ∀ {a : Access}, runAccess a s = .next t → t.drv = s.drv ∧ t.call = s.call := runAccess_drv
  cases i with
  | busOut => exact tokenOp_software h
  | busIn => exact tokenOp_software h
  | busSetup => exact tokenOp_software h
  | busSof => simp only [exec, execBusSof, Host.Outcome.next.injEq] at h; subst h; simp
  | busReset => simp only [exec, execBusReset, Host.Outcome.next.injEq] at h; subst h; split <;> simp
  | busErr => simp only [exec, execBusErr, Host.Outcome.next.injEq] at h; subst h; split <;> simp
  | bdData => exact dataCommand_software h
  | bdStall => exact stallCommand_software h
  | bdIdle => exact idleCommand_software h
  | bdDone => exact resultCommand_software h
  | bdDoneOut => exact resultCommand_software h
  | bdDoneIn => exact resultCommand_software h
  | bdDoneSetup => exact resultCommand_software h
  | fetch => exact execFetch_software h
  | retire => simp only [exec, execRetire, Host.Outcome.next.injEq] at h; subst h; exact retireStep_software ..
  | arm => exact handOver_software (ws := armWrites ..) h
  | armStall => exact handOver_software (ws := armWrites ..) h
  | stallOverride => exact handOver_software (ws := armWrites ..) h
  | reclaim => exact memAccess_software (x := write16 _ _) h
  | bdInit => exact handOver_software (ws := initWrites _ ++ initWrites _) h
  | rdEp n => exact soft (a := .readReg (.ep n)) h
  | rdPwrc => exact soft (a := .readReg .pwrc) h
  | rdCon => exact soft (a := .readReg .con) h
  | rdAddr => exact soft (a := .readReg .addr) h
  | rdOtgcon => exact soft (a := .readReg .otgcon) h
  | rdIr => exact soft (a := .readReg .ir) h
  | rdIe => exact soft (a := .readReg .ie) h
  | rdEir => exact soft (a := .readReg .eir) h
  | rdStat => exact soft (a := .readReg .stat) h
  | rdBdtp1 => exact soft (a := .readReg .bdtp1) h
  | rdBdtp2 => exact soft (a := .readReg .bdtp2) h
  | rdBdtp3 => exact soft (a := .readReg .bdtp3) h
  | wrEp n v => exact soft (a := .writeReg (.ep n) v) h
  | wrPwrc v => exact soft (a := .writeReg .pwrc v) h
  | wrCon v => exact soft (a := .writeReg .con v) h
  | wrAddr v => exact soft (a := .writeReg .addr v) h
  | wrOtgcon v => exact soft (a := .writeReg .otgcon v) h
  | wrIr v => exact soft (a := .writeReg .ir v) h
  | wrIe v => exact soft (a := .writeReg .ie v) h
  | wrEir v => exact soft (a := .writeReg .eir v) h
  | wrStat v => exact soft (a := .writeReg .stat v) h
  | wrBdtp1 v => exact soft (a := .writeReg .bdtp1 v) h
  | wrBdtp2 v => exact soft (a := .writeReg .bdtp2 v) h
  | wrBdtp3 v => exact soft (a := .writeReg .bdtp3 v) h

/-- What a turn of software does to the driver's state. -/
theorem softwareTurn_drv {s t : State} (h : softwareTurn s = .next t) :
    t.drv = s.drv ∨ ∃ c, s.call = some c ∧ callTurn c s = .next t := by
  unfold softwareTurn at h
  split at h
  · exact .inl (nextWrite_software h).1
  · rename_i c _ hc
    exact .inr ⟨c, hc, h⟩
  · simp only [Host.Outcome.next.injEq] at h; subst h; exact .inl rfl

theorem engineTurn_drv {x : Txn} {s t : State} (h : engineTurn x s = .next t) : t.drv = s.drv := by
  unfold engineTurn at h
  split at h
  · exact (exec_software h).1
  · cases h

/-- What a step does to the driver's state: nothing, or what a call run whole or a turn of the call in progress does. -/
theorem step_drv {s t : State} (h : step s = .next t) :
    t.drv = s.drv ∨ ∃ s1 : State, s1.drv = s.drv ∧
      ((∃ c, s.call = some c ∧ callTurn c s1 = .next t) ∨
        ∃ c rest, s.inputs = .call c :: rest ∧ s.call = none ∧ runCall c s1 = .next t) := by
  unfold step nextStep at h
  rcases whoseTurn_cases s with hw | ⟨x, hw, hx⟩ | ⟨hw, -⟩ | ⟨i, rest, hw, hin, -, hs⟩ <;> rw [hw] at h
  · simp only [Host.Outcome.next.injEq] at h; subst h; exact .inl rfl
  · exact .inl (engineTurn_drv h)
  · rcases softwareTurn_drv h with h | h
    · exact .inl h
    · exact .inr ⟨s, rfl, .inl h⟩
  · simp only [runInput] at h
    split at h
    · split at h
      · exact .inl (exec_software h).1
      · cases h
    · exact .inl (memAccess_software h).1
    · unfold startCall at h
      split at h
      · simp only [Host.Outcome.next.injEq] at h; subst h; exact .inl rfl
      · rename_i c _
        refine .inr ⟨{ s with inputs := rest }, rfl, .inr ⟨c, rest, hin, ?_, h⟩⟩
        rcases hs rfl with hb | hb
        · simp only [softwareBusy, Bool.or_eq_false_iff, Option.isSome_eq_false_iff, Option.isNone_iff_eq_none] at hb
          exact hb.2
        · cases hb
    · split at h
      · exact .inl (engineTurn_drv (s := { s with inputs := rest }) h)
      · simp only [Host.Outcome.next.injEq] at h; subst h; exact .inl rfl
    · rcases softwareTurn_drv (s := { s with inputs := rest }) h with h | h
      · exact .inl h
      · exact .inr ⟨{ s with inputs := rest }, rfl, .inl h⟩

end Sys2Proof.Machine
end

