-- ==== Sys2Proof/Laws/PerInstr.lean ====
section
/-! SUPPORT. The family EncodedForm: which format an instruction's bits have and how many bytes they take (spec
30_encoding.md R90, R93, R94, R103; log 4). One lemma for each constructor. -/

namespace Sys2Proof.Laws.EncodedForm

/-- The format an instruction is encoded in. -/
def formatOf : Instr → Format
  | .bdData _ _ _ => .bd
  | .bdStall _ _ _ => .bd
  | .bdIdle _ _ => .bd
  | .bdDone _ _ _ => .bd
  | .bdDoneOut _ _ => .bd
  | .bdDoneIn _ _ => .bd
  | .bdDoneSetup _ _ => .bd
  | .arm _ _ _ _ _ _ _ => .pseudo
  | .armStall _ _ _ _ _ _ _ => .pseudo
  | .stallOverride _ _ _ _ _ _ _ => .pseudo
  | .reclaim _ _ _ => .pseudo
  | .bdInit _ _ => .pseudo
  | .fetch => .eng
  | .retire _ _ _ _ _ _ => .eng
  | .busOut _ _ _ _ => .tok
  | .busIn _ _ _ => .tok
  | .busSetup _ _ _ _ => .tok
  | .busSof => .tok
  | .busReset => .cond
  | .busErr _ => .cond
  | .rdEp _ => .reg
  | .wrEp _ _ => .reg
  | .rdPwrc => .reg
  | .wrPwrc _ => .reg
  | .rdCon => .reg
  | .wrCon _ => .reg
  | .rdAddr => .reg
  | .wrAddr _ => .reg
  | .rdOtgcon => .reg
  | .wrOtgcon _ => .reg
  | .rdIr => .reg
  | .wrIr _ => .reg
  | .rdIe => .reg
  | .wrIe _ => .reg
  | .rdEir => .reg
  | .wrEir _ => .reg
  | .rdStat => .reg
  | .wrStat _ => .reg
  | .rdBdtp1 => .reg
  | .wrBdtp1 _ => .reg
  | .rdBdtp2 => .reg
  | .wrBdtp2 _ => .reg
  | .rdBdtp3 => .reg
  | .wrBdtp3 _ => .reg

/-- How many bytes an instruction's encoding takes. -/
def byteLength : Instr → Nat
  | .bdData _ _ _ => 4
  | .bdStall _ _ _ => 4
  | .bdIdle _ _ => 4
  | .bdDone _ _ _ => 4
  | .bdDoneOut _ _ => 4
  | .bdDoneIn _ _ => 4
  | .bdDoneSetup _ _ => 4
  | .arm _ _ _ _ _ _ _ => 8
  | .armStall _ _ _ _ _ _ _ => 8
  | .stallOverride _ _ _ _ _ _ _ => 8
  | .reclaim _ _ _ => 2
  | .bdInit _ _ => 2
  | .fetch => 1
  | .retire _ _ _ _ _ _ => 5
  | .busOut _ _ _ payload => 4 + payload.length
  | .busIn _ _ _ => 4
  | .busSetup _ _ _ payload => 4 + payload.length
  | .busSof => 4
  | .busReset => 1
  | .busErr _ => 2
  | .rdEp _ => 5
  | .wrEp _ _ => 9
  | .rdPwrc => 5
  | .wrPwrc _ => 9
  | .rdCon => 5
  | .wrCon _ => 9
  | .rdAddr => 5
  | .wrAddr _ => 9
  | .rdOtgcon => 5
  | .wrOtgcon _ => 9
  | .rdIr => 5
  | .wrIr _ => 9
  | .rdIe => 5
  | .wrIe _ => 9
  | .rdEir => 5
  | .wrEir _ => 9
  | .rdStat => 5
  | .wrStat _ => 9
  | .rdBdtp1 => 5
  | .wrBdtp1 _ => 9
  | .rdBdtp2 => 5
  | .wrBdtp2 _ => 9
  | .rdBdtp3 => 5
  | .wrBdtp3 _ => 9

/-- The encoding of an instruction has its format and its length, for every register map. -/
def Statement (i : Instr) : Prop :=
  ∀ rm : RegMap, (encode rm i).fmt = formatOf i ∧ (encode rm i).bytes.length = byteLength i

theorem bdData (t s : Bool) (n : Half) : Statement (.bdData t s n) := fun _ => ⟨rfl, rfl⟩

theorem bdStall (t s : Bool) (n : Half) : Statement (.bdStall t s n) := fun _ => ⟨rfl, rfl⟩

theorem bdIdle (flags n : Half) : Statement (.bdIdle flags n) := fun _ => ⟨rfl, rfl⟩

theorem bdDone (t : Bool) (kind : Kind) (n : Half) : Statement (.bdDone t kind n) := fun _ => ⟨rfl, rfl⟩

theorem bdDoneOut (t : Bool) (n : Half) : Statement (.bdDoneOut t n) := fun _ => ⟨rfl, rfl⟩

theorem bdDoneIn (t : Bool) (n : Half) : Statement (.bdDoneIn t n) := fun _ => ⟨rfl, rfl⟩

theorem bdDoneSetup (t : Bool) (n : Half) : Statement (.bdDoneSetup t n) := fun _ => ⟨rfl, rfl⟩

theorem arm (ep : Fin 16) (dir : Dir) (odd : Bool) (n : Half) (a : Word) (t s : Bool) : Statement (.arm ep dir odd n a t s) := fun _ => ⟨rfl, rfl⟩

theorem armStall (ep : Fin 16) (dir : Dir) (odd : Bool) (n : Half) (a : Word) (t s : Bool) : Statement (.armStall ep dir odd n a t s) := fun _ => ⟨rfl, rfl⟩

theorem stallOverride (ep : Fin 16) (dir : Dir) (odd : Bool) (n : Half) (a : Word) (t s : Bool) : Statement (.stallOverride ep dir odd n a t s) := fun _ => ⟨rfl, rfl⟩

theorem reclaim (ep : Fin 16) (dir : Dir) (odd : Bool) : Statement (.reclaim ep dir odd) := fun _ => ⟨rfl, rfl⟩

theorem bdInit (ep : Fin 16) (dir : Dir) : Statement (.bdInit ep dir) := fun _ => ⟨rfl, rfl⟩

theorem fetch : Statement (.fetch) := fun _ => ⟨rfl, rfl⟩

theorem retire (ep : Fin 16) (dir : Dir) (odd : Bool) (n : Half) (t : Bool) (kind : Kind) : Statement (.retire ep dir odd n t kind) := fun _ => ⟨rfl, rfl⟩

theorem busOut (addr : BitVec 7) (ep : Fin 16) (toggle : Bool) (payload : List Byte) : Statement (.busOut addr ep toggle payload) := fun _ => ⟨rfl, by simp [encode, tokenBytes, halfBytes, byteLength]; omega⟩

theorem busIn (addr : BitVec 7) (ep : Fin 16) (ack : Bool) : Statement (.busIn addr ep ack) := fun _ => ⟨rfl, rfl⟩

theorem busSetup (addr : BitVec 7) (ep : Fin 16) (toggle : Bool) (payload : List Byte) : Statement (.busSetup addr ep toggle payload) := fun _ => ⟨rfl, by simp [encode, tokenBytes, halfBytes, byteLength]; omega⟩

theorem busSof : Statement (.busSof) := fun _ => ⟨rfl, rfl⟩

theorem busReset : Statement (.busReset) := fun _ => ⟨rfl, rfl⟩

theorem busErr (m : Byte) : Statement (.busErr m) := fun _ => ⟨rfl, rfl⟩

theorem rdEp (n : Fin 16) : Statement (.rdEp n) := fun _ => ⟨rfl, rfl⟩

theorem wrEp (n : Fin 16) (v : Word) : Statement (.wrEp n v) := fun _ => ⟨rfl, rfl⟩

theorem rdPwrc : Statement (.rdPwrc) := fun _ => ⟨rfl, rfl⟩

theorem wrPwrc (v : Word) : Statement (.wrPwrc v) := fun _ => ⟨rfl, rfl⟩

theorem rdCon : Statement (.rdCon) := fun _ => ⟨rfl, rfl⟩

theorem wrCon (v : Word) : Statement (.wrCon v) := fun _ => ⟨rfl, rfl⟩

theorem rdAddr : Statement (.rdAddr) := fun _ => ⟨rfl, rfl⟩

theorem wrAddr (v : Word) : Statement (.wrAddr v) := fun _ => ⟨rfl, rfl⟩

theorem rdOtgcon : Statement (.rdOtgcon) := fun _ => ⟨rfl, rfl⟩

theorem wrOtgcon (v : Word) : Statement (.wrOtgcon v) := fun _ => ⟨rfl, rfl⟩

theorem rdIr : Statement (.rdIr) := fun _ => ⟨rfl, rfl⟩

theorem wrIr (v : Word) : Statement (.wrIr v) := fun _ => ⟨rfl, rfl⟩

theorem rdIe : Statement (.rdIe) := fun _ => ⟨rfl, rfl⟩

theorem wrIe (v : Word) : Statement (.wrIe v) := fun _ => ⟨rfl, rfl⟩

theorem rdEir : Statement (.rdEir) := fun _ => ⟨rfl, rfl⟩

theorem wrEir (v : Word) : Statement (.wrEir v) := fun _ => ⟨rfl, rfl⟩

theorem rdStat : Statement (.rdStat) := fun _ => ⟨rfl, rfl⟩

theorem wrStat (v : Word) : Statement (.wrStat v) := fun _ => ⟨rfl, rfl⟩

theorem rdBdtp1 : Statement (.rdBdtp1) := fun _ => ⟨rfl, rfl⟩

theorem wrBdtp1 (v : Word) : Statement (.wrBdtp1 v) := fun _ => ⟨rfl, rfl⟩

theorem rdBdtp2 : Statement (.rdBdtp2) := fun _ => ⟨rfl, rfl⟩

theorem wrBdtp2 (v : Word) : Statement (.wrBdtp2 v) := fun _ => ⟨rfl, rfl⟩

theorem rdBdtp3 : Statement (.rdBdtp3) := fun _ => ⟨rfl, rfl⟩

theorem wrBdtp3 (v : Word) : Statement (.wrBdtp3 v) := fun _ => ⟨rfl, rfl⟩

end Sys2Proof.Laws.EncodedForm
end

