-- ==== Sys2Proof/Laws/Refinement.lean ====
section
/-! SUPPORT. The engine's accesses of one transaction, taken as turns of their own, against the transaction taken as one step
(20_memory.md R78): how a data phase runs to its end. -/

namespace Sys2Proof.Machine

/-- How a transaction whose packet is moved ends. -/
def closeData (s : State) (x : Txn) (odd tg : Bool) (n : Half) (got : List Byte) : State :=
  match x.kind with
  | .inn =>
    if x.ctl.ephshk = true ∧ x.ack = false then finish s (.data tg got)
    else finish (retireOp x.base x.ep .tx odd n tg .inn s) (.data tg got)
  | .out =>
    finish (retireOp x.base x.ep .rx odd (BitVec.ofNat 16 x.payload.length) x.toggle .out s) (ackOrNone x.ctl)
  | .setup =>
    finish (retireOp x.base x.ep .rx odd (BitVec.ofNat 16 x.payload.length) x.toggle .setup s) (ackOrNone x.ctl)

theorem engineRun_some {k : Nat} {s : State} {x : Txn} (h : s.txn = some x) :
    engineRun (k + 1) s = andThen (engineTurn x s) (engineRun k) := by
  simp only [engineRun, h]

theorem engineRun_none {k : Nat} {s : State} (h : s.txn = none) : engineRun k s = .next s := by
  cases k <;> simp [engineRun, h]

theorem finish_retire_setPhase (b : Word) (e : Fin 16) (d : Dir) (o : Bool) (n : Half) (t : Bool) (k : Kind) (s : State) (x : Txn)
   (p : Phase) (r : Response) : finish (retireOp b e d o n t k (setPhase s x p)) r = finish (retireOp b e d o n t k s) r := by
  cases d <;> rfl

theorem finish_retire_respond (b : Word) (e : Fin 16) (d : Dir) (o : Bool) (n : Half) (t : Bool) (k : Kind) (s : State) 
   (r r' : Response) : finish (retireOp b e d o n t k (respond s r')) r = finish (retireOp b e d o n t k s) r := by
  cases d <;> rfl

theorem engineRun_allMoved (j : Nat) (s : State) (x : Txn) (odd tg : Bool) (n : Half) (got : List Byte) :
    engineRun (j + 1) (allMoved s x odd tg n got) = .next (closeData s x odd tg n got) := by
  cases hk : x.kind
  · have e1 : allMoved s x odd tg n got = setPhase s x (.done odd (BitVec.ofNat 16 x.payload.length) x.toggle) := by
      simp only [allMoved, hk]
    rw [e1, engineRun_some (setPhase_txn _ _ _)]
    simp only [engineTurn, engineInstr, exec, execRetire, retireStep, setPhase_txn, hk, andThen_of_next]
    rw [engineRun_none rfl, finish_retire_setPhase]
    simp [closeData, hk, dirOf]
  · by_cases hc : x.ctl.ephshk = true ∧ x.ack = false
    · simp only [allMoved, hk, closeData, if_pos hc]
      exact engineRun_none rfl
    · have e1 : allMoved s x odd tg n got = setPhase (respond s (.data tg got)) x (.done odd n tg) := by
        simp only [allMoved, hk, if_neg hc]
      rw [e1, engineRun_some (setPhase_txn _ _ _)]
      simp only [engineTurn, engineInstr, exec, execRetire, retireStep, setPhase_txn, hk, andThen_of_next]
      rw [engineRun_none rfl, finish_retire_setPhase, finish_retire_respond]
      simp only [closeData, hk, dirOf, if_neg hc]
      rfl
  · have e1 : allMoved s x odd tg n got = setPhase s x (.done odd (BitVec.ofNat 16 x.payload.length) x.toggle) := by
      simp only [allMoved, hk]
    rw [e1, engineRun_some (setPhase_txn _ _ _)]
    simp only [engineTurn, engineInstr, exec, execRetire, retireStep, setPhase_txn, hk, andThen_of_next]
    rw [engineRun_none rfl, finish_retire_setPhase]
    simp [closeData, hk, dirOf]

/-- The word is a data command for this token: BD.DATA, or BD.STALL met by a SETUP (42_bus_transactions.md R209). -/
def IsData (x : Txn) (w0 : Word) (tg : Bool) : Prop :=
  (∃ d, decodeBd w0 = .ok (.bdData tg d (countOf w0))) ∨ (x.kind = .setup ∧ ∃ d, decodeBd w0 = .ok (.bdStall tg d (countOf w0)))

theorem engineTurn_data {s : State} {x : Txn} {odd : Bool} {w0 a : Word} {i : Nat} {got : List Byte} {tg : Bool}
  (hd : IsData x w0 tg) :
  engineTurn { x with phase := .data odd w0 a i got } (setPhase s x (.data odd w0 a i got)) =
    .next (moveByte (setPhase s x (.data odd w0 a i got)) { x with phase := .data odd w0 a i got } odd w0 a tg (countOf w0) i got) := by
  rcases hd with ⟨d, hd⟩ | ⟨hk, d, hd⟩
  · simp only [engineTurn, engineInstr, hd, exec, execBdData, dataCommand, setPhase_txn]
  · simp only [engineTurn, engineInstr, hd, exec, execBdStall, stallCommand, dataCommand, setPhase_txn, hk, if_true]

def moved (s : State) (x : Txn) (a : Word) (i : Nat) : State :=
  match x.kind with
  | .inn => s
  | .out => storeBytes s (a.toNat + i) (x.payload.drop i)
  | .setup => storeBytes s (a.toNat + i) (x.payload.drop i)

def received (s : State) (x : Txn) (a : Word) (n : Half) (i : Nat) (got : List Byte) : List Byte :=
  match x.kind with
  | .inn => got ++ readBytesAt s (a.toNat + i) (n.toNat - i)
  | .out => got
  | .setup => got

theorem closeData_setPhase (s : State) (x : Txn) (p q : Phase) (odd tg : Bool) (n : Half) (got : List Byte) :
  closeData (setPhase s x p) { x with phase := q } odd tg n got = closeData s x odd tg n got := by
  unfold closeData
  simp only [finish_retire_setPhase]
  cases x.kind <;> rfl

theorem afterMove_setPhase (s : State) (x : Txn) (p q : Phase) (odd : Bool) (w0 a : Word) (tg : Bool) (n : Half) (i : Nat) (got : List Byte) :
    afterMove (setPhase s x p) { x with phase := q } odd w0 a tg n i got = afterMove s x odd w0 a tg n i got := by
  obtain ⟨kind, ep, ctl, base, toggle, payload, ack, ph⟩ := x
  cases kind
  · rfl
  · unfold afterMove
    split
    · rename_i h
      rw [if_pos (show bytesToMove { kind := .inn, ep := ep, ctl := ctl, base := base, toggle := toggle, payload := payload, ack := ack, phase := ph } n ≤ i from h)]
      unfold allMoved
      simp only
      split <;> rfl
    · rename_i h
      rw [if_neg (show ¬ bytesToMove { kind := .inn, ep := ep, ctl := ctl, base := base, toggle := toggle, payload := payload, ack := ack, phase := ph } n ≤ i from h)]
      rfl
  · rfl


def moveOne (s : State) (x : Txn) (a : Word) (i : Nat) : State :=
  match x.kind with
  | .inn => s
  | .out => storeBytes s (a.toNat + i) [x.payload.getD i 0#8]
  | .setup => storeBytes s (a.toNat + i) [x.payload.getD i 0#8]

def gotOne (s : State) (x : Txn) (a : Word) (i : Nat) (got : List Byte) : List Byte :=
  match x.kind with
  | .inn => got ++ [readByte s (a.toNat + i)]
  | .out => got
  | .setup => got

theorem moveByte_setPhase (s : State) (x : Txn) (p q : Phase) (odd : Bool) (w0 a : Word) (tg : Bool) (n : Half) (i : Nat) (got : List Byte)
    (hlt : ¬ bytesToMove x n ≤ i) :
    moveByte (setPhase s x p) { x with phase := q } odd w0 a tg n i got =
      afterMove (moveOne s x a i) x odd w0 a tg n (i + 1) (gotOne s x a i got) := by
  have hlt' : ¬ bytesToMove { x with phase := q } n ≤ i := hlt
  rw [moveByte, if_neg hlt']
  obtain ⟨kind, ep, ctl, base, toggle, payload, ack, ph⟩ := x
  cases kind
  · exact afterMove_setPhase (storeBytes s (a.toNat + i) [payload.getD i 0#8])
      ⟨.out, ep, ctl, base, toggle, payload, ack, ph⟩ p q odd w0 a tg n (i + 1) got
  · exact afterMove_setPhase s ⟨.inn, ep, ctl, base, toggle, payload, ack, ph⟩ p q odd w0 a tg n (i + 1)
      (got ++ [readByte s (a.toNat + i)])
  · exact afterMove_setPhase (storeBytes s (a.toNat + i) [payload.getD i 0#8])
      ⟨.setup, ep, ctl, base, toggle, payload, ack, ph⟩ p q odd w0 a tg n (i + 1) got

theorem moved_step (s : State) (x : Txn) (a : Word) (n : Half) (i : Nat) (h : i < bytesToMove x n) :
    moved (moveOne s x a i) x a (i + 1) = moved s x a i := by
  unfold moved moveOne
  unfold bytesToMove at h
  cases hk : x.kind <;> simp only [hk] at h ⊢
  · rw [List.drop_eq_getElem_cons h]
    simp only [storeBytes, memPutBytes]
    rw [show a.toNat + (i + 1) = a.toNat + i + 1 by omega]
    simp [h]
  · rw [List.drop_eq_getElem_cons h]
    simp only [storeBytes, memPutBytes]
    rw [show a.toNat + (i + 1) = a.toNat + i + 1 by omega]
    simp [h]

theorem received_step (s : State) (x : Txn) (a : Word) (n : Half) (i : Nat) (got : List Byte) (h : i < bytesToMove x n) :
    received (moveOne s x a i) x a n (i + 1) (gotOne s x a i got) = received s x a n i got := by
  unfold received moveOne gotOne
  unfold bytesToMove at h
  cases hk : x.kind <;> simp only [hk] at h ⊢
  rw [show n.toNat - i = (n.toNat - (i + 1)) + 1 by omega, readBytesAt, List.append_assoc, List.singleton_append,
    show a.toNat + (i + 1) = a.toNat + i + 1 by omega]

theorem engineRun_afterMove (w0 a : Word) (x : Txn) (odd tg : Bool) (hd : IsData x w0 tg) (j m : Nat) :
    ∀ (s : State) (i : Nat) (got : List Byte), i + m = bytesToMove x (countOf w0) →
    engineRun (m + 1 + j) (afterMove s x odd w0 a tg (countOf w0) i got) =
      .next (closeData (moved s x a i) x odd tg (countOf w0) (received s x a (countOf w0) i got)) := by
  induction m with
  | zero =>
    intro s i got hi
    have : afterMove s x odd w0 a tg (countOf w0) i got = allMoved s x odd tg (countOf w0) got := by
      unfold afterMove; rw [if_pos (by omega)]
    rw [this, show 0 + 1 + j = j + 1 by omega, engineRun_allMoved]
    congr 1
    cases hk : x.kind <;> simp only [bytesToMove, hk] at hi <;> simp only [moved, received, hk]
    · rw [List.drop_of_length_le (by omega)]; rfl
    · rw [show (countOf w0).toNat - i = 0 by omega]; simp [readBytesAt]
    · rw [List.drop_of_length_le (by omega)]; rfl
  | succ m ih =>
    intro s i got hi
    have hlt : ¬ bytesToMove x (countOf w0) ≤ i := by omega
    have e : afterMove s x odd w0 a tg (countOf w0) i got = setPhase s x (.data odd w0 a i got) := by
      unfold afterMove; rw [if_neg hlt]
    rw [e, show m + 1 + 1 + j = (m + 1 + j) + 1 by omega, engineRun_some (setPhase_txn _ _ _), engineTurn_data hd,
      andThen_of_next, moveByte_setPhase _ _ _ _ _ _ _ _ _ _ _ hlt, ih _ _ _ (by omega),
      moved_step _ _ _ (countOf w0) _ (by omega), received_step _ _ _ _ _ _ (by omega)]

/-- A data command run whole, in the same terms. -/
theorem runData_closeData (s : State) (x : Txn) (odd tg d : Bool) (n : Half) :
    runData s x odd tg d n =
      (if x.kind ≠ .inn ∧ toggleRejected x tg d = true then .next (finish s (mismatchResponse s.cfg x.ctl))
       else if x.kind ≠ .inn ∧ n.toNat < x.payload.length then .refused .overrun
       else if bufferOk s.cfg (readWord s (txnBd x odd + 4)) n.toNat = false then .refused .badBuffer
       else .next (closeData (moved s x (readWord s (txnBd x odd + 4)) 0) x odd tg n
         (received s x (readWord s (txnBd x odd + 4)) n 0 []))) := by
  obtain ⟨kind, ep, ctl, base, toggle, payload, ack, ph⟩ := x
  cases kind
  · simp only [runData, receive, reduceCtorEq, if_false, ne_eq, not_false_eq_true, true_and, closeData, moved, List.drop_zero, Nat.add_zero]
    rfl
  · simp only [runData, send, if_true, ne_eq, not_true_eq_false, false_and, if_false, closeData, moved, received, List.nil_append, Nat.add_zero, Nat.sub_zero]
    split
    · rfl
    · split <;> rfl
  · simp only [runData, receive, reduceCtorEq, if_false, ne_eq, not_false_eq_true, true_and, closeData, moved, List.drop_zero, Nat.add_zero]
    rfl

def fineOf (o : Result) : Result := andThen o fun t => .next { t with fine := true }

theorem bytesToMove_le (x : Txn) (n : Half) (h : ¬(x.kind ≠ .inn ∧ n.toNat < x.payload.length)) : bytesToMove x n ≤ n.toNat := by
  unfold bytesToMove
  cases hk : x.kind <;> simp only [hk, ne_eq, reduceCtorEq, not_false_eq_true, true_and] at h ⊢ <;> omega

theorem engineRun_beginData (s : State) (x : Txn) (odd tg d : Bool) (w0 : Word) (hd : IsData x w0 tg) (hm : (countOf w0).toNat ≤ maxCount)
   (j : Nat) (hj : 1024 ≤ j) :
   andThen (beginData s x odd w0 tg d (countOf w0)) (engineRun j) = runData s x odd tg d (countOf w0) := by
  rw [runData_closeData, beginData]
  split
  · rw [andThen_of_next, engineRun_none rfl]
  · split
    · rfl
    · rename_i hfit
      have hb := bytesToMove_le x _ hfit
      dsimp only
      split
      · rfl
      · rw [andThen_of_next]
        have hmax : maxCount = 1023 := rfl
        obtain ⟨l, rfl⟩ : ∃ l, j = bytesToMove x (countOf w0) + 1 + l := ⟨j - (bytesToMove x (countOf w0) + 1), by omega⟩
        exact engineRun_afterMove w0 _ x odd tg hd l _ s 0 [] (by omega)

theorem beginData_setPhase (s : State) (x : Txn) (p q : Phase) (odd tg d : Bool) (w0 : Word) (n : Half) :
   beginData (setPhase s x p) { x with phase := q } odd w0 tg d n = beginData s x odd w0 tg d n := by
  unfold beginData
  dsimp only
  rw [afterMove_setPhase]
  rfl

theorem runData_fine (s : State) (x : Txn) (odd tg d : Bool) (n : Half) (y : Option Txn) :
  runData { s with fine := true, txn := y } x odd tg d n = fineOf (runData s x odd tg d n) := by
  obtain ⟨kind, ep, ctl, base, toggle, payload, ack, ph⟩ := x
  unfold runData
  cases kind
  · simp only [reduceCtorEq, if_false]
    split
    · rfl
    · unfold receive
      split
      · rfl
      · dsimp only
        split
        · rw [if_pos ‹_›]; rfl
        · rw [if_neg ‹_›]; rfl
  · simp only [if_true]
    unfold send
    dsimp only
    rw [readBytesAt_congr s { s with fine := true, txn := y } rfl, readWord_congr s { s with fine := true, txn := y } rfl]
    by_cases h1 : bufferOk s.cfg (readWord s (txnBd ⟨.inn, ep, ctl, base, toggle, payload, ack, ph⟩ odd + 4)) n.toNat = false
    · rw [if_pos h1, if_pos h1]; rfl
    · rw [if_neg h1, if_neg h1]
      split <;> rfl
  · simp only [reduceCtorEq, if_false]
    split
    · rfl
    · unfold receive
      split
      · rfl
      · dsimp only
        split
        · rw [if_pos ‹_›]; rfl
        · rw [if_neg ‹_›]; rfl

end Sys2Proof.Machine
end

