-- ==== Sys2Proof/Tests/Slice0.lean ====
section
/-! SUPPORT. Tests of the model on fixed values. Expected values come from the spec's vectors (95_test_vectors.md, named V-…)
or are worked out by hand from the rule named; none is the model's own output. The witness theorems show states and operands
that meet the hypotheses of the statements. -/

namespace Sys2Proof.Machine.Tests

/-! ## Helpers -/

/-- The next state, if there is one. -/
def nextOf (r : Result) : Option State :=
  match r with
  | .next s => some s
  | .fault _ => none
  | .refused _ => none

/-- Why a step stopped. -/
def refusalOf (r : Result) : Option Refusal :=
  match r with
  | .next _ => none
  | .fault _ => none
  | .refused e => some e

/-- A value of the next state. -/
def after {α : Type} (f : State → α) (r : Result) : Option α :=
  (nextOf r).map f

/-- An endpoint register from its value (V-E7). -/
def epOf (v : Nat) : EpCtl :=
  epOfBits (BitVec.ofNat 5 v)

/-- The common configuration CFG of 95_test_vectors.md section 2, memory empty, transactions and calls as one step. -/
def cfg : State :=
  { State.reset with
    fine := false
    usbpwr := true
    usben := true
    devaddr := 5#7
    ie := 0x89#8
    bdtp1 := 0x41#7
    ep := (((State.reset.ep.set 0 (epOf 0x0D)).set 1 (epOf 0x1D)).set 2 (epOf 0x14)).set 3 (epOf 0x18) }

/-- Count, address and flags of a descriptor. -/
def putBd (ep : Fin 16) (dir : Dir) (odd : Bool) (n a : Nat) (f : Half) (s : State) : State :=
  let bd := bdAddr (bdtBase s) ep dir odd
  storeHalf (storeWord (storeHalf s (bd + 2) (BitVec.ofNat 16 n)) (bd + 4) (BitVec.ofNat 32 a)) bd f

/-- `ARM ep,dir,odd,n,a,t,s`. -/
def arm (ep : Fin 16) (dir : Dir) (odd : Bool) (n a : Nat) (t d : Bool) (s : State) : State :=
  putBd ep dir odd n a (dataFlags t d) s

/-- `ARMSTALL ep,dir,odd,n,a,t,s`. -/
def armStall (ep : Fin 16) (dir : Dir) (odd : Bool) (n a : Nat) (t d : Bool) (s : State) : State :=
  putBd ep dir odd n a (stallFlags t d) s

/-- A transaction in progress in a phase, its registers as they are. -/
def inPhase (k : Kind) (ep : Fin 16) (tg : Bool) (p : List Byte) (ack : Bool) (ph : Phase) (s : State) : State :=
  { s with txn := some { kind := k, ep := ep, ctl := s.ep[ep], base := bdtBase s, toggle := tg, payload := p, ack := ack,
                         phase := ph } }

/-- A control block of a bulk endpoint with 64-byte buffers at 0x2000 and 0x2040; its pair is set where it is placed. -/
def ecb : Ecb :=
  { nextOdd := false, data01 := false, stalled := false, armedCtr := 0, completeCtr := 0, nextCompleteOdd := false,
    epType := .bulk, epSize := 64, buf0 := 0x2000#32, buf1 := 0x2040#32, pair := 0#32 }

/-- The control block with the pair of an endpoint direction in CFG's table. -/
def placed (ep : Fin 16) (dir : Dir) (e : Ecb) : Ecb :=
  { e with pair := BitVec.ofNat 32 (bdAddr 0x8200#32 ep dir false) }

/-- The driver with CFG's table and one more control block, at its pair. -/
def withEcb (ep : Fin 16) (dir : Dir) (e : Ecb) (s : State) : State :=
  { s with drv := putEcb { s.drv with table := 0x8200#32 } ep dir (some (placed ep dir e)) }

/-- A driver call in progress. -/
def inCall (c : Call) (answers : List Word) (s : State) : State :=
  { s with call := some { call := c, answers := answers } }

/-! ## Well-formedness: one ill-formed term for each check -/

theorem test_wf_count_of_data : Instr.wf (.bdData true true 1024#16) = false := by decide

theorem test_wf_count_of_stall : Instr.wf (.bdStall false true 1024#16) = false := by decide

theorem test_wf_count_of_done : Instr.wf (.bdDone false .inn 1024#16) = false := by decide

theorem test_wf_count_of_done_each : Instr.wf (.bdDoneOut false 1024#16) = false ∧ Instr.wf (.bdDoneIn false 1024#16) = false ∧
    Instr.wf (.bdDoneSetup false 1024#16) = false := by decide

theorem test_wf_idle_owned : Instr.wf (.bdIdle 0x0080#16 0#16) = false := by decide

theorem test_wf_idle_that_is_a_result : Instr.wf (.bdIdle 0x0034#16 8#16) = false := by decide

theorem test_wf_count_of_retire : Instr.wf (.retire 0 .tx false 1024#16 false .inn) = false := by decide

theorem test_wf_direction_of_retire : Instr.wf (.retire 0 .rx false 1#16 false .inn) = false := by decide

theorem test_wf_payload_of_out : Instr.wf (.busOut 5#7 1 false (List.replicate 1024 0#8)) = false := by
  rw [Instr.wf, payloadOk, List.length_replicate]; decide

theorem test_wf_payload_of_setup : Instr.wf (.busSetup 5#7 1 false (List.replicate 1024 0#8)) = false := by
  rw [Instr.wf, payloadOk, List.length_replicate]; decide

theorem test_wf_map_not_injective : RegMap.wf { RegMap.default with ie := RegMap.default.ir } = false := by decide

theorem test_wf_map_not_aligned : RegMap.wf { RegMap.default with ie := 0x1F885211#32 } = false := by decide

theorem test_wf_depth : Config.wf { Config.default with fifoDepth := 0 } = false := by decide

theorem test_wf_default : Config.wf Config.default = true := by decide

/-! ## Decoding: words written out from the spec's encodings -/

/-- V-E1, R91: bits 15:0 are 0000_0000 1t00_s000. -/
theorem test_decode_data : decodeBd 0b00000000000010000000000011001000#32 = .ok (.bdData true true 8#16) := by decide

/-- V-E1, R91: bits 15:0 are 0000_0000 1t00_s100. -/
theorem test_decode_stall : decodeBd 0b00000000000000000000000011000100#32 = .ok (.bdStall true false 0#16) := by decide

/-- V-E3: with UOWN 0 the other bits are not looked at. -/
theorem test_decode_idle : decodeBd 0b00000000010000000000000001111111#32 = .ok (.bdIdle 0x007F#16 0x0040#16) := by decide

/-- V-E2, R92: bits 15:0 are 0000_0000 0t pppp 00. -/
theorem test_decode_results :
    decodeBd 0b00000000000000100000000001000100#32 = .ok (.bdDoneOut true 2#16) ∧
    decodeBd 0b00000000000000100000000000100100#32 = .ok (.bdDoneIn false 2#16) ∧
    decodeBd 0b00000000000010000000000001110100#32 = .ok (.bdDoneSetup true 8#16) := by decide

/-- V-E3: the refusals U1, U2, U3. -/
theorem test_decode_refused_words :
    decodeBd 0x000800A8#32 = .error .keepOrNinc ∧ decodeBd 0x00080098#32 = .error .keepOrNinc ∧
    decodeBd 0x00080188#32 = .error .reservedFlags ∧ decodeBd 0x0008008A#32 = .error .reservedFlags ∧
    decodeBd 0x04000080#32 = .error .countTooLarge := by decide

/-- R94, R95: the identifier in bits 3:0; the other places are the model's (log 4). -/
theorem test_decode_tokens :
    decode RegMap.default { fmt := .tok, bytes := [0x51#8, 0x88#8, 1#8, 0#8, 0xAA#8] } = .ok (.busOut 5#7 1 true [0xAA#8]) ∧
    decode RegMap.default { fmt := .tok, bytes := [0x59#8, 0x08#8, 0#8, 0#8] } = .ok (.busIn 5#7 1 false) ∧
    decode RegMap.default { fmt := .tok, bytes := [0x0D#8, 0x78#8, 0#8, 0#8] } = .ok (.busSetup 0#7 15 false []) ∧
    decode RegMap.default { fmt := .tok, bytes := [0x05#8, 0x00#8, 0#8, 0#8] } = .ok .busSof := by decide

/-- R105 (U8): an identifier that is none of the four is refused. -/
theorem test_decode_unknown_token :
    decode RegMap.default { fmt := .tok, bytes := [0x53#8, 0x08#8, 0#8, 0#8] } = .error .unknownToken := by decide

theorem test_decode_conditions :
    decode RegMap.default { fmt := .cond, bytes := [0#8] } = .ok .busReset ∧
    decode RegMap.default { fmt := .cond, bytes := [1#8, 0x14#8] } = .ok (.busErr 0x14#8) := by decide

/-- R103: a 32-bit read and write; the addresses are PRESUMED (log 10), the first byte the model's (log 4). -/
theorem test_decode_registers :
    decode RegMap.default { fmt := .reg, bytes := [0x04#8, 0x40#8, 0x52#8, 0x88#8, 0x1F#8] } = .ok .rdStat ∧
    decode RegMap.default { fmt := .reg, bytes := [0x05#8, 0xF0#8, 0x53#8, 0x88#8, 0x1F#8, 0x0D#8, 0#8, 0#8, 0#8] } =
      .ok (.wrEp 15 0x0D#32) := by decide

/-- V-REG30 (U9), and an address with no register (log 20). -/
theorem test_decode_narrow_register :
    decode RegMap.default { fmt := .reg, bytes := [0x00#8, 0x40#8, 0x52#8, 0x88#8, 0x1F#8] } = .error .narrowRegisterAccess ∧
    decode RegMap.default { fmt := .reg, bytes := [0x04#8, 0x41#8, 0x52#8, 0x88#8, 0x1F#8] } = .error .narrowRegisterAccess ∧
    decode RegMap.default { fmt := .reg, bytes := [0x04#8, 0x44#8, 0x52#8, 0x88#8, 0x1F#8] } = .error .notARegister := by decide

theorem test_decode_pseudo :
    decode RegMap.default { fmt := .pseudo, bytes := [1#8, 0xF1#8, 64#8, 0#8, 0x40#8, 0x20#8, 0#8, 0#8] } =
      .ok (.arm 1 .tx true 64#16 0x2040#32 true true) ∧
    decode RegMap.default { fmt := .pseudo, bytes := [5#8, 0x01#8] } = .ok (.bdInit 1 .rx) := by decide

/-- R108: the expansion of ARM is plain memory writes, of a count of any 16 bits. -/
theorem test_decode_arm_count :
    decode RegMap.default { fmt := .pseudo, bytes := [1#8, 0xF1#8, 0#8, 4#8, 0x40#8, 0x20#8, 0#8, 0#8] } =
      .ok (.arm 1 .tx true 1024#16 0x2040#32 true true) := by decide

theorem test_decode_engine :
    decode RegMap.default { fmt := .eng, bytes := [1#8, 0x20#8, 8#8, 0#8, 0x0D#8] } =
      .ok (.retire 0 .rx true 8#16 false .setup) := by decide

/-- The words of spec/opcode_table.json as the host numbers them. -/
theorem test_decode_table_words :
    decodeTableWord 16 0x0080 = some (.bdData false false 0#16) ∧ decodeTableWord 8 0x1 = some (.busOut 0#7 0 false []) := by
  decide

/-- R78: from reset on, the accesses of a transaction are steps of their own. -/
theorem test_reset_is_fine : State.reset.fine = true := by decide

theorem test_step_runs_table_words :
    after (·.resp) (step (State.withFetchWord State.reset 16 0x0000)) = some .none ∧
    after (·.resp) (step (State.withFetchWord State.reset 8 0x5)) = some .none := by decide

/-! ## Registers (V-REG) -/

/-- V-REG1. -/
theorem test_rdEp : after (·.rdata) (exec (.rdEp 0) cfg) = some 0x0000000D#32 := by decide

/-- V-REG2 and V-REG3. -/
theorem test_wrEp : after (·.ep[(3 : Fin 16)]) (exec (.wrEp 3 0x1F#32) cfg) = some (epOf 0x1F) ∧
    refusalOf (exec (.wrEp 0 0x20#32) cfg) = some .reservedRegisterBit := by decide

/-- V-REG4: bits 31:8 are ignored. -/
theorem test_wrEp_high_bits : after (·.ep[(0 : Fin 16)]) (exec (.wrEp 0 0xFFFFFF0D#32) cfg) = some (epOf 0x0D) := by decide

theorem test_rdPwrc : after (·.rdata) (exec .rdPwrc cfg) = some 1#32 := by decide

/-- V-REG5 and V-REG6. -/
theorem test_wrPwrc : after active (exec (.wrPwrc 0#32) cfg) = some false ∧
    refusalOf (exec (.wrPwrc 2#32) cfg) = some .reservedRegisterBit := by decide

/-- V-REG7: 0x21 on bits 5:0, and the draw is used up. -/
theorem test_rdCon_draws : after (·.draws) (exec .rdCon { cfg with pktdis := true }) = some 1 := by decide

/-- V-REG9: a 1 in bit 5 leaves PKTDIS. -/
theorem test_wrCon_keeps_pktdis :
    after (fun s => (s.usben, s.pktdis)) (exec (.wrCon 0x21#32) { cfg with pktdis := true }) = some (true, true) := by decide

/-- V-REG8, V-REG10, V-REG13, V-REG14. -/
theorem test_wrCon :
    after (·.pktdis) (exec (.wrCon 0x01#32) { cfg with pktdis := true }) = some false ∧
    after (·.pktdis) (exec (.wrCon 0x21#32) cfg) = some false ∧
    after (·.usben) (exec (.wrCon 0xC1#32) cfg) = some true ∧
    refusalOf (exec (.wrCon 0x03#32) cfg) = some .reservedRegisterBit := by decide

/-- V-REG15. -/
theorem test_rdAddr : after (·.rdata) (exec .rdAddr { cfg with devaddr := 0x7F#7 }) = some 0x7F#32 := by decide

/-- V-REG15 and V-REG16. -/
theorem test_wrAddr : after (·.devaddr) (exec (.wrAddr 0x7F#32) cfg) = some 0x7F#7 ∧
    refusalOf (exec (.wrAddr 0x85#32) cfg) = some .reservedRegisterBit := by decide

theorem test_rdOtgcon : after (·.rdata) (exec .rdOtgcon cfg) = some 0#32 := by decide

/-- V-REG17. -/
theorem test_wrOtgcon : after (·.otgcon) (exec (.wrOtgcon 0#32) cfg) = some 0#8 ∧
    refusalOf (exec (.wrOtgcon 1#32) cfg) = some .reservedRegisterBit := by decide

/-- The queue of V-REG18, flags set. -/
def flagged : State :=
  { cfg with urstif := true, stallif := true, fifo := [{ ep := 0, dir := .rx, odd := false }, { ep := 0, dir := .tx, odd := false }] }

/-- V-REG18: a read takes nothing from the queue. -/
theorem test_rdIr : after (·.fifo.length) (exec .rdIr flagged) = some 2 := by decide

/-- V-REG19: the queue is untouched. -/
theorem test_wrIr_clears : after (fun s => (s.urstif, s.stallif, s.fifo.length)) (exec (.wrIr 0x81#32) flagged) =
    some (false, false, 2) := by decide

/-- V-REG20, V-REG22, V-REG23. -/
theorem test_wrIr_pops : after (·.fifo) (exec (.wrIr 0x08#32) flagged) = some [{ ep := 0, dir := .tx, odd := false }] ∧
    after (·.fifo) (exec (.wrIr 0x08#32) cfg) = some [] ∧ exec (.wrIr 0x76#32) flagged = .next flagged := by
  refine ⟨by decide, by decide, rfl⟩

theorem test_rdIe : after (·.rdata) (exec .rdIe cfg) = some 0x89#32 := by decide

/-- V-REG26. -/
theorem test_wrIe : after (·.ie) (exec (.wrIe 0xFF#32) cfg) = some 0xFF#8 := by decide

theorem test_rdEir : after (·.rdata) (exec .rdEir { cfg with eir := 0x14#8 }) = some 0x14#32 := by decide

/-- V-REG27 and V-REG28. -/
theorem test_wrEir : after (·.eir) (exec (.wrEir 0x04#32) { cfg with eir := 0x14#8 }) = some 0x10#8 ∧
    after (·.eir) (exec (.wrEir 0x00#32) { cfg with eir := 0x14#8 }) = some 0x14#8 := by decide

/-- V-REG25 and V-E4: (1,TX,odd) reads 0x1C, and reading does not pop. -/
theorem test_rdStat : after (fun s => (s.rdata, s.fifo.length)) (exec .rdStat { cfg with fifo := [{ ep := 1, dir := .tx, odd := true }] }) =
    some (0x1C#32, 1) := by decide

/-- V-REG24: an empty queue reads a drawn byte. -/
theorem test_rdStat_empty : after (·.draws) (exec .rdStat cfg) = some 1 := by decide

/-- V-REG25. -/
theorem test_wrStat : exec (.wrStat 0xFF#32) flagged = .next flagged := by rfl

/-- CFG's table base: BDTP1 is 0x82. -/
theorem test_rdBdtp1 : after (·.rdata) (exec .rdBdtp1 cfg) = some 0x82#32 := by decide

/-- V-REG29 and V-E5: bit 0 is dropped. -/
theorem test_wrBdtp1 : after (·.bdtp1) (exec (.wrBdtp1 0xFF#32) cfg) = some 0x7F#7 ∧
    after bdtBase (exec (.wrBdtp1 0x83#32) cfg) = some 0x00008200#32 := by decide

theorem test_rdBdtp2 : after (·.rdata) (exec .rdBdtp2 { cfg with bdtp2 := 0x01#8 }) = some 1#32 := by decide

/-- V-E5: bits 23:16 of the base. -/
theorem test_wrBdtp2 : after bdtBase (exec (.wrBdtp2 0x01#32) cfg) = some 0x00018200#32 := by decide

theorem test_rdBdtp3 : after (·.rdata) (exec .rdBdtp3 { cfg with bdtp3 := 0xA0#8 }) = some 0xA0#32 := by decide

/-- V-E5: bits 31:24 of the base. -/
theorem test_wrBdtp3 : after bdtBase (exec (.wrBdtp3 0xA0#32) cfg) = some 0xA0008200#32 := by decide

/-- V-I2, V-I3, V-I5, V-I7. -/
theorem test_irq : irq { cfg with fifo := [{ ep := 0, dir := .rx, odd := false }] } = true ∧ irq { flagged with ie := 0x81#8, urstif := false, stallif := false } = false ∧
    irq { flagged with ie := 0#8, eir := 0xFF#8 } = false ∧ irq { flagged with ie := 0x76#8 } = false := by decide

/-! ## Descriptors (V-D, V-C) -/

/-- V-E6: the bytes in memory, the low one first. -/
theorem test_arm_bytes : after (fun s => readBytesAt s 0x8200 8) (exec (.arm 0 .rx false 8#16 0x1000#32 false true) cfg) =
    some [0x88#8, 0x00#8, 0x08#8, 0x00#8, 0x00#8, 0x10#8, 0x00#8, 0x00#8] := by decide

/-- V-D1. -/
theorem test_arm : after (fun s => (readWord s 0x8238, ownedByEngine s 1 .tx true)) (exec (.arm 1 .tx true 64#16 0x2040#32 true true) cfg) =
    some (0x004000C8#32, true) := by decide

/-- R78, R108: with the accesses as steps of their own ARM writes the count, then the address, then the flags, and the engine may
step in between; here each state is the one its fetch would meet. -/
theorem test_arm_fine :
    after (fun s => (readWord s 0x8230, s.pending.length))
      (exec (.arm 1 .tx false 2#16 0x2000#32 false true) { storeWord cfg 0x8230 0#32 with fine := true }) =
        some (0x00020000#32, 2) ∧
    after (fun s => (readWord s 0x8230, readWord s 0x8234, s.pending.length))
      (andThen (exec (.arm 1 .tx false 2#16 0x2000#32 false true) { storeWord cfg 0x8230 0#32 with fine := true }) step) =
        some (0x00020000#32, 0x2000#32, 1) := by decide

/-- V-D3 as in `test_arm_fine`: the even flags first. -/
theorem test_bdInit_fine :
    after (fun s => (readWord s 0x8220, readWord s 0x8228, s.pending.length))
      (exec (.bdInit 1 .rx) { storeWord (storeWord cfg 0x8220 0x00090088#32) 0x8228 0x00090088#32 with fine := true }) =
        some (0x00090000#32, 0x00090088#32, 3) := by decide

/-- R250: another operation of software waits for the writes of a hand-over operation; a bus event does not. -/
theorem test_turns_pending :
    whoseTurn { cfg with pending := [write16 0x8230 0x0088#16], inputs := [.op (encode RegMap.default .rdStat)] } = .software ∧
    whoseTurn { cfg with pending := [write16 0x8230 0x0088#16], inputs := [.op (encode RegMap.default .busReset)] } =
      .input (.op (encode RegMap.default .busReset)) [] := by decide

/-- V-D2. -/
theorem test_armStall : after (fun s => (readWord s 0x8210, readWord s 0x8214)) (exec (.armStall 0 .tx false 0#16 0x1100#32 true true) cfg) =
    some (0x000000CC#32, 0x00001100#32) := by decide

/-- P3 step 10: the override does not clear EPSTALL (R165). -/
theorem test_stallOverride :
    after (fun s => (readWord s 0x8230, s.ep[(1 : Fin 16)]))
      (exec (.stallOverride 1 .tx false 1#16 0x2000#32 false true) (armStall 1 .tx false 0 0x2000 false true { cfg with ep := cfg.ep.set 1 (epOf 0x1F) })) =
    some (0x00010088#32, epOf 0x1F) := by decide

/-- V-D4: the count stays. -/
theorem test_reclaim : after (fun s => (readWord s 0x8230, ppbi s 1 .tx)) (exec (.reclaim 1 .tx false) (arm 1 .tx false 3 0x2000 false true cfg)) =
    some (0x00030000#32, false) := by decide

/-- V-D3: word 1 stays. -/
theorem test_bdInit : after (fun s => (readWord s 0x8220, readWord s 0x8228, readWord s 0x822C))
    (exec (.bdInit 1 .rx) (arm 1 .rx true 9 0x3040 true true (arm 1 .rx false 9 0x3000 true true cfg))) =
    some (0#32, 0#32, 0x00003040#32) := by decide

/-- R168: the word is latched with the parity of the pointer. -/
theorem test_fetch : after (·.txn.map (·.phase)) (exec .fetch (inPhase .inn 1 false [] true .fetch (arm 1 .tx false 2 0x2000 false true cfg))) =
    some (some (.command false 0x00020088#32)) := by decide

/-- V-T35: KEEP set is refused (U1). -/
theorem test_fetch_refused : refusalOf (exec .fetch (inPhase .inn 1 false [] true .fetch (storeWord cfg 0x8230 0x000000A8#32))) =
    some (.decode .keepOrNinc) := by decide

/-- V-C1. -/
theorem test_retire : after (fun s => (readWord s 0x8220, ppbi s 1 .rx, s.fifo, s.pktdis, irq s))
    (exec (.retire 1 .rx false 2#16 false .out) (arm 1 .rx false 64 0x3000 false true cfg)) =
    some (0x00020004#32, true, [{ ep := 1, dir := .rx, odd := false }], false, true) := by decide

/-- V-C2. -/
theorem test_retire_setup : after (fun s => (readWord s 0x8208, ppbi s 0 .rx, s.pktdis))
    (exec (.retire 0 .rx true 8#16 false .setup) { cfg with ppbiRx := cfg.ppbiRx.set 0 true }) =
    some (0x00080034#32, false, true) := by decide

/-- V-T11, as the command the token fetched. -/
theorem test_bdData : after (fun s => (readBytesAt s 0x3000 2, readWord s 0x8220, s.resp))
    (exec (.bdData false true 64#16) (inPhase .out 1 false [0xAA#8, 0xBB#8] false (.command false 0x00400088#32) (arm 1 .rx false 64 0x3000 false true cfg))) =
    some ([0xAA#8, 0xBB#8], 0x00020004#32, .ack) := by decide

/-- V-T16: a payload longer than the count (U5). -/
theorem test_bdData_overrun : refusalOf
    (exec (.bdData false true 2#16) (inPhase .out 1 false [1#8, 2#8, 3#8] false (.command false 0x00020088#32) (arm 1 .rx false 2 0x3000 false true cfg))) =
    some .overrun := by decide

/-- V-T25, as the command the token fetched. -/
theorem test_bdStall : after (fun s => (s.resp, s.stallif, s.ep[(0 : Fin 16)], ppbi s 0 .rx))
    (exec (.bdStall false true 8#16) (inPhase .out 0 false [] false (.command false 0x0008008C#32) (armStall 0 .rx false 8 0x1000 false true cfg))) =
    some (.stall, true, epOf 0x0F, false) := by decide

/-- V-T24: a SETUP treats it as data. -/
theorem test_bdStall_setup : after (fun s => (s.resp, s.stallif, readWord s 0x8200))
    (exec (.bdStall false true 8#16) (inPhase .setup 0 false [9#8] false (.command false 0x0008008C#32) (armStall 0 .rx false 8 0x1000 false true cfg))) =
    some (.ack, false, 0x00010034#32) := by decide

/-- V-T7, V-T9. -/
theorem test_bdIdle : after (·.resp) (exec (.bdIdle 0#16 0#16) (inPhase .inn 1 false [] true (.command false 0#32) cfg)) = some .nak ∧
    after (·.resp) (exec (.bdIdle 0#16 0#16) (inPhase .setup 0 false [] false (.command false 0#32) cfg)) = some .none := by decide

/-- A retired word met at the pointer is idle (V-E3, P2 step 10). -/
theorem test_bdDone_fetched : after (·.resp) (exec (.bdDone false .inn 3#16) (inPhase .inn 1 false [] true (.command false 0x00030024#32) cfg)) = some .nak := by decide

/-- V-E2: the words the engine writes. -/
theorem test_bdDone_written :
    after (readWord · 0x8220) (exec (.bdDone true .out 2#16) (inPhase .out 1 true [] false (.done false 2#16 true) cfg)) = some 0x00020044#32 ∧
    after (readWord · 0x8220) (exec (.bdDoneOut false 2#16) (inPhase .out 1 false [] false (.done false 2#16 false) cfg)) = some 0x00020004#32 ∧
    after (readWord · 0x8230) (exec (.bdDoneIn true 2#16) (inPhase .inn 1 false [] true (.done false 2#16 true) cfg)) = some 0x00020064#32 ∧
    after (readWord · 0x8200) (exec (.bdDoneSetup true 8#16) (inPhase .setup 0 true [] false (.done false 8#16 true) cfg)) = some 0x00080074#32 := by
  decide

/-- CFG after `BDINIT 1,TX`. -/
def idlePair : State :=
  storeWord (storeWord cfg 0x8230 0#32) 0x8238 0#32

/-- R170 and V-D5: the descriptor past the pointer may be armed after BD.DATA at the pointer, not after an idle one or
BD.STALL. -/
theorem test_mayArm :
    mayArm idlePair 1 .tx true = false ∧ mayArm idlePair 1 .tx false = true ∧
    mayArm (armStall 1 .tx false 1 0x2000 false true idlePair) 1 .tx true = false ∧
    mayArm (arm 1 .tx false 1 0x2000 false true idlePair) 1 .tx true = true ∧
    mayArm (arm 1 .tx false 1 0x2000 false true idlePair) 1 .tx false = false := by decide

theorem test_inPointerOrder :
    inPointerOrder (arm 1 .tx false 1 0x2000 false true idlePair) 1 .tx = true ∧
    inPointerOrder (arm 1 .tx true 1 0x2040 false true (armStall 1 .tx false 1 0x2000 false true idlePair)) 1 .tx = false := by
  decide

/-! ## Bus operations (V-T) -/

/-- V-T14: a toggle mismatch is acknowledged and changes nothing. -/
theorem test_busOut_mismatch : after (fun s => (s.resp, readWord s 0x8220, ppbi s 1 .rx, s.fifo))
    (exec (.busOut 5#7 1 true [0xAA#8, 0xBB#8]) (arm 1 .rx false 64 0x3000 false true cfg)) =
    some (.ack, 0x00400088#32, false, []) := by decide

/-- V-T21: an isochronous OUT is retired without a handshake. -/
theorem test_busOut_iso : after (fun s => (s.resp, readBytesAt s 0x5000 2, readWord s 0x8260, ppbi s 3 .rx))
    (exec (.busOut 5#7 3 true [9#8, 8#8]) (arm 3 .rx false 16 0x5000 false false cfg)) =
    some (.none, [9#8, 8#8], 0x00020044#32, true) := by decide

/-- V-T18: without the host's ACK the packet is not retired. -/
theorem test_busIn_no_ack : after (fun s => (s.resp, readWord s 0x8230, s.fifo))
    (exec (.busIn 5#7 1 false) (storeBytes (arm 1 .tx false 2 0x2000 false true cfg) 0x2000 [0x0A#8, 0x0B#8])) =
    some (.data false [0x0A#8, 0x0B#8], 0x00020088#32, []) := by decide

/-- V-T33 and V-T34: the last byte of the address space, and one too many. -/
theorem test_busIn_edge :
    refusalOf (exec (.busIn 5#7 1 true) (arm 1 .tx false 16 0xFFFFFFF8 false true cfg)) = some .badBuffer ∧
    after (fun s => (s.resp, readWord s 0x8230))
      (exec (.busIn 5#7 1 true) (storeBytes (arm 1 .tx false 8 0xFFFFFFF8 false true cfg) 0xFFFFFFF8
        [0#8, 1#8, 2#8, 3#8, 4#8, 5#8, 6#8, 7#8])) =
      some (.data false [0#8, 1#8, 2#8, 3#8, 4#8, 5#8, 6#8, 7#8], 0x00080024#32) := by decide

/-- V-T23: accepted although halted and although the toggle differs. -/
theorem test_busSetup : after (fun s => (s.resp, readWord s 0x8200, s.pktdis, s.ep[(0 : Fin 16)], s.stallif))
    (exec (.busSetup 5#7 0 false [0#8, 1#8, 2#8, 3#8, 4#8, 5#8, 6#8, 7#8])
      (arm 0 .rx false 8 0x1000 true true { cfg with ep := cfg.ep.set 0 (epOf 0x0F) })) =
    some (.ack, 0x00080034#32, true, epOf 0x0F, false) := by decide

/-- V-T5 and V-T27. -/
theorem test_busSetup_not_taken :
    after (fun s => (s.resp, readWord s 0x8220)) (exec (.busSetup 5#7 1 false [1#8]) (arm 1 .rx false 64 0x3000 false true cfg)) =
      some (.none, 0x00400088#32) ∧
    after (fun s => (s.resp, readWord s 0x8200))
      (exec (.busSetup 5#7 0 false [1#8]) { arm 0 .rx false 8 0x1000 false true cfg with pktdis := true }) =
      some (.none, 0x00080088#32) := by decide

/-- V-T28. -/
theorem test_busSof : exec .busSof cfg = .next cfg := by rfl

/-- V-T2 and V-T30. -/
theorem test_busReset : after (·.urstif) (exec .busReset { cfg with usbpwr := false }) = some false ∧
    after (fun s => (s.urstif, s.devaddr, irq s)) (exec .busReset cfg) = some (true, 5#7, true) := by decide

/-- V-T29: error flags are not routed to the request. -/
theorem test_busErr : after (fun s => (s.eir, irq s)) (exec (.busErr 0x14#8) cfg) = some (0x14#8, false) := by decide

/-- V-T22, V-T26, V-T31, V-T32: the order of the checks. -/
theorem test_checks :
    after (fun s => (s.resp, s.stallif)) (exec (.busIn 5#7 1 true) { cfg with ep := cfg.ep.set 1 (epOf 0x1F) }) = some (.stall, true) ∧
    after (·.resp) (exec (.busIn 5#7 1 true) { cfg with pktdis := true }) = some .nak ∧
    refusalOf (exec (.busIn 5#7 2 false) { cfg with ep := cfg.ep.set 2 (epOf 0x16) }) = some .haltedWithoutHandshake ∧
    after (·.resp) (exec (.busOut 5#7 2 false []) { cfg with ep := cfg.ep.set 2 (epOf 0x16) }) = some .none := by decide

/-- V-T36: with four entries queued nothing is fetched. -/
theorem test_queue_full :
    after (fun s => (s.resp, readWord s 0x8230, s.fifo.length))
      (exec (.busIn 5#7 1 true) { arm 1 .tx false 1 0x2000 false true cfg with fifo := List.replicate 4 { ep := 1, dir := .tx, odd := false } }) =
      some (.nak, 0x00010088#32, 4) := by decide

/-! ## The driver -/

/-- V-SW1. -/
theorem test_driver_overflow : after (·.drv.result) (runCall (.armGeneric 1 .tx 65 false) (withEcb 1 .tx ecb cfg)) =
    some (.err .bufferOverflow) := by decide

/-- V-SW2: automatic assignment takes endpoint 1 and writes 0x15. -/
theorem test_driver_alloc : after (fun s => (s.drv.result, s.ep[(1 : Fin 16)]))
    (runCall (.allocEp .tx none .bulk 64 0 (some (0x2000#32, 0x2040#32)))
      { cfg with ep := cfg.ep.set 1 EpCtl.zero, drv := { cfg.drv with table := 0x8200#32 } }) =
    some (.endpoint 1, epOf 0x15) := by decide

/-- V-SW3: two armed packets, `next_odd` 0. -/
theorem test_driver_cancel : after (fun s => (ecbOf s.drv 1 .tx).map (fun e => (e.nextOdd, e.armedCtr)))
    (runCall (.cancel 1 .tx) (withEcb 1 .tx { ecb with nextOdd := true, armedCtr := 1 } cfg)) = some (some (false, 0)) := by decide

/-- R265: `clear_completed` on (0, RX); without a block the model returns ok (log 18). -/
theorem test_driver_reset :
    after (fun s => (ecbOf s.drv 0 .rx).map (fun e => (e.nextCompleteOdd, e.completeCtr)))
      (runCall .reset (withEcb 0 .rx { ecb with completeCtr := 1 } cfg)) = some (some (true, 0)) ∧
    after (·.drv.result) (runCall .reset cfg) = some .ok := by decide

/-- R251: the driver's descriptors stay where `new` put them when the base registers are written. -/
theorem test_driver_table_is_its_own : after (readWord · 0x8234)
    (runCall (.armGeneric 1 .tx 3 false) (withEcb 1 .tx ecb { cfg with bdtp1 := 0#7 })) = some 0x2000#32 := by decide

/-- R333: a packet completes that `cancel` had counted out, and `armed_ctr` is wrong by one from then on. -/
theorem test_driver_wrong_by_one : after (fun s => (ecbOf s.drv 1 .tx).map (·.armedCtr))
    (callTurn { call := .poll, answers := [0#32, 0x08#32, 0x18#32, 0x18#32, 0x0024#32, 0#32, 0#32, 0#32] } (withEcb 1 .tx ecb cfg)) =
    some (some (-1)) := by decide

/-- R78, R250: a completion that arrived while `poll` handled another one is taken by its next pass: after the second IR with
TRNIF 1 it reads STAT. -/
theorem test_poll_sees_a_later_entry :
    after (fun s => (s.call.map (·.answers.length), s.rdata))
      (callTurn { call := .poll, answers := [0#32, 0x08#32, 0x10#32, 0x10#32, 0x0004#32, 0x08#32] }
        { withEcb 1 .rx { ecb with armedCtr := 2 } cfg with fifo := [{ ep := 1, dir := .rx, odd := true }] }) =
      some (some 7, 0x14#32) := by decide

/-- R250: software's next access waits for the call in progress; a bus event does not. -/
theorem test_turns :
    whoseTurn { inCall .poll [] cfg with inputs := [.op (encode RegMap.default .rdStat)] } = .software ∧
    whoseTurn { inCall .poll [] cfg with inputs := [.op (encode RegMap.default .busReset)] } =
      .input (.op (encode RegMap.default .busReset)) [] := by decide

/-- R60, R290: past the top of the address space software's access is refused. -/
theorem test_memory_refused :
    refusalOf (step { cfg with inputs := [.mem { write := false, width := .w32, addr := 0xFFFFFFFD#32, value := 0#32 }] }) =
      some .outsideMemory := by decide

/-! ## Witnesses: states and operands that meet the hypotheses -/

theorem witness_DecodeEncodeAgree : RegMap.default.wf = true ∧ Instr.wf (.retire 15 .tx true 1023#16 true .inn) = true := by decide

theorem witness_DecodedIsWellFormed :
    decode RegMap.default { fmt := .bd, bytes := [0x88#8, 0#8, 0xFF#8, 0x03#8] } = .ok (.bdData false true 1023#16) := by decide

theorem witness_DescriptorWordHasOneMeaning : decodeBd 0x0040007F#32 = .ok (.bdIdle 0x007F#16 0x0040#16) := by decide

/-- A register read during a transaction, a token with none in progress and a call in progress, and bits that are no
operation. -/
theorem witness_StepRunsPortOperation :
    (decode cfg.cfg.regs (encode RegMap.default .rdStat) = .ok .rdStat ∧ (encode RegMap.default .rdStat).fmt = .reg ∧
      (inPhase .inn 1 false [] true .fetch cfg).call = none ∧ (inPhase .inn 1 false [] true .fetch cfg).pending = []) ∧
    ((inCall .poll [] cfg).txn = none ∧
      decode cfg.cfg.regs (encode RegMap.default (.busIn 5#7 1 true)) = .ok (.busIn 5#7 1 true)) ∧
    decode cfg.cfg.regs { fmt := .cond, bytes := [] } = .error .malformed := by decide

theorem witness_StepRunsEngine :
    (inPhase .inn 1 false [] true .fetch cfg).inputs = [] ∧
    decodeBd 0x00020088#32 = .ok (.bdData false true 2#16) ∧
    ({ inPhase .inn 1 false [] true (.command false 0x00020088#32) cfg with inputs := [.engine] }).inputs = [.engine] ∧
    (inPhase .inn 1 false [] true (.data false 0x00020088#32 0x2000#32 1 [0#8]) cfg).txn.isSome = true ∧
    (inPhase .inn 1 false [] true (.done false 2#16 false) cfg).txn.isSome = true ∧
    (encode RegMap.default .busReset).fmt = .cond ∧
    cfg.txn = none ∧ cfg.call = none ∧ cfg.pending = [] ∧ cfg.inputs = [] := by decide

/-- A call that begins in either form; a call in progress with nothing given, before an access of software that waits, and at
its turn; the same with a write still to make; a turn with nothing in progress. -/
theorem witness_StepRunsCall :
    (({ cfg with fine := true, inputs := [.call .enable] }).call = none ∧ cfg.pending = [] ∧ cfg.fine = false) ∧
    ({ cfg with pending := [write16 0x8230 0x0088#16] }).pending = write16 0x8230 0x0088#16 :: [] ∧
    ((inCall .enable [] cfg).inputs = [] ∧ (inCall .enable [] cfg).txn = none) ∧
    (agentOf (.op (encode RegMap.default .rdStat)) = .software ∧
      Input.op (encode RegMap.default .rdStat) ≠ .software) ∧
    ({ inCall .enable [] cfg with inputs := [.software] }).inputs = [.software] ∧
    ({ cfg with inputs := [.software] }).call = none := by decide

/-- The last word of the address space, and one byte too far. -/
theorem witness_SoftwareMemoryAccess :
    cfg.call = none ∧ cfg.pending = [] ∧ (0xFFFFFFFC#32).toNat + widthBytes .w32 ≤ 2 ^ 32 ∧ 2 ^ 32 < (0xFFFFFFFD#32).toNat + widthBytes .w32 ∧
    (0xFFFFFFFF#32).toNat + widthBytes .w8 ≤ 2 ^ 32 := by decide

/-- A state in the middle of a data phase that meets the invariant. -/
def midway : State :=
  inPhase .inn 1 false [] true (.data false 0x00020088#32 0x2000#32 1 [0x0A#8]) (arm 1 .tx false 2 0x2000 false true cfg)

theorem witness_Inv : Inv midway := by
  refine ⟨by decide, by decide, by decide, ?_⟩
  intro x hx
  cases hx
  refine ⟨by decide, by decide, ?_⟩
  exact ⟨by decide, by decide, by decide, by decide, by decide, by decide⟩

theorem witness_StepKeepsInvariant : Inv midway ∧ ∃ t, step midway = .next t := ⟨witness_Inv, _, rfl⟩

theorem witness_StatusRead : flagged.fifo = { ep := 0, dir := .rx, odd := false } :: [{ ep := 0, dir := .tx, odd := false }] ∧
    cfg.fifo = [] := by decide

theorem witness_GuardedRegisterWrites :
    (0x1F#32).extractLsb' 5 3 = 0#3 ∧ (0x20#32).extractLsb' 5 3 ≠ 0#3 ∧ (0x01#32).extractLsb' 1 7 = 0#7 ∧
    (0x02#32).extractLsb' 1 7 ≠ 0#7 ∧ (0x7F#32).getLsbD 7 = false ∧ (0x80#32).getLsbD 7 = true ∧
    (0x100#32).extractLsb' 0 8 = 0#8 ∧ (0x01#32).extractLsb' 0 8 ≠ 0#8 := by decide

theorem witness_ControlWrite :
    ((0xC1#32).extractLsb' 1 4 = 0#4 ∧ (0xC1#32).getLsbD 5 = false) ∧
    ((0x21#32).extractLsb' 1 4 = 0#4 ∧ (0x21#32).getLsbD 5 = true) ∧ (0x02#32).extractLsb' 1 4 ≠ 0#4 := by decide

theorem witness_WriteOneToClear :
    ((0x89#32).getLsbD 0 = true ∧ (0x89#32).getLsbD 3 = true ∧ (0x89#32).getLsbD 7 = true) ∧
    ((0x76#32).getLsbD 0 = false ∧ (0x76#32).getLsbD 3 = false ∧ (0x76#32).getLsbD 7 = false) := by decide

theorem witness_DescriptorsAreApart :
    bdAddr (bdtBase cfg) 15 .tx true < bdAddr (bdtBase cfg) 15 .tx true + 8 ∧ bdAddr (bdtBase cfg) 15 .tx true = 0x83F8 := by decide

/-- The operands at their bounds, at the last descriptor of the highest table, in both forms. -/
theorem witness_ArmWritesTheDescriptor :
    (Instr.arm 15 .tx true 0xFFFF#16 0xFFFFFFFF#32 true true = .arm 15 .tx true 0xFFFF#16 0xFFFFFFFF#32 true true) ∧
    (Instr.stallOverride 0 .rx false 0#16 0#32 false false = .stallOverride 0 .rx false 0#16 0#32 false false) ∧
    (Instr.armStall 0 .tx false 0#16 0x1100#32 true true = .armStall 0 .tx false 0#16 0x1100#32 true true) ∧
    0xFFFFFFF8 = bdAddr (bdtBase { cfg with bdtp1 := 0x7F#7, bdtp2 := 0xFF#8, bdtp3 := 0xFF#8 }) 15 .tx true ∧
    cfg.fine = false ∧ ({ cfg with fine := true }).fine = true := by decide

theorem witness_ReclaimAndInit : cfg.fine = false ∧ State.reset.fine = true := by decide

/-- Each operation at the pointer, whole and one write after the other. -/
theorem witness_HandOverMovesTheEndpointState :
    dirEnabled cfg.ep[(1 : Fin 16)] .tx = true ∧ cfg.ep[(1 : Fin 16)].epstall = false ∧ cfg.pending = [] ∧
    (∃ u, andThen (exec (.arm 1 .tx false 2#16 0x2000#32 false true) cfg) (writesRun 2) = .next u) ∧
    (∃ u, andThen (exec (.stallOverride 1 .tx false 2#16 0x2000#32 false true) cfg) (writesRun 2) = .next u) ∧
    (∃ u, andThen (exec (.armStall 1 .tx false 2#16 0x2000#32 false true) { cfg with fine := true }) (writesRun 2) = .next u) ∧
    (∃ u, exec (.reclaim 1 .tx false) cfg = .next u) := by
  refine ⟨by decide, by decide, rfl, ⟨_, rfl⟩, ⟨_, rfl⟩, ⟨_, rfl⟩, ⟨_, rfl⟩⟩

/-- One word for each clause, the count at its bounds. -/
theorem witness_FetchReadsTheCommand :
    (0x0040007F#32).getLsbD 7 = false ∧
    ((0x00080188#32).getLsbD 7 = true ∧ (0x00080188#32).extractLsb' 8 8 ≠ 0#8) ∧
    ((0x00080089#32).getLsbD 7 = true ∧ (0x00080089#32).extractLsb' 0 2 ≠ 0#2) ∧
    ((0x000800A8#32).getLsbD 7 = true ∧ (0x000800A8#32).extractLsb' 8 8 = 0#8 ∧ (0x000800A8#32).extractLsb' 0 2 = 0#2 ∧
      (0x000800A8#32).getLsbD 5 = true) ∧
    ((0x04000080#32).getLsbD 5 = false ∧ (0x04000080#32).getLsbD 4 = false ∧ 1023 < (0x04000080#32).toNat / 65536) ∧
    ((0x03FF0080#32).getLsbD 5 = false ∧ (0x03FF0080#32).getLsbD 4 = false ∧ (0x03FF0080#32).toNat / 65536 ≤ 1023) := by decide

/-- The latch at FETCH, and the word its pointer selects. -/
theorem witness_FetchReadsTheCommand_state :
    (inPhase .inn 1 false [] true .fetch (arm 1 .tx false 2 0x2000 false true cfg)).txn.map (fun x => (x.phase, x.ep, x.kind)) =
      some (.fetch, 1, .inn) ∧
    ppbi (inPhase .inn 1 false [] true .fetch (arm 1 .tx false 2 0x2000 false true cfg)) 1 .tx = false ∧
    readWord (inPhase .inn 1 false [] true .fetch (arm 1 .tx false 2 0x2000 false true cfg)) (0x8200 + 32 * 1 + 16 + 0) =
      0x00020088#32 := by decide

theorem witness_RetireCompletes : cfg.txn = none ∧ midway.txn.isSome = true := by decide

theorem witness_ResultWordCompletes :
    (inPhase .inn 1 false [] true (.done false 2#16 true) cfg).txn.map (·.phase) = some (.done false 2#16 true) := by decide

theorem witness_IdleWordAnswers :
    (inPhase .inn 1 false [] true (.command false 0x00030024#32) cfg).txn.map (·.phase) = some (.command false 0x00030024#32) := by decide

theorem witness_StallCommand :
    (inPhase .out 0 false [] false (.command false 0x0008008C#32) cfg).txn.map (·.kind) = some .out ∧
    (inPhase .setup 0 false [] false (.data false 0x0008008C#32 0x1000#32 0 []) cfg).txn.map (·.kind) = some .setup := by decide

theorem witness_ToggleMismatch :
    (inPhase .out 1 true [] false (.command false 0x00400088#32) cfg).txn.map (fun x => (x.kind, x.toggle, x.ctl.ephshk)) =
      some (.out, true, true) ∧ cfg.cfg.mismatch = .ack ∧
    ({ cfg with cfg := { cfg.cfg with mismatch := .nak } }).cfg.mismatch = .nak ∧
    (inPhase .out 3 true [] false (.command false 0x00100088#32) cfg).txn.map (·.ctl.ephshk) = some false := by decide

/-- A payload of exactly the count, one byte more, and a buffer that ends at, or passes, the top of the space. -/
theorem witness_DataCommandReceives :
    ([1#8, 2#8] : List Byte).length ≤ (2#16).toNat ∧ (2#16).toNat < ([1#8, 2#8, 3#8] : List Byte).length ∧
    bufferFits cfg.cfg 0xFFFFFFFE#32 2 ∧ ¬bufferFits cfg.cfg 0xFFFFFFFF#32 2 ∧
    ¬bufferFits { cfg.cfg with memHoles := [(0x3001, 1)] } 0x3000#32 2 := by decide

/-- The latch of an OUT under the command's toggle and of a SETUP, the buffer's address read from word 1. -/
theorem witness_DataCommandReceives_state :
    (inPhase .out 1 false [1#8, 2#8] false (.command false 0x00020088#32) (arm 1 .rx false 2 0xFFFFFFFE false true cfg)).txn.map
      (fun x => (x.phase, x.kind, x.toggle, x.base)) = some (.command false 0x00020088#32, .out, false, bdtBase cfg) ∧
    (inPhase .setup 0 true [] false (.command false 0x00020088#32) cfg).txn.map (·.kind) = some .setup ∧
    (inPhase .out 1 false [1#8, 2#8] false (.command false 0x00020088#32) (arm 1 .rx false 2 0xFFFFFFFE false true cfg)).fine = false ∧
    0xFFFFFFFE#32 = readWord (arm 1 .rx false 2 0xFFFFFFFE false true cfg) (bdAddr (bdtBase cfg) 1 .rx false + 4) := by decide

/-- An endpoint with handshake with and without the host's ACK, one without handshake, and a buffer that fits or does not. -/
theorem witness_DataCommandSends :
    (inPhase .inn 1 false [] false (.command false 0x00020088#32) cfg).txn.map (fun x => (x.kind, x.phase, x.ctl.ephshk, x.ack)) =
      some (.inn, .command false 0x00020088#32, true, false) ∧
    (inPhase .inn 1 false [] true (.command false 0x00020088#32) cfg).txn.map (·.ack) = some true ∧
    (inPhase .inn 2 false [] false (.command false 0x00020088#32) cfg).txn.map (·.ctl.ephshk) = some false ∧
    (inPhase .inn 1 false [] false (.command false 0x00020088#32) cfg).fine = false ∧
    bufferFits cfg.cfg 0xFFFFFFFE#32 2 ∧ ¬bufferFits cfg.cfg 0xFFFFFFFF#32 2 ∧ bufferFits cfg.cfg 0xFFFFFFFF#32 0 := by decide

/-- One command for each clause, the accesses as steps of their own: a SETUP and an OUT, a packet with and without bytes, one
byte too many, and a buffer that fits or does not. -/
theorem witness_DataCommandBegins :
    (inPhase .setup 0 true [1#8, 2#8] false (.command false 0x00020088#32) { cfg with fine := true }).txn.map
      (fun x => (x.kind, x.phase, x.payload.length)) = some (.setup, .command false 0x00020088#32, 2) ∧
    (inPhase .out 1 false [] false (.command false 0x00020088#32) { cfg with fine := true }).txn.map
      (fun x => (x.kind, x.toggle, x.payload.length)) = some (.out, false, 0) ∧
    (inPhase .inn 1 false [] false (.command false 0x00000088#32) { cfg with fine := true }).txn.map
      (fun x => (x.kind, x.ctl.ephshk, x.ack)) = some (.inn, true, false) ∧
    (inPhase .inn 1 false [] false (.command false 0x00000088#32) { cfg with fine := true }).fine = true ∧
    (2#16).toNat < ([1#8, 2#8, 3#8] : List Byte).length ∧ ([1#8, 2#8] : List Byte).length ≤ (2#16).toNat ∧
    0 < (2#16).toNat ∧ (0#16).toNat = 0 ∧
    bufferFits cfg.cfg 0xFFFFFFFE#32 2 ∧ ¬bufferFits cfg.cfg 0xFFFFFFFF#32 2 ∧ bufferFits cfg.cfg 0xFFFFFFFF#32 0 := by decide

/-- The first and the last byte of an OUT and of an IN. -/
theorem witness_DataPhaseMovesOneByte :
    (0 < ([1#8, 2#8] : List Byte).length ∧ 0 + 1 < ([1#8, 2#8] : List Byte).length ∧ 1 + 1 = ([1#8, 2#8] : List Byte).length) ∧
    (0 + 1 < (2#16).toNat ∧ 1 + 1 = (2#16).toNat) ∧
    midway.txn.map (·.phase) = some (.data false 0x00020088#32 0x2000#32 1 [0x0A#8]) := by decide

/-- One state for each clause, from the token of V-T3 on. -/
theorem witness_TokenChecksInOrder :
    ¬(({ cfg with usben := false }).usbpwr = true ∧ ({ cfg with usben := false }).usben = true) ∧
    (6#7 ≠ cfg.devaddr) ∧
    (cfg.ep[(4 : Fin 16)].eptxen = false) ∧
    ((epOf 0x16).epstall = true ∧ (epOf 0x16).ephshk = false) ∧
    (¬((epOf 0x1D).epstall = true ∧ (epOf 0x1D).ephshk = false) ∧ holdOffOf cfg.cfg .setup = .nakOrNone ∧
      holdOffOf { cfg.cfg with holdOffSetup := .always .nak } .setup = .always .nak) ∧
    (cfg.cfg.fifoDepth ≤ (List.replicate 4 (0 : Nat)).length ∧ (List.replicate 3 (0 : Nat)).length < cfg.cfg.fifoDepth) ∧
    ((epOf 0x1F).epstall = true ∧ (epOf 0x1F).ephshk = true ∧ (epOf 0x1F).eptxen = true) ∧
    tokenPasses cfg .inn 5#7 1 ∧
    (fetchCommand 0x000800A8#32 = .error .keepOrNinc ∧ fetchCommand 0x0040007F#32 = .ok .idle ∧
      fetchCommand 0x0008008C#32 = .ok (.stall false true 8#16) ∧ fetchCommand 0x00080088#32 = .ok (.data false true 8#16)) := by
  decide

/-- A packet that is taken, one under another toggle, one byte too many, and a buffer that passes the top of the space. -/
theorem witness_BusOutTransaction :
    (tokenPasses (arm 1 .rx false 2 0x3000 false true cfg) .out 5#7 1 ∧ (arm 1 .rx false 2 0x3000 false true cfg).fine = false ∧
      ppbi (arm 1 .rx false 2 0x3000 false true cfg) 1 .rx = false ∧
      fetchCommand (readWord (arm 1 .rx false 2 0x3000 false true cfg) (bdAddr (bdtBase cfg) 1 .rx false)) =
        .ok (.data false true 2#16) ∧
      readWord (arm 1 .rx false 2 0x3000 false true cfg) (bdAddr (bdtBase cfg) 1 .rx false + 4) = 0x3000#32) ∧
    (true = true ∧ true ≠ false) ∧ (2#16).toNat < ([1#8, 2#8, 3#8] : List Byte).length ∧
    ([1#8, 2#8] : List Byte).length ≤ (2#16).toNat ∧ bufferFits cfg.cfg 0x3000#32 2 ∧ ¬bufferFits cfg.cfg 0xFFFFFFFF#32 2 := by
  decide

theorem witness_BusSetupTransaction :
    (tokenPasses (armStall 0 .rx false 8 0x1000 false true { cfg with ep := cfg.ep.set 0 (epOf 0x0F) }) .setup 5#7 0 ∧
      ppbi (armStall 0 .rx false 8 0x1000 false true { cfg with ep := cfg.ep.set 0 (epOf 0x0F) }) 0 .rx = false ∧
      fetchCommand (readWord (armStall 0 .rx false 8 0x1000 false true { cfg with ep := cfg.ep.set 0 (epOf 0x0F) })
        (bdAddr (bdtBase cfg) 0 .rx false)) = .ok (.stall false true 8#16)) ∧
    fetchCommand (readWord (arm 0 .rx false 8 0x1000 true true cfg) (bdAddr (bdtBase cfg) 0 .rx false)) =
      .ok (.data true true 8#16) ∧
    8 ≤ (8#16).toNat ∧ (8#16).toNat < 9 ∧ bufferFits cfg.cfg 0x1000#32 8 ∧ ¬bufferFits cfg.cfg 0xFFFFFFF9#32 8 := by decide

theorem witness_BusInTransaction :
    (tokenPasses (arm 1 .tx false 2 0x2000 false true cfg) .inn 5#7 1 ∧ (arm 1 .tx false 2 0x2000 false true cfg).fine = false ∧
      ppbi (arm 1 .tx false 2 0x2000 false true cfg) 1 .tx = false ∧
      fetchCommand (readWord (arm 1 .tx false 2 0x2000 false true cfg) (bdAddr (bdtBase cfg) 1 .tx false)) =
        .ok (.data false true 2#16) ∧
      readWord (arm 1 .tx false 2 0x2000 false true cfg) (bdAddr (bdtBase cfg) 1 .tx false + 4) = 0x2000#32) ∧
    bufferFits cfg.cfg 0x2000#32 2 ∧ ¬bufferFits cfg.cfg 0xFFFFFFFF#32 2 ∧
    cfg.ep[(1 : Fin 16)].ephshk = true ∧ cfg.ep[(2 : Fin 16)].ephshk = false := by decide

theorem witness_InactiveIgnoresTheBus :
    ¬(({ cfg with usbpwr := false }).usbpwr = true ∧ ({ cfg with usbpwr := false }).usben = true) := by decide

theorem witness_OtherBusEvents : (cfg.usbpwr = true ∧ cfg.usben = true) ∧ ¬(State.reset.usbpwr = true ∧ State.reset.usben = true) := by decide

theorem witness_TokenSamplesRegisters : tokenPasses { cfg with fine := true } .setup 5#7 0 ∧ ({ cfg with fine := true }).fine = true := by decide

/-- The completion of V-C1, taken as the step of the engine. -/
theorem witness_PointerMovesOnlyAtRetirement :
    after (fun u => (ppbi u 1 .rx, u.fifo)) (step (inPhase .out 1 false [] false (.done false 0#16 false) cfg)) =
      some (true, [{ ep := 1, dir := .rx, odd := false }]) ∧
    ppbi (inPhase .out 1 false [] false (.done false 0#16 false) cfg) 1 .rx = false := by decide

theorem witness_PointerMovesOnlyAtRetirement_inv : Inv (inPhase .out 1 false [] false (.done false 0#16 false) cfg) := by
  refine ⟨by decide, by decide, by decide, ?_⟩
  intro x hx
  cases hx
  exact ⟨by decide, by decide, by decide, by decide⟩

theorem witness_OnlyASetupSetsPktdis :
    (inPhase .setup 0 false [] false (.done false 8#16 false) cfg).pktdis = false ∧
    after (·.pktdis) (step (inPhase .setup 0 false [] false (.done false 8#16 false) cfg)) = some true := by decide

/-- An IN without the host's ACK for an armed endpoint, a token for another device, one for an endpoint without handshake, and
a bus reset. -/
theorem witness_PktdisKeepsTheEngineIdle :
    (({ cfg with pktdis := true }).txn = none ∧ ({ cfg with pktdis := true }).pktdis = true) ∧
    after (fun u => (u.resp, u.txn)) (step { arm 1 .tx false 2 0x2000 false true cfg with
      pktdis := true, inputs := [.op (encode RegMap.default (.busIn 5#7 1 false))] }) = some (.nak, none) ∧
    after (·.resp) (step { cfg with pktdis := true, inputs := [.op (encode RegMap.default (.busIn 6#7 1 true))] }) = some .none ∧
    after (·.resp) (step { cfg with pktdis := true, inputs := [.op (encode RegMap.default (.busIn 5#7 2 true))] }) = some .none ∧
    after (·.urstif) (step { cfg with pktdis := true, inputs := [.op (encode RegMap.default .busReset)] }) = some true := by
  decide

theorem witness_TransactionFrame :
    (arm 1 .rx false 2 0x3000 false true cfg).fine = false ∧
    after (·.resp) (exec (tokenInstr .out 5#7 1 false [1#8, 2#8] false) (arm 1 .rx false 2 0x3000 false true cfg)) = some .ack := by decide

theorem witness_FineTransactionEqualsAtomic : cfg.txn = none ∧ cfg.fine = false ∧ 1027 ≤ 1027 := by decide

theorem witness_ArmGenericOverflow :
    ecbOf (withEcb 1 .tx ecb cfg).drv 1 .tx = some (placed 1 .tx ecb) ∧ (placed 1 .tx ecb).epSize < 65 := by decide

/-- The pair of the last endpoint direction, and one that ends with the address space. -/
theorem witness_ArmGenericArms :
    ecbOf (withEcb 15 .tx ecb cfg).drv 15 .tx = some (placed 15 .tx ecb) ∧ 64 ≤ ecb.epSize ∧ 64 < 65536 ∧
    ecb.armedCtr + ecb.completeCtr < 2 ∧ ¬(ecb.stalled = true ∧ true = true) ∧
    (placed 15 .tx ecb).pair.toNat + 8 * natOfBool false = 0x83F0 ∧
    ({ ecb with pair := 0xFFFFFFF0#32 } : Ecb).pair.toNat + 8 * natOfBool true + 8 ≤ 2 ^ 32 := by decide

theorem witness_CancelAndClear : ecbOf (withEcb 15 .rx ecb cfg).drv 15 .rx = some (placed 15 .rx ecb) ∧
    (placed 15 .rx ecb).pair.toNat + 16 ≤ 2 ^ 32 ∧ ({ ecb with pair := 0xFFFFFFF0#32 } : Ecb).pair.toNat + 16 ≤ 2 ^ 32 := by
  decide

/-- A retired OUT on endpoint 1 in the table, counted as armed by the driver, and its completion queued. -/
def completedOut : State :=
  { storeWord (withEcb 1 .rx { ecb with armedCtr := 1, nextOdd := true } cfg) 0x8220 0x00020004#32 with
    fifo := [{ ep := 1, dir := .rx, odd := false }] }

/-- The one control block of `completedOut`. -/
theorem completedOut_blocks (ep : Fin 16) (dir : Dir) (e : Ecb) (h : ecbOf completedOut.drv ep dir = some e) :
    ep = 1 ∧ dir = .rx ∧ e = placed 1 .rx { ecb with armedCtr := 1, nextOdd := true } := by
  revert e
  cases dir <;> revert ep <;> decide

theorem completedOut_inRange : driverInRange completedOut.drv := by
  intro ep dir e h
  obtain ⟨-, -, rfl⟩ := completedOut_blocks ep dir e h
  exact ⟨by decide, by decide, by decide⟩

theorem completedOut_placed : driverPlaced completedOut.drv := by
  refine ⟨by decide, ?_⟩
  intro ep dir e h
  obtain ⟨rfl, rfl, rfl⟩ := completedOut_blocks ep dir e h
  decide

/-- Both forms: a whole call, and an access of `poll`. -/
theorem witness_DriverCountersBounded :
    driverBounded completedOut.drv ∧ (∃ u, runCall (.cancel 1 .rx) completedOut = .next u) ∧
    ∃ u, callTurn { call := .poll, answers := [0#32] } completedOut = .next u :=
  ⟨fun ep dir e h => (completedOut_inRange ep dir e h).2, ⟨_, rfl⟩, ⟨_, rfl⟩⟩

theorem witness_DriverCountersStayInRange :
    Call.cancel 1 .rx ≠ .poll ∧ (∃ u, runCall (.cancel 1 .rx) completedOut = .next u) ∧
    driverPlaced completedOut.drv ∧ driverInRange completedOut.drv ∧ pidsFit completedOut ∧
    ∀ ep dir e, ecbOf completedOut.drv ep dir = some e → (queuedFor completedOut ep dir : Int) ≤ e.armedCtr := by
  refine ⟨by decide, ⟨_, rfl⟩, completedOut_placed, completedOut_inRange, ?_, ?_⟩
  · intro q hq k hk
    have hw : kindOfPid ((readHalf completedOut (bdAddr completedOut.drv.table 1 .rx false)).extractLsb' 2 4) = some .out := by
      decide
    obtain rfl : q = { ep := 1, dir := .rx, odd := false } := by simpa [completedOut] using hq
    rw [hw] at hk
    cases hk
    rfl
  · intro ep dir e h
    obtain ⟨rfl, rfl, rfl⟩ := completedOut_blocks ep dir e h
    decide

/-- A call of `new` with the highest table, another call, a turn of a call, the last turn of `new`, and steps of other kinds. -/
theorem witness_DriverKeepsItsDescriptors :
    driverPlaced completedOut.drv ∧ (0xFFFFFE00#32).toNat % 512 = 0 ∧
    (∃ u, runCall (.cancel 1 .rx) completedOut = .next u) ∧
    (∃ u, runCall (.new 0xFFFFFE00#32) completedOut = .next u ∧ u.drv.table = 0xFFFFFE00#32) ∧
    (∃ u, callTurn { call := .cancel 1 .rx, answers := [0#32, 0#32] } completedOut = .next u) ∧
    (∃ u, callTurn { call := .new 0xFFFFFE00#32, answers := [] } completedOut = .next u ∧ u.drv.table = 0x8200#32) ∧
    (∃ u, callTurn { call := .new 0xFFFFFE00#32, answers := List.replicate 22 0#32 } completedOut = .next u ∧ u.call = none) ∧
    ∃ u, step { completedOut with inputs := [.op (encode RegMap.default (.wrBdtp1 0#32))] } = .next u ∧
      u.drv.table = 0x8200#32 := by
  refine ⟨completedOut_placed, by decide, ⟨_, rfl⟩, ⟨_, rfl, rfl⟩, ⟨_, rfl⟩, ⟨_, rfl, rfl⟩, ⟨_, rfl, rfl⟩, _, rfl, rfl⟩

/-- A `poll` that stands at its first test, and one that stands at its second, with the queue empty or not. -/
theorem witness_PollLoopTestsTheQueue :
    afterAnswers (poll 2 cfg.drv) [0#32] = pollLoop 2 0#16 cfg.drv ∧
    afterAnswers (poll 6 completedOut.drv) [0#32, 0x08#32, 0x10#32, 0x10#32, 0x0004#32] =
      pollLoop 5 0#16 (handleOut 1 completedOut.drv) ∧
    completedOut.fifo ≠ [] ∧ cfg.fifo = [] :=
  ⟨rfl, rfl, by decide, by decide⟩

theorem witness_BringUp : (0xFFFFFE00#32).toNat % 512 = 0 := by decide

theorem witness_PollDrainsEverything :
    driverPlaced completedOut.drv ∧ completedOut.urstif = false ∧
    ({ completedOut with urstif := true }).urstif = true ∧ ({ completedOut with stallif := true }).stallif = true :=
  ⟨completedOut_placed, by decide, by decide, by decide⟩

/-- A retired SETUP in the table and both control blocks in place. -/
def completedSetup : State :=
  { storeWord (withEcb 0 .rx { ecb with armedCtr := 1, nextOdd := true } (withEcb 0 .tx { ecb with armedCtr := 1 } cfg)) 0x8200 0x00080034#32 with
    fifo := [{ ep := 0, dir := .rx, odd := false }]
    pktdis := true }

theorem completedSetup_placed : driverPlaced completedSetup.drv := by
  refine ⟨by decide, ?_⟩
  intro ep dir e
  revert e
  cases dir <;> revert ep <;> decide

theorem witness_PollHandlesSetup :
    driverPlaced completedSetup.drv ∧
    completedSetup.fifo = [{ ep := 0, dir := .rx, odd := false }] ∧ completedSetup.urstif = false ∧
    (readHalf completedSetup (bdAddr completedSetup.drv.table 0 .rx false)).toNat / 4 % 16 = 13 ∧
    (ecbOf completedSetup.drv 0 .rx).isSome = true ∧ (ecbOf completedSetup.drv 0 .tx).isSome = true :=
  ⟨completedSetup_placed, by decide, by decide, by decide, by decide, by decide⟩

/-- A bulk IN endpoint whose descriptor was retired before, and three bytes to send. -/
theorem witness_WrittenBytesAreSent :
    tokenPasses (withEcb 1 .tx ecb (storeWord cfg 0x8230 0x00010064#32)) .inn 5#7 1 ∧
    (withEcb 1 .tx ecb (storeWord cfg 0x8230 0x00010064#32)).fine = false ∧
    ecbOf (withEcb 1 .tx ecb (storeWord cfg 0x8230 0x00010064#32)).drv 1 .tx = some (placed 1 .tx ecb) ∧
    ecb.nextOdd = ppbi (withEcb 1 .tx ecb (storeWord cfg 0x8230 0x00010064#32)) 1 .tx ∧
    (placed 1 .tx ecb).pair.toNat = bdAddr (bdtBase cfg) 1 .tx false ∧
    3 ≤ ecb.epSize ∧ 3 ≤ 1023 ∧ ecb.armedCtr + ecb.completeCtr < 2 ∧ ecb.stalled = false ∧
    0x2000#32 = (if ecb.nextOdd then ecb.buf1 else ecb.buf0) ∧ bufferFits cfg.cfg 0x2000#32 3 ∧
    (0x2000#32).toNat + 3 ≤ 2 ^ 32 ∧ (0x2000#32).toNat + 3 ≤ bdAddr (bdtBase cfg) 1 .tx ecb.nextOdd ∧
    ownedByEngine (withEcb 1 .tx ecb (storeWord cfg 0x8230 0x00010064#32)) 1 .tx ecb.nextOdd = false := by decide

end Sys2Proof.Machine.Tests
end

section
/-! SUPPORT. Whose turn it is and what the turn runs, one equation per case, and the two statements of the step (00_scope.md). -/

namespace Sys2Proof.Machine

/-! ## Whose turn it is -/

theorem softwareBusy_eq_false_iff (s : State) : softwareBusy s = false ↔ s.call = none ∧ s.pending = [] := by
  simp only [softwareBusy, Bool.or_eq_false_iff, Bool.not_eq_false', List.isEmpty_iff, Option.isSome_eq_false_iff,
    Option.isNone_iff_eq_none, and_comm]

theorem agentOf_op_bus {f : Frame} (hf : f.fmt = .tok ∨ f.fmt = .cond) : agentOf (.op f) = .bus := if_pos hf

theorem agentOf_op_software {f : Frame} (hf : ¬(f.fmt = .tok ∨ f.fmt = .cond)) : agentOf (.op f) = .software := if_neg hf

theorem whoseTurn_bus_free {s : State} {i : Input} {rest : List Input} (hin : s.inputs = i :: rest)
    (ha : agentOf i = .bus) (hx : s.txn = none) : whoseTurn s = .input i rest := by
  simp only [whoseTurn, hin, ha, hx]

theorem whoseTurn_bus_waits {s : State} {i : Input} {rest : List Input} {x : Txn} (hin : s.inputs = i :: rest)
    (ha : agentOf i = .bus) (hx : s.txn = some x) : whoseTurn s = .engine x := by
  simp only [whoseTurn, hin, ha, hx]

theorem whoseTurn_software_free {s : State} {i : Input} {rest : List Input} (hin : s.inputs = i :: rest)
    (ha : agentOf i = .software) (hb : softwareBusy s = false) : whoseTurn s = .input i rest := by
  simp only [whoseTurn, hin, ha, hb, Bool.false_eq_true, false_and, if_false]

theorem whoseTurn_engine_turn {s : State} {rest : List Input} (hin : s.inputs = .engine :: rest) :
    whoseTurn s = .input .engine rest := by
  simp only [whoseTurn, hin, agentOf]

theorem whoseTurn_no_input_txn {s : State} {x : Txn} (hin : s.inputs = []) (hx : s.txn = some x) :
    whoseTurn s = .engine x := by
  simp only [whoseTurn, hin, hx]

theorem whoseTurn_idle {s : State} (hin : s.inputs = []) (hx : s.txn = none) (hb : softwareBusy s = false) :
    whoseTurn s = .idle := by
  simp only [whoseTurn, hin, hx, hb, Bool.false_eq_true, if_false]

/-! ## What the turn runs -/

theorem step_of_idle {s : State} (h : whoseTurn s = .idle) : step s = .next s := by
  simp only [step, nextStep, h]

theorem step_of_engine {s : State} {x : Txn} (h : whoseTurn s = .engine x) : step s = engineTurn x s := by
  simp only [step, nextStep, h]

theorem step_of_input {s : State} {i : Input} {rest : List Input} (h : whoseTurn s = .input i rest) :
    step s = runInput i { s with inputs := rest } := by
  simp only [step, nextStep, h]

theorem runInput_engine_of_txn {s : State} {x : Txn} (hx : s.txn = some x) : runInput .engine s = engineTurn x s := by
  simp only [runInput, hx]

theorem runInput_engine_of_no_txn {s : State} (hx : s.txn = none) : runInput .engine s = .next s := by
  simp only [runInput, hx]

theorem runInput_op_ok {s : State} {f : Frame} {i : Instr} (h : portInstr s.cfg.regs f = .ok i) :
    runInput (.op f) s = exec i s := by
  simp only [runInput, h]

theorem runInput_op_error {s : State} {f : Frame} {e : DecodeError} (h : portInstr s.cfg.regs f = .error e) :
    runInput (.op f) s = .refused (.decode e) := by
  simp only [runInput, h]

theorem portInstr_eq_decode (rm : RegMap) {f : Frame} (hbd : f.fmt ≠ .bd) (heng : f.fmt ≠ .eng) :
    portInstr rm f = decode rm f := by
  unfold portInstr
  split
  · exact absurd ‹_› hbd
  · exact absurd ‹_› heng
  all_goals rfl

/-- An operation at the head of the inputs is taken when its port is free (R190, R250). -/
theorem whoseTurn_port_free {s : State} {f : Frame} {rest : List Input} (hin : s.inputs = .op f :: rest)
    (hbus : (f.fmt = .tok ∨ f.fmt = .cond) → s.txn = none)
    (hsoft : ¬(f.fmt = .tok ∨ f.fmt = .cond) → s.call = none ∧ s.pending = []) : whoseTurn s = .input (.op f) rest := by
  by_cases hf : f.fmt = .tok ∨ f.fmt = .cond
  · exact whoseTurn_bus_free hin (agentOf_op_bus hf) (hbus hf)
  · exact whoseTurn_software_free hin (agentOf_op_software hf) ((softwareBusy_eq_false_iff s).2 (hsoft hf))

/-- Settles O5: the free port gives the input its turn, and at a port the operation is the decoded one. -/
theorem stepRunsPortOperation : Obligations.StepRunsPortOperation := by
  intro s f rest hin hbd heng hbus hsoft
  have hstep : step s = runInput (.op f) { s with inputs := rest } := step_of_input (whoseTurn_port_free hin hbus hsoft)
  have hport : portInstr s.cfg.regs f = decode s.cfg.regs f := portInstr_eq_decode _ hbd heng
  exact ⟨fun i hi => hstep.trans (runInput_op_ok (hport.trans hi)), fun e he => hstep.trans (runInput_op_error (hport.trans he))⟩

/-! ## The engine's turn -/

theorem engineTurn_of_instr {x : Txn} {s : State} {i : Instr} (h : engineInstr x = .ok i) : engineTurn x s = exec i s := by
  simp only [engineTurn, h]

theorem engineInstr_fetch {x : Txn} (hp : x.phase = .fetch) : engineInstr x = .ok .fetch := by
  simp only [engineInstr, hp]

theorem engineInstr_command {x : Txn} {odd : Bool} {w0 : Word} (hp : x.phase = .command odd w0) :
    engineInstr x = decodeBd w0 := by
  simp only [engineInstr, hp]

theorem engineInstr_data {x : Txn} {odd : Bool} {w0 a : Word} {j : Nat} {got : List Byte}
    (hp : x.phase = .data odd w0 a j got) : engineInstr x = decodeBd w0 := by
  simp only [engineInstr, hp]

theorem engineInstr_done {x : Txn} {odd : Bool} {n : Half} {tg : Bool} (hp : x.phase = .done odd n tg) :
    engineInstr x = .ok (.retire x.ep (dirOf x.kind) odd n tg x.kind) := by
  simp only [engineInstr, hp]

/-- The three ways the engine of a transaction in progress gets its turn: nothing is given, a bus event waits (R190), or the
inputs name it. -/
theorem step_eq_engineTurn {s s' : State} {x : Txn} (hx : s.txn = some x)
    (hmove : (s' = s ∧ (s.inputs = [] ∨ ∃ f rest, s.inputs = .op f :: rest ∧ (f.fmt = .tok ∨ f.fmt = .cond))) ∨
      ∃ rest, s.inputs = .engine :: rest ∧ s' = { s with inputs := rest }) : step s = engineTurn x s' := by
  rcases hmove with ⟨rfl, hin | ⟨f, rest, hin, hf⟩⟩ | ⟨rest, hin, rfl⟩
  · exact step_of_engine (whoseTurn_no_input_txn hin hx)
  · exact step_of_engine (whoseTurn_bus_waits hin (agentOf_op_bus hf) hx)
  · exact (step_of_input (whoseTurn_engine_turn hin)).trans (runInput_engine_of_txn hx)

/-- Settles O6: however the engine gets its turn, the turn runs the instruction of the phase. -/
theorem stepRunsEngine : Obligations.StepRunsEngine := by
  refine ⟨fun s s' x hx hmove => ?_, fun s rest hx hin => ?_, fun s hx hcall hpend hin => ?_⟩
  · have hstep : ∀ i, engineInstr x = .ok i → step s = exec i s' := fun i hi =>
      (step_eq_engineTurn hx hmove).trans (engineTurn_of_instr hi)
    exact ⟨fun hp => hstep _ (engineInstr_fetch hp),
      fun _ _ i hp hi => hstep i ((engineInstr_command hp).trans hi),
      fun _ _ _ _ _ i hp hi => hstep i ((engineInstr_data hp).trans hi),
      fun _ _ _ hp => hstep _ (engineInstr_done hp)⟩
  · exact (step_of_input (whoseTurn_engine_turn hin)).trans (runInput_engine_of_no_txn hx)
  · exact step_of_idle (whoseTurn_idle hin hx ((softwareBusy_eq_false_iff s).2 ⟨hcall, hpend⟩))

end Sys2Proof.Machine
end

section
/-! SUPPORT. The state's laws (10_state.md): the state after reset, what an inactive engine leaves, that every step keeps the
invariant, and what moves a ping-pong pointer. -/

namespace Sys2Proof.Machine

/-! ## The state after reset -/

/-- A register whose byte is 0 reads 0. -/
theorem readReg_zero {b : Byte} (hb : b = 0#8) (s : State) : readReg b s = .next { s with rdata := 0#32 } := by
  rw [hb]; rfl

/-- Every register without drawn bits reads 0 after reset (R52). -/
theorem exec_readInstr_reset {r : Reg} (hcon : r ≠ .con) (hir : r ≠ .ir) (hstat : r ≠ .stat) :
    exec (readInstr r) State.reset = .next { State.reset with rdata := 0#32 } := by
  cases r
  case con => exact absurd rfl hcon
  case ir => exact absurd rfl hir
  case stat => exact absurd rfl hstat
  case ep n =>
    have hz : State.reset.ep[n] = EpCtl.zero := Vector.getElem_replicate n.isLt
    exact readReg_zero (by rw [hz]; rfl) _
  all_goals exact readReg_zero rfl _

theorem ppbi_reset (ep : Fin 16) (dir : Dir) : ppbi State.reset ep dir = false := by
  cases dir
  · exact Vector.getElem_replicate ep.isLt
  · exact Vector.getElem_replicate ep.isLt

/-- Settles O41: the registers by their reads, the other fields by the definition of the state after reset. -/
theorem resetState : Obligations.ResetState :=
  ⟨fun _ hcon hir hstat => exec_readInstr_reset hcon hir hstat, rfl, rfl, rfl, rfl, rfl, rfl, rfl, rfl, rfl, ppbi_reset,
    fun _ => rfl⟩

/-- Settles O42: after reset memory and queue are empty and no transaction is in progress. -/
theorem resetMeetsInvariant : Obligations.ResetMeetsInvariant :=
  ⟨memWf_reset, rfl, Nat.zero_le _, txnOk_of_none rfl⟩

/-! ## The inactive engine -/

/-- A token the checks answer leaves that answer and nothing else (42_bus_transactions.md R193). -/
theorem exec_tokenInstr_of_answer {s : State} {k : Kind} {addr : BitVec 7} {ep : Fin 16} {r : Response}
    (h : tokenChecks s k addr ep = .answer r) (tg : Bool) (p : List Byte) (ack : Bool) :
    exec (tokenInstr k addr ep tg p ack) s = .next (respond s r) := by
  have htok : ∀ tg p ack, tokenOp k addr ep tg p ack s = .next (respond s r) := fun tg p ack => by simp only [tokenOp, h]
  cases k
  · exact htok tg p false
  · exact htok false [] ack
  · exact htok tg p false

theorem active_eq_false {s : State} (h : ¬(s.usbpwr = true ∧ s.usben = true)) : active s = false := by
  rwa [active, Bool.eq_false_iff, ne_eq, Bool.and_eq_true]

/-- The first check of a token (42_bus_transactions.md R193 step 1). -/
theorem tokenChecks_inactive {s : State} (h : active s = false) (k : Kind) (addr : BitVec 7) (ep : Fin 16) :
    tokenChecks s k addr ep = .answer .none := if_pos h

/-- Settles O38: a token fails its first check, and the other bus events look at `active` before they change anything. -/
theorem inactiveIgnoresTheBus : Obligations.InactiveIgnoresTheBus := by
  intro s hs
  have ha : active s = false := active_eq_false hs
  refine ⟨fun k addr ep tg p ack => ?_, rfl, ?_, fun m => ?_⟩
  · exact exec_tokenInstr_of_answer (tokenChecks_inactive ha k addr ep) tg p ack
  · simp only [exec, execBusReset, ha, Bool.false_eq_true, if_false, respond]
  · simp only [exec, execBusErr, ha, Bool.false_eq_true, if_false, respond]

/-! ## A step, with the input it uses up -/

/-- `step_cases` with the state before the operation written out: only `inputs` may differ from the state before the step. -/
theorem step_cases_withInputs {s t : State} (h : step s = .next t) :
    ∃ rest, Keeps { s with inputs := rest } t ∨ Quiet { s with inputs := rest } t ∨
      (∃ k addr ep tg p ack, tokenOp k addr ep tg p ack { s with inputs := rest } = .next t) ∨
      ∃ x, s.txn = some x ∧ engineTurn x { s with inputs := rest } = .next t := by
  obtain ⟨s1, hs1, hcases⟩ := step_cases h
  obtain ⟨rest, rfl⟩ : ∃ rest, s1 = { s with inputs := rest } := by
    rcases hs1 with rfl | ⟨_, rest, -, rfl⟩
    · exact ⟨s1.inputs, rfl⟩
    · exact ⟨rest, rfl⟩
  exact ⟨rest, hcases.imp_right (.imp And.right (.imp_left And.right))⟩

/-! ## Every step keeps the invariant -/

theorem inv_withInputs {s : State} (h : Inv s) (rest : List Input) : Inv { s with inputs := rest } :=
  ⟨h.mem, h.otgcon, h.fifo, h.txn⟩

theorem Quiet.inv {s t : State} (hq : Quiet s t) (h : Inv s) : Inv t := by
  rw [hq]
  exact ⟨h.mem, h.otgcon, h.fifo, h.txn⟩

/-- The word a transaction has fetched and not yet executed to its end. -/
def latchWord : Phase → Option Word
  | .fetch => none
  | .command _ w0 => some w0
  | .data _ w0 _ _ _ => some w0
  | .done _ _ _ => none

/-- A word 0 that FETCH takes for a data or a stall command (41_descriptor_ops.md R168). -/
structure CommandWord (w0 : Word) : Prop where
  fetched : (fetchCommand w0).isOk = true
  owned : bitAt 16 (flagsOf w0) 7 = true
  count : (countOf w0).toNat ≤ maxCount

theorem CommandWord.of_data {w0 : Word} {tg d : Bool} (h : fetchCommand w0 = .ok (.data tg d (countOf w0))) :
    CommandWord w0 := by
  obtain ⟨-, -, hcount, howned⟩ := fetchCommand_data h
  exact ⟨by rw [h]; rfl, howned, hcount⟩

theorem CommandWord.of_stall {w0 : Word} {tg d : Bool} (h : fetchCommand w0 = .ok (.stall tg d (countOf w0))) :
    CommandWord w0 := by
  obtain ⟨-, -, hcount, howned⟩ := fetchCommand_stall h
  exact ⟨by rw [h]; rfl, howned, hcount⟩

/-- The phase of a transaction under the invariant. -/
theorem Inv.phaseOk {s : State} (h : Inv s) {x : Txn} (hx : s.txn = some x) : Machine.phaseOk s x := (h.txn x hx).2.2

/-- What the invariant says of every transaction in progress, whatever its phase (42_bus_transactions.md R197). -/
theorem Inv.txn_room {s : State} (h : Inv s) {x : Txn} (hx : s.txn = some x) :
    s.fifo.length < s.cfg.fifoDepth ∧ x.base.toNat % 512 = 0 :=
  ⟨(h.txn x hx).1, (h.txn x hx).2.1⟩

/-- FETCH latches the word at the pointer's descriptor. -/
theorem inv_execFetch {s t : State} (h : Inv s) (ht : execFetch s = .next t) : Inv t := by
  rcases execFetch_next ht with rfl | ⟨y, hy, -, hf⟩
  · exact h
  · obtain ⟨hok, rfl⟩ := fetchStep_next hf
    obtain ⟨hroom, hbase⟩ := h.txn_room hy
    exact inv_setPhase h hbase hroom ⟨rfl, hok⟩

section Turn

variable {s t : State} {x : Txn} (h : Inv s) (hx : s.txn = some x)

include h hx

/-- An idle word or a result, fetched as a command, at most ends the transaction with a response (R162). -/
theorem inv_exec_idleInstr {w0 : Word} (hw : latchWord x.phase = some w0) {f n : Half}
    (ht : exec (idleInstr f n) s = .next t) : Inv t := by
  have result : ∀ {tg : Bool} {k : Kind}, resultCommand tg k n s = .next t → Inv t := by
    intro tg k hr
    rcases resultCommand_next hr with rfl | ⟨r, rfl⟩ | ⟨y, odd, m, u, hy, hp, -⟩
    · exact h
    · exact inv_finish h r
    · obtain rfl : x = y := Option.some.inj (hx.symm.trans hy)
      rw [hp] at hw
      cases hw
  unfold idleInstr at ht
  split at ht
  · exact result ht
  · exact result ht
  · exact result ht
  · rcases idleCommand_next ht with rfl | ⟨r, rfl⟩
    · exact h
    · exact inv_finish h r

/-- A data command checks its buffer once and then moves no more bytes than it holds (R203, R206). -/
theorem inv_dataCommand {w0 : Word} (hw : latchWord x.phase = some w0) (hc : CommandWord w0) {tg d : Bool}
    (ht : dataCommand tg d (countOf w0) s = .next t) : Inv t := by
  obtain ⟨hroom, hbase⟩ := h.txn_room hx
  have hphase := h.phaseOk hx
  unfold phaseOk at hphase
  rcases dataCommand_next ht with rfl | ⟨y, hy, hcases⟩
  · exact h
  obtain rfl : x = y := Option.some.inj (hx.symm.trans hy)
  rcases hcases with ⟨odd, w, hp, -, hb⟩ | ⟨odd, w, hp, -, hr⟩ | ⟨odd, w, a, i, got, hp, rfl⟩ <;>
    rw [hp] at hw hphase <;> obtain rfl : w = w0 := Option.some.inj hw
  · obtain ⟨hodd, -⟩ := hphase
    rcases beginData_next hb with ⟨r, rfl⟩ | ⟨a, hrange, hfits, rfl⟩
    · exact inv_finish h r
    · exact inv_afterMove h ⟨hbase, hroom, hodd, hc.fetched, hc.owned, hc.count, hfits, hrange⟩
  · rcases runData_next hr with ⟨r, rfl⟩ | hr
    · exact inv_finish h r
    · exact inv_retires h hbase hroom hr
  · obtain ⟨hodd, -, -, -, hfits, hrange⟩ := hphase
    exact inv_moveByte h ⟨hbase, hroom, hodd, hc.fetched, hc.owned, hc.count, hfits, hrange⟩

/-- The engine executes the word it has fetched. -/
theorem inv_exec_latchWord {w0 : Word} (hw : latchWord x.phase = some w0) {i : Instr} (hi : decodeBd w0 = .ok i)
    (ht : exec i s = .next t) : Inv t := by
  rcases decodeBd_cases hi with ⟨-, rfl⟩ | ⟨tg, d, rfl, hc⟩ | ⟨tg, d, rfl, hc⟩
  · exact inv_exec_idleInstr h hx hw ht
  · exact inv_dataCommand h hx hw (.of_data hc) ht
  · rcases stallCommand_next ht with rfl | ⟨y, -, ⟨-, hd⟩ | ⟨-, _, _, -, rfl⟩⟩
    · exact h
    · exact inv_dataCommand h hx hw (.of_stall hc) hd
    · exact inv_stallArmed h y

/-- A turn of the engine keeps the invariant, phase by phase. -/
theorem inv_engineTurn (ht : engineTurn x s = .next t) : Inv t := by
  have word : ∀ {w0 : Word}, latchWord x.phase = some w0 → engineInstr x = decodeBd w0 → Inv t := by
    intro w0 hw hi
    cases hd : decodeBd w0 with
    | error e => simp only [engineTurn, hi, hd, reduceCtorEq] at ht
    | ok i =>
      rw [engineTurn_of_instr (hi.trans hd)] at ht
      exact inv_exec_latchWord h hx hw hd ht
  cases hp : x.phase with
  | fetch =>
    rw [engineTurn_of_instr (engineInstr_fetch hp)] at ht
    exact inv_execFetch h ht
  | command odd w0 => exact word (by rw [hp]; rfl) (engineInstr_command hp)
  | data odd w0 a j got => exact word (by rw [hp]; rfl) (engineInstr_data hp)
  | done odd n tg =>
    obtain ⟨hroom, hbase⟩ := h.txn_room hx
    rw [engineTurn_of_instr (engineInstr_done hp)] at ht
    simp only [exec, execRetire, retireStep, hx, Host.Outcome.next.injEq] at ht
    rw [← ht]
    exact inv_finish_retireOp h hbase hroom _ _ _ _ _ _ _

end Turn

/-- Settles O43: software keeps what the invariant speaks of, a quiet bus event does not touch it, a token begins nothing
while the queue is full, and each turn of the engine hands its checks on to the next phase. -/
theorem stepKeepsInvariant : Obligations.StepKeepsInvariant := by
  intro s u h hu
  obtain ⟨rest, hcases⟩ := step_cases_withInputs hu
  have h1 := inv_withInputs h rest
  rcases hcases with hk | hq | ⟨k, addr, ep, tg, p, ack, ht⟩ | ⟨x, hx, ht⟩
  · exact hk.inv h1
  · exact hq.inv h1
  · exact inv_tokenOp h1 ht
  · exact inv_engineTurn h1 hx ht

/-! ## What moves a pointer -/

/-- Nothing is queued and no pointer moves. -/
structure QueuesNothing (s t : State) : Prop where
  pointers : ∀ ep dir, ppbi t ep dir = ppbi s ep dir
  queue : t.fifo.length ≤ s.fifo.length

/-- The entry `q` is queued, and of the pointers only that of its endpoint direction is set, to the other descriptor
(43_completion.md R231, R233). -/
structure QueuesEntry (s t : State) (q : Entry) : Prop where
  queue : t.fifo = s.fifo ++ [q]
  pointer : ppbi t q.ep q.dir = !q.odd
  otherPointers : ∀ ep dir, ¬(ep = q.ep ∧ dir = q.dir) → ppbi t ep dir = ppbi s ep dir

theorem QueuesNothing.of_eq {s t : State} (hrx : t.ppbiRx = s.ppbiRx) (htx : t.ppbiTx = s.ppbiTx) (hf : t.fifo = s.fifo) :
    QueuesNothing s t :=
  ⟨ppbi_congr s t hrx htx, (congrArg List.length hf).le⟩

theorem Keeps.queuesNothing {s t : State} (h : Keeps s t) : QueuesNothing s t := ⟨h.ppbi, h.fifo_length⟩

theorem Quiet.queuesNothing {s t : State} (h : Quiet s t) : QueuesNothing s t := by
  rw [h]
  exact .of_eq rfl rfl rfl

/-- A retired descriptor is the entry queued. -/
theorem Retires.queuesEntry {s t : State} {x : Txn} {odd : Bool} (h : Retires s x odd t) :
    QueuesEntry s t { ep := x.ep, dir := dirOf x.kind, odd := odd } := by
  obtain ⟨a, bs, n, tg, r, -, -, rfl⟩ := h
  refine ⟨?_, ppbi_retireOp_self .., fun ep dir hne => ppbi_retireOp_ne _ _ _ _ _ _ _ _ ep dir hne⟩
  rw [finish_fifo, retireOp_frame, storeBytes_fifo]

/-! No access of a data phase queues an entry or moves a pointer. -/

theorem allMoved_queuesNothing (s : State) (x : Txn) (odd tg : Bool) (n : Half) (got : List Byte) :
    QueuesNothing s (allMoved s x odd tg n got) := by
  unfold allMoved
  split
  · split
    · exact .of_eq rfl rfl rfl
    · exact .of_eq rfl rfl rfl
  · exact .of_eq rfl rfl rfl
  · exact .of_eq rfl rfl rfl

theorem afterMove_queuesNothing (s : State) (x : Txn) (odd : Bool) (w0 a : Word) (tg : Bool) (n : Half) (i : Nat)
    (got : List Byte) : QueuesNothing s (afterMove s x odd w0 a tg n i got) := by
  unfold afterMove
  split
  · exact allMoved_queuesNothing ..
  · exact .of_eq rfl rfl rfl

theorem QueuesNothing.of_storeBytes {s t : State} {a : Nat} {bs : List Byte} (h : QueuesNothing (storeBytes s a bs) t) :
    QueuesNothing s t := ⟨h.pointers, h.queue⟩

theorem moveByte_queuesNothing (s : State) (x : Txn) (odd : Bool) (w0 a : Word) (tg : Bool) (n : Half) (i : Nat)
    (got : List Byte) : QueuesNothing s (moveByte s x odd w0 a tg n i got) := by
  unfold moveByte
  split
  · exact allMoved_queuesNothing ..
  · split
    · exact afterMove_queuesNothing ..
    · exact (afterMove_queuesNothing ..).of_storeBytes
    · exact (afterMove_queuesNothing ..).of_storeBytes

/-- A token retires the descriptor its pointer selects, or nothing. -/
theorem tokenOp_queues {k : Kind} {addr : BitVec 7} {ep : Fin 16} {tg : Bool} {p : List Byte} {ack : Bool} {s t : State}
    (h : tokenOp k addr ep tg p ack s = .next t) :
    QueuesNothing s t ∨ QueuesEntry s t { ep := ep, dir := dirOf k, odd := ppbi s ep (dirOf k) } := by
  rcases tokenOp_next h with ⟨r, -, rfl⟩ | ⟨-, rfl⟩ | ⟨-, -, rfl⟩ | ⟨-, -, ht⟩
  · exact .inl (.of_eq rfl rfl rfl)
  · exact .inl (.of_eq rfl rfl rfl)
  · exact .inl (.of_eq rfl rfl rfl)
  · rcases transact_next ht with ⟨r, rfl⟩ | ⟨-, rfl⟩ | hr
    · exact .inl (.of_eq rfl rfl rfl)
    · exact .inl (.of_eq rfl rfl rfl)
    · exact .inr hr.queuesEntry

/-- A turn of the engine retires the descriptor its transaction has fetched, or nothing. -/
theorem engineTurn_queues {s t : State} {x : Txn} (hx : s.txn = some x) (h : engineTurn x s = .next t) :
    QueuesNothing s t ∨
      ∃ odd, latchOdd x.phase = some odd ∧ QueuesEntry s t { ep := x.ep, dir := dirOf x.kind, odd := odd } := by
  rcases engineTurn_cases hx h with rfl | ⟨r, rfl⟩ | ⟨-, rfl⟩ | ⟨odd, ho, hr⟩ | ⟨p, rfl⟩ | ⟨_, _, _, _, _, rfl⟩ |
    ⟨_, _, _, _, _, _, _, rfl⟩
  · exact .inl (.of_eq rfl rfl rfl)
  · exact .inl (.of_eq rfl rfl rfl)
  · exact .inl (.of_eq rfl rfl rfl)
  · exact .inr ⟨odd, ho, hr.queuesEntry⟩
  · exact .inl (.of_eq rfl rfl rfl)
  · exact .inl (afterMove_queuesNothing ..)
  · exact .inl (moveByte_queuesNothing ..)

/-- Under the invariant the fetched descriptor is still the one the pointer selects. -/
theorem phaseOk_latchOdd {s : State} {x : Txn} (h : phaseOk s x) {odd : Bool} (ho : latchOdd x.phase = some odd) :
    odd = ppbi s x.ep (dirOf x.kind) := by
  unfold phaseOk at h
  cases hp : x.phase <;> rw [hp] at h ho <;> cases ho <;> exact h.1

/-- What a step does to queue and pointers together: nothing is queued and no pointer moves, or one descriptor is retired,
under the invariant the one its pointer selects (R27, R235). -/
theorem step_queues {s u : State} (h : step s = .next u) :
    QueuesNothing s u ∨ ∃ q, QueuesEntry s u q ∧ (Inv s → q.odd = ppbi s q.ep q.dir) := by
  obtain ⟨rest, hcases⟩ := step_cases_withInputs h
  have nothing : QueuesNothing { s with inputs := rest } u → QueuesNothing s u := fun hn => ⟨hn.pointers, hn.queue⟩
  have entry : ∀ {q}, QueuesEntry { s with inputs := rest } u q → QueuesEntry s u q := fun hq =>
    ⟨hq.queue, hq.pointer, hq.otherPointers⟩
  rcases hcases with hk | hq | ⟨k, addr, ep, tg, p, ack, ht⟩ | ⟨x, hx, ht⟩
  · exact .inl (nothing hk.queuesNothing)
  · exact .inl (nothing hq.queuesNothing)
  · exact (tokenOp_queues ht).imp nothing fun hq => ⟨_, entry hq, fun _ => rfl⟩
  · refine (engineTurn_queues (s := { s with inputs := rest }) hx ht).imp nothing fun ⟨odd, ho, hq⟩ => ⟨_, entry hq, fun hi => ?_⟩
    exact phaseOk_latchOdd (hi.phaseOk hx) ho

/-- A pointer that an entry changed was at the entry's own descriptor before. -/
theorem QueuesEntry.eq_of_ppbi_ne {s t : State} {q : Entry} (h : QueuesEntry s t q) {ep : Fin 16} {dir : Dir}
    (hne : ppbi t ep dir ≠ ppbi s ep dir) : q = { ep := ep, dir := dir, odd := ppbi s ep dir } := by
  by_cases hq : ep = q.ep ∧ dir = q.dir
  · obtain ⟨rfl, rfl⟩ := hq
    rw [h.pointer] at hne
    have hodd : q.odd = ppbi s q.ep q.dir := Bool.not_not_eq.1 hne
    rw [← hodd]
  · exact absurd (h.otherPointers ep dir hq) hne

/-- Settles O44: a step queues nothing and moves no pointer, or it retires one descriptor and moves that one's pointer. -/
theorem pointerMovesOnlyAtRetirement : Obligations.PointerMovesOnlyAtRetirement := by
  intro s u hu
  rcases step_queues hu with hn | ⟨q, hq, hodd⟩
  · refine ⟨fun ep dir hne => absurd (hn.pointers ep dir) hne, fun _ e he => ?_⟩
    have hlen := hn.queue
    rw [he, List.length_append, List.length_singleton] at hlen
    omega
  · refine ⟨fun ep dir hne => by rw [hq.queue, hq.eq_of_ppbi_ne hne], fun hi e he => ?_⟩
    obtain rfl : q = e := by simpa using hq.queue.symm.trans he
    exact ⟨hodd hi, (hodd hi) ▸ hq.pointer, hq.otherPointers⟩

end Sys2Proof.Machine
end

section
/-! SUPPORT. Memory as software and the table see it (20_memory.md): an access of software byte by byte, and the places of the
descriptors. -/

namespace Sys2Proof.Machine

/-! ## An access of software, byte by byte -/

/-- The bytes a write stores are those of the value, the lowest first (R65). -/
theorem getElem_storeValue (v : Word) (w : Width) {j : Nat} (h : j < (storeValue v w).length) :
    (storeValue v w)[j] = byteAt 32 v j := by
  rw [length_storeValue] at h
  cases w with
  | w8 => obtain rfl : j = 0 := Nat.lt_one_iff.1 h; rfl
  | w16 =>
    match j, h with
    | 0, _ => rfl
    | 1, _ => rfl
  | w32 => exact getElem_wordBytes v j h

/-- Storing what was loaded stores the bytes that lie there. -/
theorem storeValue_loadValue (s : State) (a : Nat) (w : Width) :
    storeValue (loadValue s a w) w = readBytesAt s a (widthBytes w) := by
  cases w with
  | w8 => exact storeValue_w8 _
  | w16 => exact (storeValue_w16 _).trans (bytes_of_half _ _)
  | w32 => exact bytes_of_word _ _ _ _

theorem getElem_readBytesAt (s : State) (a n : Nat) {j : Nat} (h : j < (readBytesAt s a n).length) :
    (readBytesAt s a n)[j] = readByte s (a + j) := by
  simp only [readBytesAt_bytesOf, bytesOf, List.getElem_map, List.getElem_range]

theorem byteAt_loadValue (s : State) (a : Nat) (w : Width) {j : Nat} (h : j < widthBytes w) :
    byteAt 32 (loadValue s a w) j = readByte s (a + j) := by
  rw [← getElem_storeValue _ w (by rwa [length_storeValue]), ← getElem_readBytesAt s a (widthBytes w) (by rwa [length_readBytesAt])]
  simp only [storeValue_loadValue]

/-- A read zero-extends what it has read. -/
theorem loadValue_lt (s : State) (a : Nat) (w : Width) : (loadValue s a w).toNat < 2 ^ (8 * widthBytes w) := by
  cases w with
  | w8 => rw [loadValue, BitVec.toNat_setWidth]; exact (Nat.mod_le _ _).trans_lt (readByte s a).isLt
  | w16 => rw [loadValue, BitVec.toNat_setWidth]; exact (Nat.mod_le _ _).trans_lt (readHalf s a).isLt
  | w32 => exact (readWord s a).isLt

theorem memAccess_outside {x : MemAccess} (h : 2 ^ 32 < x.addr.toNat + widthBytes x.width) (s : State) :
    memAccess x s = .refused .outsideMemory := by
  unfold memAccess
  split
  · exact if_pos h
  · exact if_pos h

theorem memAccess_read {x : MemAccess} (h : x.addr.toNat + widthBytes x.width ≤ 2 ^ 32) (hw : x.write = false) (s : State) :
    memAccess x s = .next (setRdata s (loadValue s x.addr.toNat x.width)) :=
  (memAccess_next_iff ..).2 ⟨h, by rw [hw]; rfl⟩

theorem memAccess_write {x : MemAccess} (h : x.addr.toNat + widthBytes x.width ≤ 2 ^ 32) (hw : x.write = true) (s : State) :
    memAccess x s = .next (storeBytes s x.addr.toNat (storeValue x.value x.width)) :=
  (memAccess_next_iff ..).2 ⟨h, by rw [hw]; rfl⟩

/-- An access given to idle software is what the step makes (30_encoding.md R107). -/
theorem step_mem {s : State} {x : MemAccess} {rest : List Input} (hin : s.inputs = .mem x :: rest) (hc : s.call = none)
    (hp : s.pending = []) : step s = memAccess x { s with inputs := rest } :=
  step_of_input (whoseTurn_software_free hin rfl ((softwareBusy_eq_false_iff s).2 ⟨hc, hp⟩))

/-- Settles O8: the step makes the access, and the access reads or stores the value's bytes one by one. -/
theorem softwareMemoryAccess : Obligations.SoftwareMemoryAccess := by
  intro s x rest hin hc hp
  rw [step_mem hin hc hp]
  refine ⟨fun h => memAccess_outside h _, fun h hw => ?_, fun h hw => ?_⟩
  · exact ⟨_, memAccess_read h hw _, rfl, loadValue_lt .., fun j hj => byteAt_loadValue _ _ _ hj⟩
  · refine ⟨_, memAccess_write h hw _, rfl, fun j hj => ?_, fun b hb => ?_⟩
    · rw [← length_storeValue x.value] at hj
      rw [readByte_storeBytes_inside _ _ _ hj, getElem_storeValue]
    · exact readByte_storeBytes_outside _ _ _ (by rwa [length_storeValue])

/-! ## The places of the descriptors -/

theorem natOfBool_lt (b : Bool) : natOfBool b < 2 := by
  cases b <;> decide

theorem natOfBool_injective : Function.Injective natOfBool := by
  decide

theorem dirBit_injective : Function.Injective dirBit
  | .rx, .rx, _ => rfl
  | .tx, .tx, _ => rfl

/-- The index of a descriptor names it (20_memory.md R62): its fields are the digits of the index. -/
theorem bdIndex_injective {ep ep' : Fin 16} {dir dir' : Dir} {odd odd' : Bool}
    (h : bdIndex ep dir odd = bdIndex ep' dir' odd') : ep = ep' ∧ dir = dir' ∧ odd = odd' := by
  have hdir := natOfBool_lt (dirBit dir)
  have hdir' := natOfBool_lt (dirBit dir')
  have hodd := natOfBool_lt odd
  have hodd' := natOfBool_lt odd'
  simp only [bdIndex] at h
  exact ⟨Fin.ext (by omega), dirBit_injective (natOfBool_injective (by omega)), natOfBool_injective (by omega)⟩

/-- Settles O20: descriptors are 8 bytes apart, at the index that names them, and there are 64 of them. -/
theorem descriptorsAreApart : Obligations.DescriptorsAreApart := by
  intro s ep ep' dir dir' odd odd'
  have hbase := bdtBase_mod s
  have hlt := bdIndex_lt ep dir odd
  simp only [bdAddr]
  exact ⟨hbase, by omega, by omega, by omega, fun h1 h2 => bdIndex_injective (by omega)⟩

end Sys2Proof.Machine
end

section
/-! SUPPORT. A driver call taken access by access against the call run as one step (20_memory.md R78, 45_software_agent.md R250). -/

namespace Sys2Proof.Machine

/-! ## An access and the call in progress -/

theorem exec_readInstr_withCall (r : Reg) (c : Option CallInProgress) (s : State) :
    exec (readInstr r) { s with call := c } = andThen (exec (readInstr r) s) fun t => .next { t with call := c } := by
  cases r
  case stat =>
    simp only [readInstr, exec, execRdStat]
    split <;> rfl
  all_goals rfl

theorem writeReg_withCall {mask : Byte} {v : Word} {f : State → Byte → State} {c : Option CallInProgress} {s : State}
    (hf : ∀ b, f { s with call := c } b = { f s b with call := c }) :
    writeReg mask v f { s with call := c } = andThen (writeReg mask v f s) fun t => .next { t with call := c } := by
  unfold writeReg
  split
  · rfl
  · rw [hf]; rfl

theorem exec_writeInstr_withCall (r : Reg) (v : Word) (c : Option CallInProgress) (s : State) :
    exec (writeInstr v r) { s with call := c } = andThen (exec (writeInstr v r) s) fun t => .next { t with call := c } := by
  cases r <;>
    simp only [writeInstr, exec, execWrOtgcon, execWrPwrc, execWrIr, execWrIe, execWrEir, execWrStat, execWrCon, execWrAddr,
      execWrBdtp1, execWrBdtp2, execWrBdtp3, execWrEp] <;>
    exact writeReg_withCall fun _ => rfl

/-- No access of software looks at the call it belongs to. -/
theorem runAccess_withCall (a : Access) (c : Option CallInProgress) (s : State) :
    runAccess a { s with call := c } = andThen (runAccess a s) fun t => .next { t with call := c } := by
  cases a with
  | readReg r => exact exec_readInstr_withCall r c s
  | writeReg r v => exact exec_writeInstr_withCall r v c s
  | readMem w a =>
    simp only [runAccess, softRead]
    split <;> rfl
  | writeMem w a v =>
    simp only [runAccess, softWrite]
    split <;> rfl

/-! ## Procedures that run alike -/

/-- From `s` two procedures make the same accesses, for as long as these go on, and return the same. -/
def RunAlike : Procedure → Procedure → State → Prop
  | .returns d, .returns e, _ => d = e
  | .access a p, .access b q, s => a = b ∧ ∀ t, runAccess a s = .next t → RunAlike (p t.rdata) (q t.rdata) t
  | .returns _, .access _ _, _ => False
  | .access _ _, .returns _, _ => False

theorem RunAlike.refl (p : Procedure) (s : State) : RunAlike p p s := by
  induction p generalizing s with
  | returns d => exact rfl
  | access a next ih => exact ⟨rfl, fun t _ => ih _ t⟩

/-- After the same access, from every state it can lead to. -/
theorem RunAlike.access {a : Access} {p q : Word → Procedure} {s : State}
    (h : ∀ t, runAccess a s = .next t → RunAlike (p t.rdata) (q t.rdata) t) : RunAlike (.access a p) (.access a q) s :=
  ⟨rfl, h⟩

theorem RunAlike.returns_left {d : Driver} {q : Procedure} {s : State} (h : RunAlike (.returns d) q s) : q = .returns d := by
  cases q with
  | returns e => exact congrArg _ (Eq.symm h)
  | access b next => exact h.elim

theorem RunAlike.access_left {a : Access} {p : Word → Procedure} {q : Procedure} {s : State} (h : RunAlike (.access a p) q s) :
    ∃ q', q = .access a q' ∧ ∀ t, runAccess a s = .next t → RunAlike (p t.rdata) (q' t.rdata) t := by
  cases q with
  | returns e => exact h.elim
  | access b q' =>
    obtain ⟨rfl, h⟩ := h
    exact ⟨q', rfl, h⟩

/-! ## The bound of `poll`'s loop -/

/-- How many entries are queued, at most, after an access that goes on. -/
theorem runAccess_fifo {a : Access} {s t : State} {m : Nat} (h : runAccess a s = .next t) (hm : s.fifo.length ≤ m) :
    t.fifo.length ≤ m :=
  (runAccess_keeps h).fifo_length.trans hm

/-- The pop of a pass takes an entry off the queue (43_completion.md R238). -/
theorem runAccess_pop {s t : State} {m : Nat} (h : runAccess (.writeReg .ir 0x08#32) s = .next t)
    (hm : s.fifo.length ≤ m + 1) : t.fifo.length ≤ m := by
  have ht : t.fifo = s.fifo.tail := by
    obtain rfl := ((writeReg_next_iff 0x00#8 0x08#32 clearIr s t).1 h).2
    rfl
  rw [ht, List.length_tail]
  omega

/-- The test of the loop: without an entry queued the flag it reads is 0. -/
theorem runAccess_readIr {s t : State} (h : runAccess (.readReg .ir) s = .next t) : bitAt 32 t.rdata 3 = trnif s := by
  obtain rfl := (readDrawn_next_iff ..).1 h
  exact (irByte_bits s _).1

/-- The cancel and the release of PKTDIS in a SETUP's handling, and then the loop. -/
theorem runAlike_handleSetup {ep : Fin 16} {d : Driver} {p q : Driver → Procedure} {m : Nat}
    (hpq : ∀ d (t : State), t.fifo.length ≤ m → RunAlike (p d) (q d) t) {s : State} (hm : s.fifo.length ≤ m) :
    RunAlike (handleSetup ep d p) (handleSetup ep d q) s := by
  have hclr : ∀ d' (u : State), u.fifo.length ≤ m → RunAlike (clrPktdis (p d')) (clrPktdis (q d')) u := fun d' u hu =>
    .access fun v hv => .access fun w hw => hpq _ _ (runAccess_fifo hw (runAccess_fifo hv hu))
  unfold handleSetup cancel
  split
  · exact hclr _ _ hm
  · exact .access fun t ht => .access fun u hu => hclr _ _ (runAccess_fifo hu (runAccess_fifo ht hm))

/-- A pass takes one entry off the queue before it goes on. -/
theorem runAlike_pollPass {prIn : Half} {d : Driver} {p q : Half → Driver → Procedure} {m : Nat}
    (hpq : ∀ b d (t : State), t.fifo.length ≤ m → RunAlike (p b d) (q b d) t) {s : State} (hm : s.fifo.length ≤ m + 1) :
    RunAlike (pollPass prIn d p) (pollPass prIn d q) s := by
  refine .access fun t ht => .access fun u hu => .access fun v hv => ?_
  have hv : v.fifo.length ≤ m := runAccess_fifo hv (runAccess_pop hu (runAccess_fifo ht hm))
  dsimp only
  split
  · exact hpq _ _ _ hv
  · exact hpq _ _ _ hv
  · exact runAlike_handleSetup (hpq _) hv
  · exact hpq _ _ _ hv

/-- Every bound from the number of queued entries on runs the loop alike, since no entry arrives in between. -/
theorem runAlike_pollLoop {m n : Nat} (hmn : m ≤ n) (prIn : Half) (d : Driver) {s : State} (hm : s.fifo.length ≤ m) :
    RunAlike (pollLoop m prIn d) (pollLoop n prIn d) s := by
  induction m generalizing n prIn d s with
  | zero =>
    cases n with
    | zero => exact .refl _ _
    | succ n =>
      refine .access fun t ht => ?_
      have hempty : trnif s = false := by simp [trnif, List.length_eq_zero_iff.1 (Nat.le_zero.1 hm)]
      rw [runAccess_readIr ht, hempty]
      exact .refl _ _
  | succ m ih =>
    obtain ⟨n, rfl⟩ : ∃ k, n = k + 1 := ⟨n - 1, by omega⟩
    refine .access fun t ht => ?_
    split
    · exact runAlike_pollPass (fun b d' u hu => ih (by omega) b d' hu) (runAccess_fifo ht hm)
    · exact .refl _ _

theorem runAlike_procedure {m n : Nat} (hmn : m ≤ n) (c : Call) (d : Driver) {s : State} (hm : s.fifo.length ≤ m) :
    RunAlike (procedure m c d) (procedure n c d) s := by
  cases c
  case poll =>
    refine .access fun t ht => ?_
    have ht := runAccess_fifo ht hm
    split
    · exact runAlike_pollLoop hmn _ _ ht
    · exact .access fun u hu => runAlike_pollLoop hmn _ _ (runAccess_fifo hu ht)
  all_goals exact .refl _ _

/-! ## The turns of a call -/

theorem callRun_some {k : Nat} (hk : 1 ≤ k) {s : State} {c : CallInProgress} (h : s.call = some c) :
    callRun k s = andThen (callTurn c s) (callRun (k - 1)) := by
  cases k with
  | zero => exact absurd hk (by omega)
  | succ k => simp only [callRun, h, Nat.add_sub_cancel]

theorem callRun_none {k : Nat} {s : State} (h : s.call = none) : callRun k s = .next s := by
  cases k <;> simp [callRun, h]

@[simp] theorem afterAnswers_nil (p : Procedure) : afterAnswers p [] = p := by
  cases p <;> rfl

/-- Where every bound from `m` on makes the call go on like `p` after the answers so far, the turns run `p` to its end. -/
theorem callRun_runProcedure {c : Call} {m : Nat} (p : Procedure) {vs : List Word} {s : State}
    (hp : ∀ n, m ≤ n → RunAlike p (afterAnswers (procedure n c s.drv) vs) s) :
    ∃ k, ∀ turns, k ≤ turns → callRun turns { s with call := some { call := c, answers := vs } } =
      andThen (runProcedure p s) fun u => .next { u with call := none } := by
  induction p generalizing vs s with
  | returns d =>
    refine ⟨1, fun turns hk => ?_⟩
    have hnext := (hp _ (Nat.le_max_left m vs.length)).returns_left
    rw [callRun_some hk rfl, callTurn_eq _ _ (Nat.le_max_right m vs.length)]
    dsimp only
    rw [hnext]
    exact callRun_none rfl
  | access a next ih =>
    have hturn : callTurn { call := c, answers := vs } { s with call := some { call := c, answers := vs } } =
        andThen (runAccess a s) fun t => .next { t with call := some { call := c, answers := vs ++ [t.rdata] } } := by
      obtain ⟨q, hq, -⟩ := (hp _ (Nat.le_max_left m vs.length)).access_left
      rw [callTurn_eq _ _ (Nat.le_max_right m vs.length)]
      dsimp only
      rw [hq]
      simp only [whatNext, runAccess_withCall]
      cases runAccess a s <;> rfl
    cases ha : runAccess a s with
    | next t =>
      obtain ⟨k, hk⟩ := ih t.rdata (vs := vs ++ [t.rdata]) (s := t) fun n hn => by
        obtain ⟨q, hq, hnext⟩ := (hp n hn).access_left
        rw [(runAccess_drv ha).1, afterAnswers_append, hq]
        simpa only [afterAnswers, afterAnswers_nil] using hnext t ha
      refine ⟨k + 1, fun turns hle => ?_⟩
      rw [callRun_some (by omega) rfl, hturn, runProcedure, ha]
      exact hk (turns - 1) (by omega)
    | fault e => cases e
    | refused e =>
      refine ⟨1, fun turns hk => ?_⟩
      rw [callRun_some hk rfl, hturn, runProcedure, ha]
      rfl

/-- Settles O55: the procedure with the bound of the whole call runs like the one of any larger bound. -/
theorem fineCallEqualsWhole : Obligations.FineCallEqualsWhole := fun s c =>
  callRun_runProcedure (procedure s.fifo.length c s.drv) fun n hn => by
    rw [afterAnswers_nil]
    exact runAlike_procedure hn c s.drv (Nat.le_refl s.fifo.length)

end Sys2Proof.Machine
end

section
/-! SUPPORT. A transaction taken access by access (20_memory.md R73, R78): its turns together against the transaction taken as one
step, and what one access does. -/

namespace Sys2Proof.Machine

/-! ## The turns of a transaction together -/

/-- A word without a command is BD.IDLE to the engine, whatever its name (41_descriptor_ops.md R162). -/
theorem exec_idleInstr_of_command {s : State} {x : Txn} {odd : Bool} {w0 : Word} (hx : s.txn = some x)
    (hp : x.phase = .command odd w0) (f n : Half) :
    exec (idleInstr f n) s = .next (finish s (nakOrNone x.ctl x.kind)) := by
  have hidle : idleCommand s = .next (finish s (nakOrNone x.ctl x.kind)) := by simp only [idleCommand, hx, hp]
  have hresult : ∀ t k m, resultCommand t k m s = idleCommand s := fun t k m => by simp only [resultCommand, hx, hp]
  unfold idleInstr
  split
  · exact (hresult ..).trans hidle
  · exact (hresult ..).trans hidle
  · exact (hresult ..).trans hidle
  · exact hidle

theorem dataCommand_begins {s : State} {x : Txn} {odd : Bool} {w0 : Word} (hx : s.txn = some x)
    (hp : x.phase = .command odd w0) (hf : s.fine = true) (tg d : Bool) (n : Half) :
    dataCommand tg d n s = beginData s x odd w0 tg d n := by
  simp only [dataCommand, hx, hp, hf, if_true]

theorem stallCommand_setup {s : State} {x : Txn} (hx : s.txn = some x) (hk : x.kind = .setup) (tg d : Bool) (n : Half) :
    stallCommand tg d n s = dataCommand tg d n s := by
  simp only [stallCommand, hx, hk, if_true]

theorem stallCommand_arms {s : State} {x : Txn} {odd : Bool} {w0 : Word} (hx : s.txn = some x)
    (hp : x.phase = .command odd w0) (hk : x.kind ≠ .setup) (tg d : Bool) (n : Half) :
    stallCommand tg d n s = .next (stallArmed s x) := by
  simp only [stallCommand, hx, hp, if_neg hk]

/-- A data command that was fetched, taken turn by turn, comes to the data command run whole. -/
theorem engineRun_dataCommand {s : State} {x : Txn} {odd tg d : Bool} {w0 : Word} (hf : s.fine = true)
    (hd : IsData x w0 tg) (hm : (countOf w0).toNat ≤ maxCount) {j : Nat} (hj : 1024 ≤ j) :
    andThen (dataCommand tg d (countOf w0) (setPhase s x (.command odd w0))) (engineRun j) =
      runData s x odd tg d (countOf w0) := by
  rw [dataCommand_begins (setPhase_txn ..) rfl hf, beginData_setPhase, engineRun_beginData s x odd tg d w0 hd hm j hj]

/-- A fetched command, taken turn by turn, comes to the command run whole. -/
theorem engineRun_command {s : State} {x : Txn} {odd : Bool} {w0 : Word} {c : Command} (hf : s.fine = true)
    (hc : fetchCommand w0 = .ok c) {j : Nat} (hj : 1024 ≤ j) :
    engineRun (j + 1) (setPhase s x (.command odd w0)) = runCommand s x odd c := by
  have hturn : ∀ i, decodeBd w0 = .ok i → engineRun (j + 1) (setPhase s x (.command odd w0)) =
      andThen (exec i (setPhase s x (.command odd w0))) (engineRun j) := fun i hi => by
    rw [engineRun_some (setPhase_txn ..), engineTurn_of_instr ((engineInstr_command rfl).trans hi)]
  cases c with
  | idle =>
    have hi : decodeBd w0 = .ok (idleInstr (flagsOf w0) (countOf w0)) := by rw [decodeBd, hc]
    rw [hturn _ hi, exec_idleInstr_of_command (setPhase_txn ..) rfl]
    exact engineRun_none rfl
  | data tg d n =>
    have hi : decodeBd w0 = .ok (.bdData tg d n) := by rw [decodeBd, hc]
    obtain ⟨-, rfl, hm, -⟩ := fetchCommand_data hc
    rw [hturn _ hi]
    exact engineRun_dataCommand hf (.inl ⟨d, hi⟩) hm hj
  | stall tg d n =>
    have hi : decodeBd w0 = .ok (.bdStall tg d n) := by rw [decodeBd, hc]
    obtain ⟨-, rfl, hm, -⟩ := fetchCommand_stall hc
    rw [hturn _ hi, exec, execBdStall, runCommand]
    by_cases hk : x.kind = .setup
    · rw [if_pos hk, stallCommand_setup (x := { x with phase := .command odd w0 }) (setPhase_txn ..) hk]
      exact engineRun_dataCommand hf (.inr ⟨hk, d, hi⟩) hm hj
    · rw [if_neg hk, stallCommand_arms (setPhase_txn ..) rfl hk]
      exact engineRun_none rfl

/-- A transaction that has just begun, taken turn by turn, comes to the transaction taken whole. -/
theorem engineRun_transact {s : State} {x : Txn} (hx : s.txn = some x) (hp : x.phase = .fetch) (hf : s.fine = true) {j : Nat}
    (hj : 1024 ≤ j) : engineRun (j + 2) s = transact s x := by
  have hfetch : engineTurn x s = fetchStep s x := by
    rw [engineTurn_of_instr (engineInstr_fetch hp)]
    simp only [exec, execFetch, hx, hp]
  rw [engineRun_some hx, hfetch]
  simp only [fetchStep, transact]
  cases hc : fetchCommand (readWord s (txnBd x (ppbi s x.ep (dirOf x.kind)))) with
  | error e => rfl
  | ok c => exact engineRun_command hf hc hj

/-- What a whole command leads to does not depend on `fine` or on what stood in the latch. -/
theorem runCommand_fine (s : State) (x : Txn) (odd : Bool) (c : Command) (y : Option Txn) :
    runCommand { s with fine := true, txn := y } x odd c = fineOf (runCommand s x odd c) := by
  cases c with
  | idle => rfl
  | data tg d n => exact runData_fine ..
  | stall tg d n =>
    simp only [runCommand]
    split
    · exact runData_fine ..
    · rfl

theorem transact_fine (s : State) (x : Txn) (y : Option Txn) :
    transact { s with fine := true, txn := y } x = fineOf (transact s x) := by
  have hword : fetchCommand (readWord { s with fine := true, txn := y } (txnBd x (ppbi s x.ep (dirOf x.kind)))) =
      fetchCommand (readWord s (txnBd x (ppbi s x.ep (dirOf x.kind)))) := rfl
  have hodd : ppbi { s with fine := true, txn := y } x.ep (dirOf x.kind) = ppbi s x.ep (dirOf x.kind) := ppbi_congr _ _ rfl rfl _ _
  simp only [transact, hodd, hword]
  split
  · rfl
  · exact runCommand_fine ..

/-- The bus operation of a token is the token with the operands its kind has. -/
theorem exec_tokenInstr (k : Kind) (addr : BitVec 7) (ep : Fin 16) (tg : Bool) (p : List Byte) (ack : Bool) :
    ∃ tg' p' ack', ∀ s, exec (tokenInstr k addr ep tg p ack) s = tokenOp k addr ep tg' p' ack' s := by
  cases k with
  | out => exact ⟨tg, p, false, fun _ => rfl⟩
  | inn => exact ⟨false, [], ack, fun _ => rfl⟩
  | setup => exact ⟨tg, p, false, fun _ => rfl⟩

/-- A token taken turn by turn comes to the token taken whole. -/
theorem engineRun_tokenOp {s : State} (hx : s.txn = none) (hf : s.fine = false) (k : Kind) (addr : BitVec 7) (ep : Fin 16)
    (tg : Bool) (p : List Byte) (ack : Bool) {turns : Nat} (ht : 1027 ≤ turns) :
    andThen (tokenOp k addr ep tg p ack { s with fine := true }) (engineRun turns) =
      fineOf (tokenOp k addr ep tg p ack s) := by
  have hchecks : tokenChecks { s with fine := true } k addr ep = tokenChecks s k addr ep := rfl
  simp only [tokenOp, hchecks]
  cases tokenChecks s k addr ep with
  | answer r => exact engineRun_none hx
  | halted => exact engineRun_none hx
  | noMeaning => rfl
  | go =>
    obtain ⟨j, rfl⟩ : ∃ j, turns = j + 2 := ⟨turns - 2, by omega⟩
    simp only [if_true, hf, Bool.false_eq_true, if_false, andThen_of_next]
    rw [engineRun_transact rfl rfl rfl (by omega)]
    exact transact_fine ..

/-- Settles O48: the token's turns together are the transaction, and the transaction does not depend on `fine`. -/
theorem fineTransactionEqualsAtomic : Obligations.FineTransactionEqualsAtomic := by
  intro s k addr ep tg p ack turns hx hf ht
  obtain ⟨tg', p', ack', htoken⟩ := exec_tokenInstr k addr ep tg p ack
  rw [htoken, htoken]
  exact engineRun_tokenOp hx hf k addr ep tg' p' ack' ht

/-! ## What comes after a byte of the packet -/

theorem bytesToMove_received {x : Txn} (hk : x.kind ≠ .inn) (n : Half) : bytesToMove x n = x.payload.length := by
  unfold bytesToMove
  split
  · exact absurd ‹_› hk
  · rfl
  · rfl

theorem bytesToMove_sent {x : Txn} (hk : x.kind = .inn) (n : Half) : bytesToMove x n = n.toNat := by
  simp only [bytesToMove, hk]

/-- After the last byte of an OUT or SETUP packet the completion step is next (42_bus_transactions.md R205). -/
theorem allMoved_received {x : Txn} (hk : x.kind ≠ .inn) (s : State) (odd tg : Bool) (n : Half) (got : List Byte) :
    allMoved s x odd tg n got = setPhase s x (.done odd (BitVec.ofNat 16 x.payload.length) x.toggle) := by
  unfold allMoved
  split
  · exact absurd ‹_› hk
  · rfl
  · rfl

/-- After the last byte of an IN packet it is sent, and the host's ACK decides (42_bus_transactions.md R210, R211). -/
theorem allMoved_sent {x : Txn} (hk : x.kind = .inn) (s : State) (odd tg : Bool) (n : Half) (got : List Byte) :
    allMoved s x odd tg n got = { s with
      resp := .data tg got
      txn := if x.ctl.ephshk = true ∧ x.ack = false then none else some { x with phase := .done odd n tg } } := by
  have hsend : allMoved s x odd tg n got = if x.ctl.ephshk = true ∧ x.ack = false then finish s (.data tg got)
      else setPhase (respond s (.data tg got)) x (.done odd n tg) := by simp only [allMoved, hk]
  rw [hsend]
  split
  · rfl
  · rfl

theorem afterMove_more {x : Txn} {n : Half} {i : Nat} (h : i < bytesToMove x n) (s : State) (odd : Bool) (w0 a : Word)
    (tg : Bool) (got : List Byte) : afterMove s x odd w0 a tg n i got = setPhase s x (.data odd w0 a i got) :=
  if_neg (Nat.not_le.2 h)

theorem afterMove_last {x : Txn} {n : Half} {i : Nat} (h : bytesToMove x n ≤ i) (s : State) (odd : Bool) (w0 a : Word)
    (tg : Bool) (got : List Byte) : afterMove s x odd w0 a tg n i got = allMoved s x odd tg n got :=
  if_pos h

/-! ## The first access of a data command -/

theorem toggleRejected_eq_false {x : Txn} {tg d : Bool} (h : x.kind = .setup ∨ (x.kind = .out ∧ (d = false ∨ x.toggle = tg))) :
    toggleRejected x tg d = false := by
  unfold toggleRejected
  rcases h with hk | ⟨-, rfl | rfl⟩
  · rw [hk]; rfl
  · rw [Bool.and_false, Bool.false_and]
  · rw [bne_self_eq_false, Bool.and_false]

section
variable {s : State} {x : Txn} {odd tg d : Bool} {w0 a : Word} {n : Half}

theorem beginData_overrun (hk : x.kind ≠ .inn) (ht : toggleRejected x tg d = false) (hn : n.toNat < x.payload.length) :
    beginData s x odd w0 tg d n = .refused .overrun := by
  rw [beginData, if_neg (by simp [ht]), if_pos ⟨hk, hn⟩]

/-- Past the checks of an OUT or SETUP packet the buffer decides (42_bus_transactions.md R203). -/
theorem beginData_passes (h : x.kind ≠ .inn → toggleRejected x tg d = false ∧ x.payload.length ≤ n.toNat)
    (ha : a = readWord s (txnBd x odd + 4)) : beginData s x odd w0 tg d n =
      if bufferFits s.cfg a n.toNat then .next (afterMove s x odd w0 a tg n 0 []) else .refused .badBuffer := by
  subst ha
  rw [beginData, if_neg fun hr => by simp [(h hr.1).1] at hr, if_neg fun hr => Nat.not_lt.2 (h hr.1).2 hr.2]
  simp only [← bufferOk_iff, ← Bool.not_eq_true, ite_not]

end

theorem exec_bdData_begins {s : State} {x : Txn} {odd : Bool} {w0 : Word} (hx : s.txn = some x)
    (hp : x.phase = .command odd w0) (hf : s.fine = true) (tg d : Bool) (n : Half) :
    exec (.bdData tg d n) s = beginData s x odd w0 tg d n :=
  dataCommand_begins hx hp hf tg d n

/-- Settles O32: the first access reads the buffer's address, and what is left to move says what comes after it. -/
theorem dataCommandBegins : Obligations.DataCommandBegins := by
  intro s x odd w0 a tg d n hx hp hf ha
  rw [exec_bdData_begins hx hp hf]
  refine ⟨fun hkind => ?_, fun hk => ?_⟩
  · have ht := toggleRejected_eq_false hkind
    have hk : x.kind ≠ .inn := by rcases hkind with h | ⟨h, -⟩ <;> rw [h] <;> decide
    refine ⟨beginData_overrun hk ht, fun hn hb => ?_, fun hn hb => ?_⟩
    · rw [beginData_passes (fun _ => ⟨ht, hn⟩) ha, if_neg hb]
    · rw [beginData_passes (fun _ => ⟨ht, hn⟩) ha, if_pos hb]
      split
      · rename_i hlen
        rw [afterMove_last (by rw [bytesToMove_received hk, hlen]), allMoved_received hk, hlen]
        rfl
      · rw [afterMove_more (by rw [bytesToMove_received hk]; omega)]
        rfl
  · have hbegin := beginData_passes (w0 := w0) (tg := tg) (d := d) (n := n) (fun h => absurd hk h) ha
    refine ⟨fun hb => ?_, fun hb hn => ?_, fun hn => ?_⟩
    · rw [hbegin, if_neg hb]
    · rw [hbegin, if_pos hb, afterMove_more (by rwa [bytesToMove_sent hk])]
      rfl
    · rw [hbegin, if_pos (.inl hn), afterMove_last (by rw [bytesToMove_sent hk, hn]), allMoved_sent hk]

/-! ## One access of the data phase -/

theorem exec_bdData_moves {s : State} {x : Txn} {odd : Bool} {w0 a : Word} {j : Nat} {got : List Byte} (hx : s.txn = some x)
    (hp : x.phase = .data odd w0 a j got) (tg d : Bool) (n : Half) :
    exec (.bdData tg d n) s = .next (moveByte s x odd w0 a tg n j got) := by
  simp only [exec, execBdData, dataCommand, hx, hp]

theorem moveByte_received {x : Txn} {n : Half} {j : Nat} (hk : x.kind ≠ .inn) (hj : j < x.payload.length) (s : State)
    (odd : Bool) (w0 a : Word) (tg : Bool) (got : List Byte) : moveByte s x odd w0 a tg n j got =
      afterMove (storeBytes s (a.toNat + j) [x.payload[j]]) x odd w0 a tg n (j + 1) got := by
  have hbyte : x.payload.getD j 0#8 = x.payload[j] := List.getD_eq_getElem _ _ hj
  rw [moveByte, if_neg (by rw [bytesToMove_received hk]; omega), hbyte]
  split
  · exact absurd ‹_› hk
  · rfl
  · rfl

theorem moveByte_sent {x : Txn} {n : Half} {j : Nat} (hk : x.kind = .inn) (hj : j < n.toNat) (s : State)
    (odd : Bool) (w0 a : Word) (tg : Bool) (got : List Byte) : moveByte s x odd w0 a tg n j got =
      afterMove s x odd w0 a tg n (j + 1) (got ++ [readByte s (a.toNat + j)]) := by
  rw [moveByte, if_neg (by rw [bytesToMove_sent hk]; omega)]
  simp only [hk]

/-- After a byte of an OUT or SETUP packet only the phase of the latch changes. -/
theorem afterMove_received {x : Txn} {n : Half} {i : Nat} (hk : x.kind ≠ .inn) (s : State) (odd : Bool) (w0 a : Word)
    (tg : Bool) (got : List Byte) : afterMove s x odd w0 a tg n i got = setPhase s x
      (if x.payload.length ≤ i then .done odd (BitVec.ofNat 16 x.payload.length) x.toggle else .data odd w0 a i got) := by
  split
  · rw [afterMove_last (by rwa [bytesToMove_received hk]), allMoved_received hk]
  · rw [afterMove_more (by rw [bytesToMove_received hk]; omega)]

/-- Settles O33: the access moves its byte, and what is left to move says what comes after it. -/
theorem dataPhaseMovesOneByte : Obligations.DataPhaseMovesOneByte := by
  intro s x odd w0 a j got tg d n hx hp
  rw [exec_bdData_moves hx hp]
  refine ⟨fun hk hj => ?_, fun hk hj => ?_, fun hk hj => ?_⟩
  · rw [moveByte_received hk hj, afterMove_received hk]
    refine ⟨_, rfl, rfl, ?_, fun b hb => ?_, fun hmore => ?_, fun hlast => ?_⟩
    · exact readByte_storeBytes_inside s (a.toNat + j) [x.payload[j]] (i := 0) (by simp)
    · exact readByte_storeBytes_outside s _ _ (by rw [List.length_singleton]; omega)
    · rw [if_neg (by omega)]; rfl
    · rw [if_pos (by omega)]; rfl
  · rw [moveByte_sent hk (by omega), afterMove_more (by rwa [bytesToMove_sent hk])]
    rfl
  · rw [moveByte_sent hk (by omega), afterMove_last (by rw [bytesToMove_sent hk]; omega), allMoved_sent hk]

end Sys2Proof.Machine
end

section
/-! SUPPORT. The decoder and the encoder against each other (30_encoding.md): each format's frame read back, and each format's
decoder giving well-formed instructions only. -/

namespace Sys2Proof

/-! ## Words without a command -/

/-- A word in the result format takes the name of its token's row (log 5). -/
theorem idleInstr_of_result {f n : Half} {k : Kind} (h : resultKind f n = some k) :
    idleInstr f n = canonical (.bdDone (bitAt 16 f 6) k n) := by
  cases k <;> simp only [idleInstr, h, canonical]

theorem idleInstr_of_no_result {f n : Half} (h : resultKind f n = none) : idleInstr f n = .bdIdle f n := by
  simp only [idleInstr, h]

theorem encode_canonical_bdDone (rm : RegMap) (t : Bool) (k : Kind) (n : Half) :
    encode rm (canonical (.bdDone t k n)) = bdFrame n (resultFlags t k) := by
  cases k <;> rfl

theorem wf_canonical_bdDone (t : Bool) (k : Kind) (n : Half) : (canonical (.bdDone t k n)).wf = countOk n := by
  cases k <;> rfl

/-- Whatever name a word without a command takes, it is encoded by its own fields (30_encoding.md R93). -/
theorem encode_idleInstr (rm : RegMap) (f n : Half) : encode rm (idleInstr f n) = bdFrame n f := by
  cases h : resultKind f n with
  | none => rw [idleInstr_of_no_result h, encode]
  | some k => rw [idleInstr_of_result h, encode_canonical_bdDone, ← (resultFlags_of_resultKind h).1]

theorem wf_idleInstr {f n : Half} (hf : bitAt 16 f 7 = false) : (idleInstr f n).wf = true := by
  cases h : resultKind f n with
  | none => rw [idleInstr_of_no_result h, Instr.wf, hf, h]; rfl
  | some k => rw [idleInstr_of_result h, wf_canonical_bdDone]; exact decide_eq_true (resultFlags_of_resultKind h).2

/-! ## Descriptor words -/

theorem decodeBd_dataFlags (t s : Bool) {n : Half} (hn : n.toNat ≤ maxCount) :
    decodeBd (word0 n (dataFlags t s)) = .ok (.bdData t s n) := by
  simp only [decodeBd, fetchCommand_dataFlags t s hn]

theorem decodeBd_stallFlags (t s : Bool) {n : Half} (hn : n.toNat ≤ maxCount) :
    decodeBd (word0 n (stallFlags t s)) = .ok (.bdStall t s n) := by
  simp only [decodeBd, fetchCommand_stallFlags t s hn]

/-- The result word of a token decodes to the result of that token (30_encoding.md R92). -/
theorem decodeBd_resultFlags (t : Bool) (k : Kind) {n : Half} (hn : n.toNat ≤ maxCount) :
    decodeBd (word0 n (resultFlags t k)) = .ok (canonical (.bdDone t k n)) := by
  have huown : bitAt 16 (resultFlags t k) 7 = false := by cases t <;> cases k <;> rfl
  rw [decodeBd_of_software huown, idleInstr_of_result (resultKind_resultFlags t k hn), bitAt_resultFlags]

theorem decodeBd_idle {f n : Half} (hf : bitAt 16 f 7 = false) (hr : resultKind f n = none) :
    decodeBd (word0 n f) = .ok (.bdIdle f n) := by
  rw [decodeBd_of_software hf, idleInstr_of_no_result hr]

/-! ## Frames of tokens, hand-over operations and the completion step -/

theorem decodeToken_tokenWord {k : Kind} {pl : List Byte} (hin : k = .inn → pl = []) (a : BitVec 7) (e : Fin 16) (x : Bool) :
    decodeToken (tokenWord (pidOf k) a e x) pl = .ok (Machine.tokenInstr k a e x pl x) := by
  simp only [decodeToken, tokenWord_pid, tokenWord_addr, tokenWord_ep, tokenWord_bit, kindOfPid_pidOf]
  cases k with
  | out => rfl
  | inn => exact if_pos (hin rfl)
  | setup => rfl

theorem decode_tokenBytes (rm : RegMap) {k : Kind} {pl : List Byte} (hin : k = .inn → pl = []) (hpl : pl.length ≤ maxCount)
    (a : BitVec 7) (e : Fin 16) (x : Bool) : decode rm { fmt := .tok, bytes := tokenBytes (pidOf k) a e x pl } =
      .ok (Machine.tokenInstr k a e x pl x) :=
  (decodeTok_tokenBytes (pidOf k) a e x hpl).trans (decodeToken_tokenWord hin a e x)

/-- Every operand of an arming operation is read back; the code names the operation (log 4). -/
theorem decode_armFrame (rm : RegMap) (c : Byte) (ep : Fin 16) (dir : Dir) (odd : Bool) (n : Half) (a : Word) (t s : Bool) :
    decode rm (armFrame c ep dir odd n a t s) =
      if c = 1#8 then .ok (.arm ep dir odd n a t s)
      else if c = 2#8 then .ok (.armStall ep dir odd n a t s)
      else if c = 3#8 then .ok (.stallOverride ep dir odd n a t s)
      else .error .malformed := by
  simp only [decode, armFrame, halfBytes, wordBytes, List.cons_append, List.nil_append, decodePseudo, half_of_bytes,
    word_of_bytes, epOfByte_operandByte, dirOfByte_operandByte, oddOf_operandByte, toggleOf_operandByte, syncOf_operandByte]

theorem decodePseudo_reclaim (ep : Fin 16) (dir : Dir) (odd : Bool) :
    decodePseudo [4#8, operandByte ep dir odd false false] = .ok (.reclaim ep dir odd) := by
  simp only [decodePseudo, high_operandByte, epOfByte_operandByte, dirOfByte_operandByte, oddOf_operandByte]
  rfl

theorem decodePseudo_bdInit (ep : Fin 16) (dir : Dir) :
    decodePseudo [5#8, operandByte ep dir false false false] = .ok (.bdInit ep dir) := by
  simp only [decodePseudo, high_operandByte, epOfByte_operandByte, dirOfByte_operandByte, oddOf_operandByte]
  rfl

/-- The frame of a RETIRE is read back when its count fits; its direction is its token's (43_completion.md R230). -/
theorem decode_retireFrame (rm : RegMap) (ep : Fin 16) (odd t : Bool) (k : Kind) {n : Half} (hn : n.toNat ≤ maxCount) :
    decode rm (encode rm (.retire ep (dirOf k) odd n t k)) = .ok (.retire ep (dirOf k) odd n t k) := by
  have hpid : (0#4 ++ pidOf k : BitVec 8).extractLsb' 0 4 = pidOf k := extract_append_low _ _
  have hzero : (0#4 ++ pidOf k : BitVec 8).extractLsb' 4 4 = 0#4 := by cases k <;> rfl
  simp only [decode, encode, halfBytes, List.cons_append, List.nil_append, decodeEng, half_of_bytes, if_neg (Nat.not_lt.2 hn),
    hpid, hzero, kindOfPid_pidOf, epOfByte_operandByte, dirOfByte_operandByte, oddOf_operandByte, toggleOf_operandByte,
    syncOf_operandByte]
  rfl

/-- Settles O2: each constructor's frame is read back by the lemma of its format. -/
theorem decodeEncodeAgree : Obligations.DecodeEncodeAgree := by
  intro rm i hrm hi
  cases i with
  | bdData t s n => exact (decode_bdFrame rm _ _).trans (decodeBd_dataFlags t s (of_decide_eq_true hi))
  | bdStall t s n => exact (decode_bdFrame rm _ _).trans (decodeBd_stallFlags t s (of_decide_eq_true hi))
  | bdIdle f n =>
    simp only [Instr.wf, Bool.and_eq_true, Bool.not_eq_true', Option.isNone_iff_eq_none] at hi
    exact (decode_bdFrame rm _ _).trans (decodeBd_idle hi.1 hi.2)
  | bdDone t k n => exact (decode_bdFrame rm _ _).trans (decodeBd_resultFlags t k (of_decide_eq_true hi))
  | bdDoneOut t n => exact (decode_bdFrame rm _ _).trans (decodeBd_resultFlags t .out (of_decide_eq_true hi))
  | bdDoneIn t n => exact (decode_bdFrame rm _ _).trans (decodeBd_resultFlags t .inn (of_decide_eq_true hi))
  | bdDoneSetup t n => exact (decode_bdFrame rm _ _).trans (decodeBd_resultFlags t .setup (of_decide_eq_true hi))
  | arm => exact decode_armFrame rm 1#8 ..
  | armStall => exact decode_armFrame rm 2#8 ..
  | stallOverride => exact decode_armFrame rm 3#8 ..
  | reclaim ep dir odd => exact decodePseudo_reclaim ep dir odd
  | bdInit ep dir => exact decodePseudo_bdInit ep dir
  | fetch => rfl
  | retire ep dir odd n t k =>
    simp only [Instr.wf, Bool.and_eq_true, countOk, decide_eq_true_eq] at hi
    obtain ⟨hn, rfl⟩ := hi
    exact decode_retireFrame rm ep odd t k hn
  | busOut a e x pl => exact decode_tokenBytes rm (k := .out) nofun (of_decide_eq_true hi) a e x
  | busIn a e x => exact decode_tokenBytes rm (k := .inn) (fun _ => rfl) (Nat.zero_le _) a e x
  | busSetup a e x pl => exact decode_tokenBytes rm (k := .setup) nofun (of_decide_eq_true hi) a e x
  | busSof => rfl
  | busReset => rfl
  | busErr m => rfl
  | rdEp | rdPwrc | rdCon | rdAddr | rdOtgcon | rdIr | rdIe | rdEir | rdStat | rdBdtp1 | rdBdtp2 | rdBdtp3 =>
    exact decode_readFrame hrm _
  | wrEp | wrPwrc | wrCon | wrAddr | wrOtgcon | wrIr | wrIe | wrEir | wrStat | wrBdtp1 | wrBdtp2 | wrBdtp3 =>
    exact decode_writeFrame hrm _ _

/-! ## What the decoder accepts -/

theorem wf_of_decodeBd {w : Word} {i : Instr} (h : decodeBd w = .ok i) : i.wf = true := by
  rcases decodeBd_cases h with ⟨hf, rfl⟩ | ⟨t, s, rfl, hc⟩ | ⟨t, s, rfl, hc⟩
  · exact wf_idleInstr hf
  · obtain ⟨-, -, hn, -⟩ := fetchCommand_data hc
    exact decide_eq_true hn
  · obtain ⟨-, -, hn, -⟩ := fetchCommand_stall hc
    exact decide_eq_true hn

theorem wf_of_decodeToken {w : Half} {pl : List Byte} (hpl : pl.length ≤ maxCount) {i : Instr}
    (h : decodeToken w pl = .ok i) : i.wf = true := by
  have hok : payloadOk pl = true := decide_eq_true hpl
  unfold decodeToken at h
  dsimp only at h
  split at h
  · cases h; exact hok
  · cases h; exact hok
  · split_ifs at h; cases h; rfl
  · split_ifs at h; cases h; rfl

theorem wf_of_decodeTok {bs : List Byte} {i : Instr} (h : decodeTok bs = .ok i) : i.wf = true := by
  unfold decodeTok at h
  split at h
  · split_ifs at h with _ hlong
    exact wf_of_decodeToken (Nat.not_lt.1 hlong) h
  · cases h

theorem wf_of_decodeCond {bs : List Byte} {i : Instr} (h : decodeCond bs = .ok i) : i.wf = true := by
  unfold decodeCond at h
  split at h
  · split_ifs at h; cases h; rfl
  · split_ifs at h; cases h; rfl
  · cases h

theorem wf_readInstr (r : Reg) : (readInstr r).wf = true := by
  cases r <;> rfl

theorem wf_writeInstr (v : Word) (r : Reg) : (writeInstr v r).wf = true := by
  cases r <;> rfl

theorem wf_of_accessInstr {rm : RegMap} {a : Word} {k : Reg → Instr} (hk : ∀ r, (k r).wf = true) {i : Instr}
    (h : accessInstr rm a k = .ok i) : i.wf = true := by
  unfold accessInstr at h
  split_ifs at h
  split at h
  · cases h; exact hk _
  · cases h

theorem wf_of_decodeReg {rm : RegMap} {bs : List Byte} {i : Instr} (h : decodeReg rm bs = .ok i) : i.wf = true := by
  unfold decodeReg at h
  split at h
  · split at h
    · cases h
    · split at h
      · split_ifs at h; exact wf_of_accessInstr wf_readInstr h
      · split_ifs at h; exact wf_of_accessInstr (wf_writeInstr _) h
      · cases h
  · cases h

theorem wf_of_decodePseudo {bs : List Byte} {i : Instr} (h : decodePseudo bs = .ok i) : i.wf = true := by
  unfold decodePseudo at h
  split at h
  · split_ifs at h <;> cases h <;> rfl
  · split_ifs at h <;> cases h <;> rfl
  · cases h

theorem wf_of_decodeEng {bs : List Byte} {i : Instr} (h : decodeEng bs = .ok i) : i.wf = true := by
  unfold decodeEng at h
  split at h
  · split_ifs at h; cases h; rfl
  · split_ifs at h with hn _
    split at h
    · split_ifs at h with hdir
      cases h
      simp only [Instr.wf, countOk, decide_eq_true (Nat.not_lt.1 hn), decide_eq_true hdir, Bool.and_self]
    · cases h
  · cases h

/-- Settles O3: format by format, the decoder's tests are the bounds of well-formedness. -/
theorem decodedIsWellFormed : Obligations.DecodedIsWellFormed := by
  intro rm f i h
  unfold decode at h
  split at h
  · split at h
    · exact wf_of_decodeBd h
    · cases h
  · exact wf_of_decodeTok h
  · exact wf_of_decodeCond h
  · exact wf_of_decodeReg h
  · exact wf_of_decodePseudo h
  · exact wf_of_decodeEng h

/-- Settles O4: a command's flags are those of its operands, and any other word is encoded by its own fields. -/
theorem descriptorWordHasOneMeaning : Obligations.DescriptorWordHasOneMeaning := by
  intro rm w i h
  have hown : bdFrame (countOf w) (flagsOf w) = { fmt := .bd, bytes := wordBytes w } := by rw [bdFrame, word0_of_fields]
  rcases decodeBd_cases h with ⟨-, rfl⟩ | ⟨t, s, rfl, hc⟩ | ⟨t, s, rfl, hc⟩
  · rw [encode_idleInstr, hown]
  · rw [encode, bdFrame, ← (fetchCommand_data hc).1]
  · rw [encode, bdFrame, ← (fetchCommand_stall hc).1]

/-- Settles O1: each word is evaluated by the decoder. -/
theorem specWordsDecode : Obligations.SpecWordsDecode :=
  ⟨rfl, rfl, rfl, rfl, rfl, rfl, rfl, rfl, rfl, rfl, rfl, rfl, rfl, rfl, rfl, rfl, rfl⟩

end Sys2Proof
end

section
/-! SUPPORT. The writes of software to the table (30_encoding.md R96, R108): the table base, and the hand-over operations on one
descriptor, whole and write by write. -/

namespace Sys2Proof.Machine

/-! ## The table base -/

/-- A byte of an address, cut out by division, is that byte as the value of a register write. -/
theorem ofNat_div_eq_extract (a : Word) (i : Nat) :
    BitVec.ofNat 32 (a.toNat / 2 ^ i % 256) = (a.extractLsb' i 8).setWidth 32 := by
  apply BitVec.eq_of_toNat_eq
  simp only [BitVec.toNat_ofNat, BitVec.toNat_setWidth, BitVec.extractLsb'_toNat, Nat.shiftRight_eq_div_pow]

/-- The three base registers hold bits 31:9 of the base, as digits (10_state.md R50). -/
theorem bdtBase_toNat (s : State) : (bdtBase s).toNat =
    s.bdtp3.toNat * 16777216 + s.bdtp2.toNat * 65536 + s.bdtp1.toNat * 512 := by
  simp only [bdtBase, BitVec.toNat_append, BitVec.toNat_ofNat, Nat.zero_mod, Nat.or_zero]
  rw [← Nat.shiftLeft_add_eq_or_of_lt s.bdtp2.isLt, ← Nat.shiftLeft_add_eq_or_of_lt s.bdtp1.isLt]
  simp only [Nat.shiftLeft_eq]
  omega

/-- Settles O18: each write takes one byte of the address, and the base is read off those bytes. -/
theorem setBaseGivesTheBase : Obligations.SetBaseGivesTheBase := by
  intro s a
  have h1 : BitVec.ofNat 32 (a.toNat / 256 % 256) = (a.extractLsb' 8 8).setWidth 32 := ofNat_div_eq_extract a 8
  have h2 : BitVec.ofNat 32 (a.toNat / 65536 % 256) = (a.extractLsb' 16 8).setWidth 32 := ofNat_div_eq_extract a 16
  have h3 : BitVec.ofNat 32 (a.toNat / 16777216) = (a.extractLsb' 24 8).setWidth 32 := by
    rw [← ofNat_div_eq_extract a 24, Nat.mod_eq_of_lt (by omega)]; rfl
  simp only [h1, h2, h3, exec, execWrBdtp1, execWrBdtp2, execWrBdtp3, writeReg_byte, andThen_of_next]
  refine ⟨_, rfl, rfl, ?_⟩
  simp only [bdtBase_toNat, BitVec.extractLsb'_toNat, Nat.shiftRight_eq_div_pow]
  omega

/-! ## Hand-over operations write by write -/

/-- A hand-over operation whose accesses are steps of their own makes its first write and keeps the others (log 15). -/
theorem handOver_fine {s t : State} (hf : s.fine = true) {w : MemAccess} {ws : List MemAccess} (hw : memAccess w s = .next t) :
    handOver (w :: ws) s = .next { t with pending := ws } :=
  calc handOver (w :: ws) s = memAccess w { s with pending := ws } := if_pos hf
    _ = _ := by rw [memAccess_withPending, hw, andThen_of_next]

theorem handOver_whole {s : State} (hf : s.fine = false) (ws : List MemAccess) : handOver ws s = allWrites ws s := by
  rw [handOver, hf, if_neg Bool.false_ne_true]

/-- Software's next turn makes the write at the head of those still to make. -/
theorem writesRun_cons {s t : State} {w : MemAccess} (hw : memAccess w s = .next t) (k : Nat) (ws : List MemAccess) :
    writesRun (k + 1) { s with pending := w :: ws } = writesRun k { t with pending := ws } :=
  calc writesRun (k + 1) { s with pending := w :: ws }
      = andThen (memAccess w { s with pending := ws }) (writesRun k) := if_neg (List.cons_ne_nil w ws)
    _ = _ := by rw [memAccess_withPending, hw, andThen_of_next, andThen_of_next]

/-! ## Arming -/

theorem dataFlags_toNat (t s : Bool) : (dataFlags t s).toNat = 128 + 64 * natOfBool t + 8 * natOfBool s := by
  cases t <;> cases s <;> rfl

theorem stallFlags_toNat (t s : Bool) : (stallFlags t s).toNat = 128 + 64 * natOfBool t + 8 * natOfBool s + 4 := by
  cases t <;> cases s <;> rfl

theorem bitAt_dataFlags_uown (t s : Bool) : bitAt 16 (dataFlags t s) 7 = true := by
  cases t <;> cases s <;> rfl

theorem bitAt_stallFlags_uown (t s : Bool) : bitAt 16 (stallFlags t s) 7 = true := by
  cases t <;> cases s <;> rfl

/-- The three arming operations differ in the flag word alone (30_encoding.md R108). -/
theorem exec_arming {ep : Fin 16} {dir : Dir} {odd : Bool} {n : Half} {a : Word} {tg d : Bool} {i : Instr} (s : State)
    (hi : i = .arm ep dir odd n a tg d ∨ i = .stallOverride ep dir odd n a tg d ∨ i = .armStall ep dir odd n a tg d) :
    ∃ flags, exec i s = handOver (armWrites (bdAddr (bdtBase s) ep dir odd) n a flags) s ∧ bitAt 16 flags 7 = true ∧
      flags.toNat =
        128 + 64 * natOfBool tg + 8 * natOfBool d + 4 * natOfBool (decide (i = .armStall ep dir odd n a tg d)) := by
  rcases hi with rfl | rfl | rfl
  · exact ⟨dataFlags tg d, rfl, bitAt_dataFlags_uown tg d, dataFlags_toNat tg d⟩
  · exact ⟨dataFlags tg d, rfl, bitAt_dataFlags_uown tg d, dataFlags_toNat tg d⟩
  · exact ⟨stallFlags tg d, rfl, bitAt_stallFlags_uown tg d, by rw [stallFlags_toNat, decide_eq_true rfl]; rfl⟩

/-- Writes to memory and to the list of writes still to make change nothing else. -/
theorem withPending_frame {s t : State} (h : t = { s with mem := t.mem }) (p : List MemAccess) :
    { t with pending := p } = { s with mem := t.mem, pending := p } := by
  rw [h]

/-- An arming operation whose accesses are steps of their own writes the count itself; two turns of software write the address
and, last, the flags. -/
theorem handOver_armWrites {s : State} (hf : s.fine = true) {bd : Nat} (h : bd + 8 ≤ 2 ^ 32) (n : Half) (a : Word)
    (flags : Half) : ∃ v w, handOver (armWrites bd n a flags) s = .next v ∧ writesRun 1 v = .next w ∧
      writesRun 2 v = .next { armedState bd n a flags s with pending := [] } ∧
      v = { s with mem := v.mem, pending := v.pending } ∧ v.pending.length = 2 ∧ readHalf v (bd + 2) = n ∧
      (∀ b, (b < bd + 2 ∨ bd + 4 ≤ b) → readByte v b = readByte s b) ∧
      w = { s with mem := w.mem, pending := w.pending } ∧ w.pending.length = 1 ∧ readWord w (bd + 4) = a ∧
      (∀ b, (b < bd + 4 ∨ bd + 8 ≤ b) → readByte w b = readByte v b) := by
  have hcount := memAccess_write16 (a := bd + 2) (by omega) n s
  have haddr := memAccess_write32 (a := bd + 4) (by omega) a (storeHalf s (bd + 2) n)
  have hflags : memAccess (write16 bd flags) (storeWord (storeHalf s (bd + 2) n) (bd + 4) a) =
      .next (armedState bd n a flags s) := memAccess_write16 (by omega) flags _
  have hframe : storeWord (storeHalf s (bd + 2) n) (bd + 4) a =
      { s with mem := (storeWord (storeHalf s (bd + 2) n) (bd + 4) a).mem } := by
    rw [storeWord_frame, storeHalf_frame s]
  obtain ⟨hread, hkeep⟩ := storeHalf_reads (bd + 2) n s
  exact ⟨_, _, handOver_fine hf hcount, writesRun_cons haddr 0 _,
    (writesRun_cons haddr 1 _).trans (writesRun_cons hflags 0 []), rfl, rfl, hread, fun b hb => hkeep b (by omega),
    withPending_frame hframe _, rfl, readWord_storeWord (storeHalf s (bd + 2) n) (bd + 4) a, fun b hb =>
      readByte_storeBytes_outside (storeHalf s (bd + 2) n) (bd + 4) (wordBytes a) (by rw [length_wordBytes]; omega)⟩

/-- Settles O21: both forms make the writes of `armedState`, with the flag word of the operation. -/
theorem armWritesTheDescriptor : Obligations.ArmWritesTheDescriptor := by
  intro s ep dir odd n a tg d i bd hi hbd
  obtain ⟨flags, hexec, huown, hflags⟩ := exec_arming s hi
  have hfit := bdAddr_bdtBase_lt s ep dir odd
  rw [← hbd] at hexec hfit
  obtain ⟨hf, hn, ha, hrest⟩ := armedState_reads bd n a flags s
  refine ⟨armedState bd n a flags s, armedState_frame .., by rw [hf, hflags], hn, ha, ?_, hrest,
    fun hwhole => ?_, fun hfine => ?_⟩
  · rw [ownedByEngine_eq, bdtBase_armedState, ← hbd, hf, huown]
  · rw [hexec, handOver_whole hwhole, allWrites_armWrites hfit]
  · rw [hexec]
    exact handOver_armWrites hfine hfit n a flags

/-! ## Giving back -/

theorem bdAddr_odd (base : Word) (ep : Fin 16) (dir : Dir) : bdAddr base ep dir true = bdAddr base ep dir false + 8 := by
  simp only [bdAddr, bdIndex, natOfBool, if_true, Bool.false_eq_true, if_false]
  omega

theorem word_eq_word0 (b0 b1 b2 b3 : Byte) : word b0 b1 b2 b3 = word0 (half b2 b3) (half b0 b1) :=
  (BitVec.append_assoc (x₁ := b3 ++ b2) (x₂ := b1) (x₃ := b0)).trans (BitVec.cast_eq _ _)

/-- Word 0 of a descriptor is its count above its flags (30_encoding.md R93). -/
theorem readWord_eq_word0 (s : State) (a : Nat) : readWord s a = word0 (readHalf s (a + 2)) (readHalf s a) :=
  word_eq_word0 ..

theorem readWord_initState (bd : Nat) (s : State) : readWord (initState bd s) bd = 0#32 := by
  obtain ⟨hflags, hcount, -⟩ := initState_reads bd s
  rw [readWord_eq_word0, hflags, hcount]
  rfl

theorem readWord_initState_outside {bd b : Nat} (h : b + 4 ≤ bd ∨ bd + 4 ≤ b) (s : State) :
    readWord (initState bd s) b = readWord s b := by
  rw [initState, storeHalf, readWord_storeBytes_outside (by rw [length_halfBytes]; omega), storeHalf,
    readWord_storeBytes_outside (by rw [length_halfBytes]; omega)]

/-- A descriptor whose word 0 is zero is software's (41_descriptor_ops.md R169). -/
theorem ownedByEngine_of_zero {s : State} {ep : Fin 16} {dir : Dir} {odd : Bool}
    (h : readWord s (bdAddr (bdtBase s) ep dir odd) = 0#32) : ownedByEngine s ep dir odd = false := by
  have hflags : readHalf s (bdAddr (bdtBase s) ep dir odd) = flagsOf 0#32 := by rw [← h, readWord_eq_word0, flagsOf_word0]
  rw [ownedByEngine_eq, hflags]
  rfl

/-- A pair of descriptors after the writes of BDINIT, the even one at `bd`. -/
def initPair (bd : Nat) (s : State) : State :=
  initState (bd + 8) (initState bd s)

theorem initPair_frame (bd : Nat) (s : State) : initPair bd s = { s with mem := (initPair bd s).mem } := by
  rw [initPair, initState_frame (bd + 8), initState_frame bd]

theorem bdtBase_initPair (bd : Nat) (s : State) : bdtBase (initPair bd s) = bdtBase s := by
  rw [initPair, bdtBase_initState, bdtBase_initState]

theorem allWrites_initPair {bd : Nat} (h : bd + 8 + 8 ≤ 2 ^ 32) (s : State) :
    allWrites (initWrites bd ++ initWrites (bd + 8)) s = .next (initPair bd s) := by
  rw [allWrites_append, allWrites_initWrites (by omega), andThen_of_next, allWrites_initWrites h, initPair]

theorem readWord_initPair (bd : Nat) (s : State) :
    readWord (initPair bd s) bd = 0#32 ∧ readWord (initPair bd s) (bd + 8) = 0#32 := by
  refine ⟨?_, readWord_initState ..⟩
  rw [initPair, readWord_initState_outside (by omega), readWord_initState]

theorem readByte_initPair {bd b : Nat} (h0 : b < bd ∨ bd + 4 ≤ b) (h1 : b < bd + 8 ∨ bd + 8 + 4 ≤ b) (s : State) :
    readByte (initPair bd s) b = readByte s b := by
  obtain ⟨-, -, heven⟩ := initState_reads bd s
  obtain ⟨-, -, hodd⟩ := initState_reads (bd + 8) (initState bd s)
  rw [initPair, hodd b h1, heven b h0]

/-- BDINIT whose accesses are steps of their own zeroes the even flags itself; three turns of software come to the rest. -/
theorem handOver_initPair {s : State} (hf : s.fine = true) {bd : Nat} (h : bd + 8 + 8 ≤ 2 ^ 32) :
    ∃ v, handOver (initWrites bd ++ initWrites (bd + 8)) s = .next v ∧
      writesRun 3 v = .next { initPair bd s with pending := [] } ∧
      v = { s with mem := v.mem, pending := v.pending } ∧ v.pending.length = 3 ∧ readHalf v bd = 0#16 ∧
      ∀ b, (b < bd ∨ bd + 2 ≤ b) → readByte v b = readByte s b := by
  have heven := memAccess_write16 (a := bd) (by omega) 0#16 s
  have hcount : memAccess (write16 (bd + 2) 0#16) (storeHalf s bd 0#16) = .next (initState bd s) :=
    memAccess_write16 (by omega) 0#16 _
  have hflags := memAccess_write16 (a := bd + 8) (by omega) 0#16 (initState bd s)
  have hlast : memAccess (write16 (bd + 8 + 2) 0#16) (storeHalf (initState bd s) (bd + 8) 0#16) = .next (initPair bd s) :=
    memAccess_write16 (by omega) 0#16 _
  obtain ⟨hread, hkeep⟩ := storeHalf_reads bd 0#16 s
  exact ⟨_, handOver_fine hf heven,
    (writesRun_cons hcount 2 _).trans ((writesRun_cons hflags 1 _).trans (writesRun_cons hlast 0 [])), rfl, rfl, hread, hkeep⟩

/-- Settles O22: RECLAIM is one write, and BDINIT in both forms makes the writes of `initState` on each descriptor. -/
theorem reclaimAndInit : Obligations.ReclaimAndInit := by
  intro s ep dir
  refine ⟨fun odd => ?_, ?_⟩
  · have hfit := bdAddr_bdtBase_lt s ep dir odd
    obtain ⟨hread, hkeep⟩ := storeHalf_reads (bdAddr (bdtBase s) ep dir odd) 0#16 s
    refine ⟨_, memAccess_write16 (by omega) 0#16 s, rfl, hread, ?_, hkeep⟩
    exact (ownedByEngine_eq ..).trans (congrArg (bitAt 16 · 7) hread)
  · have hodd := bdAddr_odd (bdtBase s) ep dir
    have hfit := bdAddr_bdtBase_lt s ep dir true
    have hinit : exec (.bdInit ep dir) s = handOver (initWrites (bdAddr (bdtBase s) ep dir false) ++
      initWrites (bdAddr (bdtBase s) ep dir true)) s := rfl
    obtain ⟨heven, hhigh⟩ := readWord_initPair (bdAddr (bdtBase s) ep dir false) s
    have hzero : ∀ odd, readWord (initPair (bdAddr (bdtBase s) ep dir false) s) (bdAddr (bdtBase s) ep dir odd) = 0#32 := by
      intro odd
      cases odd with
      | false => exact heven
      | true => rw [hodd]; exact hhigh
    rw [hodd] at hfit hinit
    refine ⟨initPair (bdAddr (bdtBase s) ep dir false) s, initPair_frame _ s,
      fun odd => ⟨hzero odd, ownedByEngine_of_zero (by rw [bdtBase_initPair]; exact hzero odd)⟩,
      fun b hb => ?_, fun hwhole => ?_, fun hfine => ?_⟩
    · have hb1 := hb true
      rw [hodd] at hb1
      exact readByte_initPair (hb false) hb1 s
    · rw [hinit, handOver_whole hwhole, allWrites_initPair hfit]
    · rw [hinit]
      exact handOver_initPair hfine hfit

end Sys2Proof.Machine
end

section
/-! SUPPORT. The register operations (40_register_ops.md): what a read gives as a number, what a write stores or refuses, and what a
token samples of the registers. -/

namespace Sys2Proof.Machine

/-! ## Reads -/

/-- A read gives its byte, zero-extended, and changes nothing else (R118). -/
theorem readReg_of_toNat {b : Byte} {n : Nat} (h : b.toNat = n) (s : State) :
    readReg b s = .next { s with rdata := BitVec.ofNat 32 n } := by
  have hvalue : readValue b = BitVec.ofNat 32 n := by rw [← h, ← toNat_readValue, BitVec.ofNat_toNat, BitVec.setWidth_eq]
  rw [readReg, hvalue, setRdata]

theorem toNat_zeros_append {n : Nat} (m : Nat) (x : BitVec n) : (0#m ++ x).toNat = x.toNat := by
  rw [BitVec.toNat_append, BitVec.toNat_ofNat, Nat.zero_mod, Nat.zero_shiftLeft, Nat.zero_or]

theorem toNat_append_zero {n : Nat} (x : BitVec n) : (x ++ 0#1).toNat = 2 * x.toNat := by
  rw [BitVec.toNat_append, BitVec.toNat_ofNat, Nat.zero_mod, Nat.or_zero, Nat.shiftLeft_eq, pow_one, Nat.mul_comm]

theorem toNat_bit (b : Bool) : (bit b).toNat = natOfBool b := by
  cases b <;> rfl

/-- The value of an endpoint control register, its fields at bits 4:0 (10_state.md R23). -/
theorem epByte_toNat (e : EpCtl) :
    (epByte e).toNat = natOfBool e.ephshk + 2 * natOfBool e.epstall + 4 * natOfBool e.eptxen + 8 * natOfBool e.eprxen
      + 16 * natOfBool e.epcondis := by
  obtain ⟨ephshk, epstall, eptxen, eprxen, epcondis⟩ := e
  revert ephshk epstall eptxen eprxen epcondis
  decide

/-- STAT is the index of the retired descriptor at bits 7:2 (30_encoding.md R97). -/
theorem statOf_toNat (e : Entry) : (statOf e).toNat = 4 * bdIndex e.ep e.dir e.odd := by
  obtain ⟨ep, dir, odd⟩ := e
  revert ep odd
  cases dir <;> decide

theorem trnif_eq_decide (s : State) : trnif s = decide (0 < s.fifo.length) := by
  cases h : s.fifo <;> simp [trnif, h]

/-- The modelled bits of CON (R124); bits 7:6 are drawn. -/
theorem conByte_bits (s : State) (d : Byte) : (conByte s d).getLsbD 0 = s.usben ∧
    (∀ j, 1 ≤ j → j ≤ 4 → (conByte s d).getLsbD j = false) ∧ (conByte s d).getLsbD 5 = s.pktdis := by
  refine ⟨?_, fun j h1 h4 => ?_, ?_⟩
  · simp only [conByte, bit, BitVec.getLsbD_append, BitVec.getLsbD_ofBool, Nat.one_pos, if_true, decide_true, Bool.true_and]
  · have hlow : ¬j < 1 := by omega
    have hfield : j - 1 < 4 := by omega
    simp only [conByte, BitVec.getLsbD_append, hlow, hfield, if_false, if_true, BitVec.getLsbD_zero]
  · simp only [conByte, bit, BitVec.getLsbD_append, BitVec.getLsbD_ofBool]
    rfl

/-- With an empty queue STAT is a drawn byte, and the draw is used up (R136, log 7). -/
theorem execRdStat_empty {s : State} (h : s.fifo = []) : execRdStat s = readDrawn statByte s := by
  simp only [execRdStat, h]

theorem execRdStat_head {s : State} {e : Entry} {rest : List Entry} (h : s.fifo = e :: rest) :
    execRdStat s = readReg (statOf e) s := by
  simp only [execRdStat, h]

/-- Settles O13: the head of the queue as STAT shows it is four times the index of its descriptor. -/
theorem statusRead : Obligations.StatusRead := by
  refine fun s => ⟨fun e rest hq => ?_, fun hq => ?_⟩
  · have hstat : (readValue (statOf e)).toNat = 4 * bdIndex e.ep e.dir e.odd := (toNat_readValue _).trans (statOf_toNat e)
    refine ⟨_, execRdStat_head hq, rfl, hstat.trans ?_, ?_⟩
    · simp only [bdIndex]
      omega
    · have hindex : (readValue (statOf e)).toNat / 4 = bdIndex e.ep e.dir e.odd := by omega
      exact congrArg (fun i => (bdtBase s).toNat + 8 * i) hindex
  · exact ⟨_, execRdStat_empty hq, rfl, readValue_lt _⟩

/-- Settles O9: the byte of each register as a number. -/
theorem plainRegisterReads : Obligations.PlainRegisterReads := fun s =>
  ⟨readReg_of_toNat ((toNat_zeros_append 7 _).trans (toNat_bit _)) s, readReg_of_toNat (toNat_zeros_append 1 _) s,
    readReg_of_toNat rfl s, readReg_of_toNat rfl s, readReg_of_toNat (toNat_append_zero _) s, readReg_of_toNat rfl s,
    readReg_of_toNat rfl s⟩

/-- Settles O10: the byte of the endpoint register as a number. -/
theorem endpointRegisterRead : Obligations.EndpointRegisterRead := fun s _ => readReg_of_toNat (epByte_toNat _) s

/-- Settles O11: the byte as it stands, which the invariant fixes. -/
theorem otgconReadsZero : Obligations.OtgconReadsZero := fun s =>
  ⟨readReg_of_toNat rfl s, fun h => readReg_zero h.otgcon s⟩

/-- Settles O12: the bits of the two bytes hold for every drawn byte. -/
theorem controlAndFlagReads : Obligations.ControlAndFlagReads := by
  refine fun s => ⟨⟨_, rfl, rfl, ?_⟩, ⟨_, rfl, rfl, ?_⟩⟩
  · obtain ⟨husben, hzero, hpktdis⟩ := conByte_bits s (Config.freeBits s.draws)
    simp only [getLsbD_readValue]
    exact ⟨husben, hzero, hpktdis, readValue_lt _⟩
  · obtain ⟨htrnif, hurstif, hstallif⟩ := irByte_bits s (Config.freeBits s.draws)
    exact ⟨hurstif, htrnif.trans (trnif_eq_decide s), hstallif, readValue_lt _⟩

/-! ## Writes -/

/-- A field inside the byte written is the field of the value. -/
theorem extract_lowByte (v : Word) {a n : Nat} (h : a + n ≤ 8) : (lowByte v).extractLsb' a n = v.extractLsb' a n :=
  BitVec.extractLsb'_extractLsb'_of_le h

/-- The fields of an endpoint control register in a written value (10_state.md R23). -/
theorem epOfBits_extract (v : Word) : epOfBits (v.extractLsb' 0 5) =
    { ephshk := v.getLsbD 0, epstall := v.getLsbD 1, eptxen := v.getLsbD 2, eprxen := v.getLsbD 3, epcondis := v.getLsbD 4 } := by
  simp only [epOfBits, bitAt, BitVec.getLsbD_extractLsb', Nat.zero_add]
  rfl

/-- A register whose reserved bits are the `n` bits from `a` up stores where they are 0 and refuses where one is 1 (R118). -/
theorem writeReg_reserved {mask : Byte} {a n : Nat}
    (hmask : ∀ i, i < 8 → mask.getLsbD i = (decide (a ≤ i) && decide (i < a + n))) (han : a + n ≤ 8) (v : Word)
    (f : State → Byte → State) (s : State) :
    (v.extractLsb' a n = 0#n → writeReg mask v f s = .next (f s (lowByte v))) ∧
      (v.extractLsb' a n ≠ 0#n → writeReg mask v f s = .refused .reservedRegisterBit) :=
  ⟨fun h => writeReg_of_clear f s ((lowByte_and_mask hmask han v).2 h),
    fun h => writeReg_of_set f s fun hz => h ((lowByte_and_mask hmask han v).1 hz)⟩

theorem extract_one_eq_zero_iff (v : Word) (a : Nat) : v.extractLsb' a 1 = 0#1 ↔ v.getLsbD a = false := by
  rw [extract_eq_zero_iff]
  exact ⟨fun h => h 0 Nat.one_pos, fun h i hi => by rwa [Nat.lt_one_iff.1 hi]⟩

/-- Settles O14: no bit is reserved, and the byte written is the low byte of the value. -/
theorem plainRegisterWrites : Obligations.PlainRegisterWrites := by
  intro s v
  have hbyte : v.extractLsb' 0 8 = lowByte v := rfl
  have hfield : v.extractLsb' 1 7 = (lowByte v).extractLsb' 1 7 := (extract_lowByte v (by decide)).symm
  simp only [exec, execWrIe, execWrStat, execWrBdtp1, execWrBdtp2, execWrBdtp3, writeReg_zero_mask, hbyte, hfield, and_self]

/-! Each guarded register stores its fields or refuses, by its reserved bits (R121, R123, R127, R129). -/

theorem exec_wrEp_cases (s : State) (v : Word) (n : Fin 16) :
    (v.extractLsb' 5 3 = 0#3 → exec (.wrEp n v) s = .next (setEp s n (epOfBits (v.extractLsb' 0 5)))) ∧
      (v.extractLsb' 5 3 ≠ 0#3 → exec (.wrEp n v) s = .refused .reservedRegisterBit) := by
  rw [← extract_lowByte v (a := 0) (n := 5) (by decide)]
  simp only [exec, execWrEp]
  exact writeReg_reserved (mask := 0xE0#8) (a := 5) (n := 3) (by decide) (by decide) v _ s

theorem exec_wrPwrc_cases (s : State) (v : Word) :
    (v.extractLsb' 1 7 = 0#7 → exec (.wrPwrc v) s = .next { s with usbpwr := v.getLsbD 0 }) ∧
      (v.extractLsb' 1 7 ≠ 0#7 → exec (.wrPwrc v) s = .refused .reservedRegisterBit) := by
  rw [← bitAt_lowByte v (i := 0) (by decide)]
  simp only [exec, execWrPwrc]
  exact writeReg_reserved (mask := 0xFE#8) (a := 1) (n := 7) (by decide) (by decide) v _ s

theorem exec_wrAddr_cases (s : State) (v : Word) :
    (v.getLsbD 7 = false → exec (.wrAddr v) s = .next { s with devaddr := v.extractLsb' 0 7 }) ∧
      (v.getLsbD 7 = true → exec (.wrAddr v) s = .refused .reservedRegisterBit) := by
  rw [← extract_lowByte v (a := 0) (n := 7) (by decide), ← Bool.not_eq_false, ← extract_one_eq_zero_iff]
  simp only [exec, execWrAddr]
  exact writeReg_reserved (mask := 0x80#8) (a := 7) (n := 1) (by decide) (by decide) v _ s

theorem exec_wrOtgcon_cases (s : State) (v : Word) :
    (v.extractLsb' 0 8 = 0#8 → exec (.wrOtgcon v) s = .next { s with otgcon := 0#8 }) ∧
      (v.extractLsb' 0 8 ≠ 0#8 → exec (.wrOtgcon v) s = .refused .reservedRegisterBit) := by
  simp only [exec, execWrOtgcon]
  exact writeReg_reserved (mask := 0xFF#8) (a := 0) (n := 8) (by decide) (by decide) v _ s

/-- Settles O15: each register's reserved bits are one field of the value. -/
theorem guardedRegisterWrites : Obligations.GuardedRegisterWrites := by
  intro s v
  obtain ⟨hpwrc, hpwrcRefused⟩ := exec_wrPwrc_cases s v
  obtain ⟨haddr, haddrRefused⟩ := exec_wrAddr_cases s v
  obtain ⟨hotgcon, hotgconRefused⟩ := exec_wrOtgcon_cases s v
  refine ⟨fun n => ?_, fun h => ⟨hpwrc h, rfl⟩, hpwrcRefused, haddr, haddrRefused, hotgcon, hotgconRefused⟩
  rw [← epOfBits_extract]
  exact exec_wrEp_cases s v n

/-- Settles O16: PKTDIS is kept or cleared by bit 5, once the reserved bits are 0. -/
theorem controlWrite : Obligations.ControlWrite := by
  intro s v
  obtain ⟨hstore, hrefused⟩ : (v.extractLsb' 1 4 = 0#4 → exec (.wrCon v) s = .next (writeCon s (lowByte v))) ∧
      (v.extractLsb' 1 4 ≠ 0#4 → exec (.wrCon v) s = .refused .reservedRegisterBit) :=
    writeReg_reserved (mask := 0x1E#8) (a := 1) (n := 4) (by decide) (by decide) v _ s
  have hcon : writeCon s (lowByte v) = { s with usben := v.getLsbD 0, pktdis := s.pktdis && v.getLsbD 5 } := by
    rw [writeCon, bitAt_lowByte v (by decide), bitAt_lowByte v (by decide)]
  refine ⟨fun h h5 => ?_, fun h h5 => ?_, hrefused⟩
  · rw [hstore h, hcon, h5, Bool.and_false]
  · rw [hstore h, hcon, h5, Bool.and_true]

/-- Settles O17: each bit of the value clears or keeps its own flag, and bit 3 pops the queue. -/
theorem writeOneToClear : Obligations.WriteOneToClear := by
  intro s v
  refine ⟨⟨clearIr s (lowByte v), writeReg_zero_mask v clearIr s, rfl, ?_⟩,
    ⟨clearEir s (lowByte v), writeReg_zero_mask v clearEir s, rfl, fun j hj => ?_⟩⟩
  · have hbit : ∀ i, i < 8 → bitAt 8 (lowByte v) i = v.getLsbD i := fun i hi => bitAt_lowByte v hi
    rw [clearIr_urstif, clearIr_stallif, clearIr_fifo, hbit 0 (by decide), hbit 7 (by decide), hbit 3 (by decide)]
    exact ⟨fun h => by rw [h, Bool.not_true, Bool.and_false], fun h => by rw [h, Bool.not_false, Bool.and_true],
      fun h => by rw [h, Bool.not_true, Bool.and_false], fun h => by rw [h, Bool.not_false, Bool.and_true],
      fun h => by rw [if_pos h, List.drop_one], fun h => if_neg (by rw [h]; exact Bool.false_ne_true)⟩
  · rw [clearEir_eir, BitVec.getLsbD_and, BitVec.getLsbD_not, getLsbD_lowByte, decide_eq_true hj, Bool.true_and, Bool.true_and]

/-! ## What a token samples -/

/-- With the accesses as steps of their own, a token that passes its checks only fills the latch (R119, R145, log 1). -/
theorem tokenOp_samples {s : State} {k : Kind} {addr : BitVec 7} {ep : Fin 16} (h : tokenPasses s k addr ep)
    (hfine : s.fine = true) (tg : Bool) (p : List Byte) (ack : Bool) :
    tokenOp k addr ep tg p ack s = .next { s with txn := some (newTxn s k ep tg p ack) } := by
  simp only [tokenOp, tokenChecks_of_passes h, hfine, if_true]

/-- Settles O40: a token's operands are those of its kind, and its latch is that of `newTxn`. -/
theorem tokenSamplesRegisters : Obligations.TokenSamplesRegisters := by
  intro s k addr ep tg p ack h hfine
  cases k with
  | out => exact tokenOp_samples h hfine tg p false
  | inn => exact tokenOp_samples h hfine false [] ack
  | setup => exact tokenOp_samples h hfine tg p false

end Sys2Proof.Machine
end

section
/-! SUPPORT. The engine's own operations on a descriptor (41_descriptor_ops.md): what FETCH reads in word 0, a result word where the
completion is next, a word without a command, and a stall command. -/

namespace Sys2Proof

/-! ## The fields of word 0 -/

theorem bitAt_flagsOf (w : Word) {i : Nat} (h : i < 16) : bitAt 16 (flagsOf w) i = w.getLsbD i := by
  rw [bitAt, flagsOf, BitVec.getLsbD_extractLsb', decide_eq_true h, Bool.true_and, Nat.zero_add]

theorem extract_flagsOf (w : Word) {k n : Nat} (h : k + n ≤ 16) : (flagsOf w).extractLsb' k n = w.extractLsb' k n := by
  rw [flagsOf, BitVec.extractLsb'_extractLsb'_of_le h]

theorem countOf_eq_ofNat (w : Word) : countOf w = BitVec.ofNat 16 (w.toNat / 65536) :=
  congrArg (BitVec.ofNat 16) (Nat.shiftRight_eq_div_pow w.toNat 16)

theorem countOf_toNat (w : Word) : (countOf w).toNat = w.toNat / 65536 := by
  have hw := w.isLt
  rw [countOf_eq_ofNat, BitVec.toNat_ofNat, Nat.mod_eq_of_lt (by omega)]

/-- FETCH's tests, in the bits of word 0 itself (41_descriptor_ops.md R168). -/
theorem fetchCommand_eq (w : Word) : fetchCommand w =
    if w.getLsbD 7 = false then .ok .idle
    else if w.extractLsb' 8 8 ≠ 0#8 ∨ w.extractLsb' 0 2 ≠ 0#2 then .error .reservedFlags
    else if w.getLsbD 5 = true ∨ w.getLsbD 4 = true then .error .keepOrNinc
    else if 1023 < w.toNat / 65536 then .error .countTooLarge
    else .ok (if w.getLsbD 2 = true
      then .stall (w.getLsbD 6) (w.getLsbD 3) (BitVec.ofNat 16 (w.toNat / 65536))
      else .data (w.getLsbD 6) (w.getLsbD 3) (BitVec.ofNat 16 (w.toNat / 65536))) := by
  rw [← countOf_eq_ofNat, ← countOf_toNat]
  simp (disch := decide) only [fetchCommand, bitAt_flagsOf, extract_flagsOf, apply_ite Except.ok, maxCount]

end Sys2Proof

namespace Sys2Proof.Machine

/-! ## FETCH -/

/-- The descriptor of a transaction lies at its place in the table sampled with the token (20_memory.md R62). -/
theorem txnBd_eq (x : Txn) (odd : Bool) :
    txnBd x odd = x.base.toNat + 32 * x.ep.val + 16 * natOfBool (dirBit (dirOf x.kind)) + 8 * natOfBool odd := by
  simp only [txnBd, bdAddr, bdIndex]
  omega

/-- FETCH fills the latch with a word it can read, and refuses by name any other (R168). -/
theorem exec_fetch {s : State} {x : Txn} {odd : Bool} {w0 : Word} (hx : s.txn = some x) (hp : x.phase = .fetch)
    (hodd : odd = ppbi s x.ep (dirOf x.kind)) (hw : w0 = readWord s (txnBd x odd)) :
    (∀ c, fetchCommand w0 = .ok c → exec .fetch s = .next (setPhase s x (.command odd w0))) ∧
      ∀ e, fetchCommand w0 = .error e → exec .fetch s = .refused (.decode e) := by
  subst hodd hw
  have hexec : exec .fetch s = fetchStep s x := by simp only [exec, execFetch, hx, hp]
  exact ⟨fun c hc => by simp only [hexec, fetchStep, hc], fun e he => by simp only [hexec, fetchStep, he]⟩

/-- Settles O24: the tests of FETCH in the rule's order, and the latch or the refusal each leads to. -/
theorem fetchReadsTheCommand : Obligations.FetchReadsTheCommand := by
  intro s x odd w0 hx hp hodd hw
  obtain ⟨reads, refuses⟩ := exec_fetch hx hp hodd (hw.trans (congrArg (readWord s) (txnBd_eq x odd).symm))
  have filled : ∀ {c}, fetchCommand w0 = .ok c →
      exec .fetch s = .next (setPhase s x (.command odd w0)) ∧ fetchCommand w0 = .ok c := fun hc => ⟨reads _ hc, hc⟩
  have tests := fetchCommand_eq w0
  have reserved : w0.extractLsb' 8 8 = 0#8 → w0.extractLsb' 0 2 = 0#2 →
      ¬(w0.extractLsb' 8 8 ≠ 0#8 ∨ w0.extractLsb' 0 2 ≠ 0#2) := fun hh hl => not_or.2 ⟨not_not.2 hh, not_not.2 hl⟩
  have keepOrNinc : w0.getLsbD 5 = false → w0.getLsbD 4 = false → ¬(w0.getLsbD 5 = true ∨ w0.getLsbD 4 = true) :=
    fun h5 h4 => not_or.2 ⟨ne_true_of_eq_false h5, ne_true_of_eq_false h4⟩
  refine ⟨fun h7 => filled ?_, fun h7 hr => refuses _ ?_, fun h7 hh hl hk => refuses _ ?_,
    fun h7 hh hl h5 h4 hn => refuses _ ?_, fun h7 hh hl h5 h4 hn => filled ?_⟩
  · rw [tests, if_pos h7]
  · rw [tests, if_neg (ne_false_of_eq_true h7), if_pos hr]
  · rw [tests, if_neg (ne_false_of_eq_true h7), if_neg (reserved hh hl), if_pos hk]
  · rw [tests, if_neg (ne_false_of_eq_true h7), if_neg (reserved hh hl), if_neg (keepOrNinc h5 h4), if_pos hn]
  · rw [tests, if_neg (ne_false_of_eq_true h7), if_neg (reserved hh hl), if_neg (keepOrNinc h5 h4), if_neg hn.not_gt]

/-! ## Result words and idle words -/

/-- The four names of a result word are one operation (41_descriptor_ops.md R164). -/
theorem exec_resultWord {i : Instr} {tg : Bool} {k : Kind} {n : Half}
    (hi : i = .bdDone tg k n ∨ (k = .out ∧ i = .bdDoneOut tg n) ∨ (k = .inn ∧ i = .bdDoneIn tg n) ∨
      (k = .setup ∧ i = .bdDoneSetup tg n)) (s : State) : exec i s = resultCommand tg k n s := by
  obtain rfl | ⟨rfl, rfl⟩ | ⟨rfl, rfl⟩ | ⟨rfl, rfl⟩ := hi <;> rfl

theorem resultCommand_done {s : State} {x : Txn} {odd : Bool} {m : Half} {v : Bool} (hx : s.txn = some x)
    (hp : x.phase = .done odd m v) (tg : Bool) (k : Kind) (n : Half) :
    resultCommand tg k n s = .next (finish (retireOp x.base x.ep (dirOf x.kind) odd n tg k s)
      (if k = .inn then s.resp else ackOrNone x.ctl)) := by
  simp only [resultCommand, retireStep, hx, hp]

/-- Settles O26: the completion step of the transaction's own descriptor, which stores no packet. -/
theorem resultWordCompletes : Obligations.ResultWordCompletes := by
  intro s x odd m v n tg k i hx hp hi
  exact ⟨_, (exec_resultWord hi s).trans (resultCommand_done hx hp tg k n), completed_finish s _ _ _ _ _ _ _ 0 [] _, rfl⟩

theorem idleCommand_of_command {s : State} {x : Txn} {odd : Bool} {w0 : Word} (hx : s.txn = some x)
    (hp : x.phase = .command odd w0) : idleCommand s = .next (finish s (nakOrNone x.ctl x.kind)) := by
  simp only [idleCommand, hx, hp]

/-- A result fetched as a command is BD.IDLE (41_descriptor_ops.md R162, log 6). -/
theorem resultCommand_of_command {s : State} {x : Txn} {odd : Bool} {w0 : Word} (hx : s.txn = some x)
    (hp : x.phase = .command odd w0) (tg : Bool) (k : Kind) (n : Half) : resultCommand tg k n s = idleCommand s := by
  simp only [resultCommand, hx, hp]

theorem nakOrNone_eq (e : EpCtl) (k : Kind) :
    nakOrNone e k = if k = .setup then .none else if e.ephshk then .nak else .none := by
  cases k <;> rfl

/-- Settles O27: a result is an idle word to the engine, and an idle word ends the transaction with NAK or no response. -/
theorem idleWordAnswers : Obligations.IdleWordAnswers := by
  intro s x odd w0 f n tg k i hx hp hi
  rw [← nakOrNone_eq]
  have hidle := idleCommand_of_command hx hp
  have hresult := fun k => (resultCommand_of_command hx hp tg k n).trans hidle
  obtain rfl | rfl | rfl | rfl | rfl := hi
  · exact hidle
  · exact hresult k
  · exact hresult .out
  · exact hresult .inn
  · exact hresult .setup

/-! ## The stall command -/

/-- Settles O28: at the command phase it arms the stall; to a SETUP it is a data command at every phase. -/
theorem stallCommand_holds : Obligations.StallCommand := fun _ _ tg d n hx =>
  ⟨fun _ _ hp hk => stallCommand_arms hx hp hk tg d n, fun hk => stallCommand_setup hx hk tg d n⟩

end Sys2Proof.Machine
end

section
/-! SUPPORT. Software's hand-over operations and the state of the endpoint (42_bus_transactions.md R215, 10_state.md R51). -/

namespace Sys2Proof.Machine

/-! ## Hand-over and the state of the endpoint -/

/-- The state a flag word gives an enabled direction that is not halted (10_state.md R51). -/
def flagState (f : Half) : EpState :=
  if bitAt 16 f 7 = false then .idle else if bitAt 16 f 2 then .stallArmed else .armed

theorem flagState_dataFlags (t s : Bool) : flagState (dataFlags t s) = .armed := by
  cases t <;> cases s <;> rfl

theorem flagState_stallFlags (t s : Bool) : flagState (stallFlags t s) = .stallArmed := by
  cases t <;> cases s <;> rfl

/-- The state of an enabled direction that is not halted is its flag word's, whatever else memory holds (10_state.md R51). -/
theorem epState_of_flags {s u : State} {ep : Fin 16} {dir : Dir} {f : Half} (hu : u = { s with mem := u.mem })
    (hon : dirEnabled s.ep[ep] dir = true) (hhalt : s.ep[ep].epstall = false)
    (hf : readHalf u (bdAddr (bdtBase s) ep dir (ppbi s ep dir)) = f) :
    epState u ep dir = flagState f := by
  have hep : u.ep = s.ep := by rw [hu]
  have hbase : bdtBase u = bdtBase s := by rw [hu]; rfl
  have hptr : ppbi u ep dir = ppbi s ep dir := ppbi_congr s u (by rw [hu]) (by rw [hu]) ep dir
  simp only [epState, flagState, hep, hbase, hptr, hf, hon, hhalt, Bool.true_eq_false, Bool.false_eq_true, if_false]

/-- An arming operation at the pointer, once all of its writes are made, leaves the state its flag word names. -/
theorem epState_of_arming {s u : State} {ep : Fin 16} {dir : Dir} {n : Half} {a : Word} {f : Half}
    (hon : dirEnabled s.ep[ep] dir = true) (hhalt : s.ep[ep].epstall = false) (hp : s.pending = [])
    (h : andThen (handOver (armWrites (bdAddr (bdtBase s) ep dir (ppbi s ep dir)) n a f) s) (writesRun 2) = .next u) :
    epState u ep dir = flagState f := by
  have hall := writesRun_handOver (armWrites (bdAddr (bdtBase s) ep dir (ppbi s ep dir)) n a f) s hp (Nat.le_refl 3)
  rw [hall, allWrites_armWrites (bdAddr_bdtBase_lt ..)] at h
  obtain rfl := Host.Outcome.next.inj h
  obtain ⟨hflags, -⟩ := armedState_reads (bdAddr (bdtBase s) ep dir (ppbi s ep dir)) n a f s
  exact epState_of_flags (armedState_frame ..) hon hhalt hflags

/-- Settles O23: each operation's flag word names the state it leaves. -/
theorem handOverMovesTheEndpointState : Obligations.HandOverMovesTheEndpointState := by
  intro s u ep dir n a tg d hon hhalt hp
  have armed : andThen (handOver (armWrites (bdAddr (bdtBase s) ep dir (ppbi s ep dir)) n a (dataFlags tg d)) s)
      (writesRun 2) = .next u → epState u ep dir = .armed := fun h =>
    (epState_of_arming hon hhalt hp h).trans (flagState_dataFlags tg d)
  refine ⟨armed, armed, fun h => (epState_of_arming hon hhalt hp h).trans (flagState_stallFlags tg d), fun h => ?_⟩
  have hfit := bdAddr_bdtBase_lt s ep dir (ppbi s ep dir)
  obtain rfl : storeHalf s (bdAddr (bdtBase s) ep dir (ppbi s ep dir)) 0#16 = u :=
    Host.Outcome.next.inj ((memAccess_write16 (by omega) 0#16 s).symm.trans h)
  exact epState_of_flags (f := 0#16) rfl hon hhalt (readHalf_storeHalf ..)

end Sys2Proof.Machine
end

section
/-! SUPPORT. The bus operations (42_bus_transactions.md): a data command run whole, the checks of a token in their order, the three
transactions, and the other bus events. -/

namespace Sys2Proof.Machine

/-! ## A data command run whole -/

theorem exec_bdData_whole {s : State} {x : Txn} {odd : Bool} {w0 : Word} (hx : s.txn = some x)
    (hp : x.phase = .command odd w0) (hf : s.fine = false) (tg d : Bool) (n : Half) :
    exec (.bdData tg d n) s = runData s x odd tg d n := by
  simp only [exec, execBdData, dataCommand, hx, hp, hf, Bool.false_eq_true, if_false]

/-- The answer to a packet under the wrong toggle, in the words of 42_bus_transactions.md R204. -/
theorem mismatchResponse_eq (c : Config) (e : EpCtl) : mismatchResponse c e =
    if e.ephshk then (if c.mismatch = .ack then .ack else .nak) else .none := by
  unfold mismatchResponse
  cases c.mismatch <;> rfl

theorem toggleRejected_eq_true {x : Txn} {tg : Bool} (hk : x.kind = .out) (ht : x.toggle ≠ tg) :
    toggleRejected x tg true = true := by
  simp [toggleRejected, hk, ht]

/-- A packet under the wrong toggle ends the transaction with an answer alone (R204). -/
theorem runData_rejected {s : State} {x : Txn} {odd tg : Bool} {n : Half} (hk : x.kind = .out) (ht : x.toggle ≠ tg) :
    runData s x odd tg true n = .next (finish s (mismatchResponse s.cfg x.ctl)) := by
  rw [runData, if_neg (by rw [hk]; decide), if_pos (toggleRejected_eq_true hk ht)]

/-- The toggle check is made before any access, so in both forms of a transaction alike. -/
theorem exec_bdData_rejected {s : State} {x : Txn} {odd : Bool} {w0 : Word} {tg : Bool} (hx : s.txn = some x)
    (hp : x.phase = .command odd w0) (hk : x.kind = .out) (ht : x.toggle ≠ tg) (n : Half) :
    exec (.bdData tg true n) s = .next (finish s (mismatchResponse s.cfg x.ctl)) := by
  cases hf : s.fine with
  | false => rw [exec_bdData_whole hx hp hf, runData_rejected hk ht]
  | true =>
    rw [exec_bdData_begins hx hp hf, beginData, if_pos ⟨by rw [hk]; decide, toggleRejected_eq_true hk ht⟩]

/-- Settles O29: the answer is `mismatchResponse`, case by case. -/
theorem toggleMismatch : Obligations.ToggleMismatch := by
  intro s x odd w0 tg n hx hp hk ht
  rw [exec_bdData_rejected hx hp hk ht, mismatchResponse_eq]
  refine ⟨fun hh hm => ?_, fun hh hm => ?_, fun hh => ?_⟩
  · rw [hh, hm]; rfl
  · rw [hh, hm]; rfl
  · rw [hh]; rfl

/-- `o` is what the data phase of an OUT or SETUP packet comes to, with the buffer at `a` and `n` bytes armed (R203, R205, R206,
R208). -/
structure Receives (s : State) (x : Txn) (odd : Bool) (a : Word) (n : Half) (o : Result) : Prop where
  stored : x.payload.length ≤ n.toNat → bufferFits s.cfg a n.toNat → ∃ u, o = .next u ∧
    Completed s u x.base x.ep .rx odd (BitVec.ofNat 16 x.payload.length) x.toggle x.kind a.toNat x.payload ∧
    u.resp = (if x.ctl.ephshk then .ack else .none) ∧ u.txn = none
  overrun : n.toNat < x.payload.length → o = .refused .overrun
  badBuffer : x.payload.length ≤ n.toNat → ¬bufferFits s.cfg a n.toNat → o = .refused .badBuffer

/-- A data command receives every packet its toggle check lets through. -/
theorem runData_receives {s : State} {x : Txn} {odd tg d : Bool} {a : Word} {n : Half}
    (hkind : x.kind = .setup ∨ (x.kind = .out ∧ (d = false ∨ x.toggle = tg)))
    (ha : a = readWord s (bdAddr x.base x.ep .rx odd + 4)) : Receives s x odd a n (runData s x odd tg d n) := by
  have hk : x.kind ≠ .inn := by rcases hkind with h | ⟨h, -⟩ <;> rw [h] <;> decide
  have hdir : dirOf x.kind = .rx := by rcases hkind with h | ⟨h, -⟩ <;> rw [h] <;> rfl
  obtain ⟨hstored, hoverrun, hbad⟩ := receive_eq s x odd n a (by rw [txnBd, hdir, ha])
  rw [runData, if_neg hk, toggleRejected_eq_false hkind, if_neg Bool.false_ne_true]
  refine ⟨fun hn hb => ⟨_, hstored hn hb, ?_, rfl, rfl⟩, hoverrun, hbad⟩
  rw [hdir]
  exact completed_finish ..

/-- `o` is what the data phase of an IN comes to, with the buffer at `a`, `n` bytes armed and the toggle `tg` (R203, R210 to
R212). -/
structure Sends (s : State) (x : Txn) (odd tg : Bool) (a : Word) (n : Half) (o : Result) : Prop where
  unacknowledged : bufferFits s.cfg a n.toNat → x.ctl.ephshk = true → x.ack = false →
    o = .next { s with resp := .data tg (bytesOf s a.toNat n.toNat), txn := none }
  retired : bufferFits s.cfg a n.toNat → (x.ctl.ephshk = false ∨ x.ack = true) → ∃ u, o = .next u ∧
    Completed s u x.base x.ep .tx odd n tg .inn 0 [] ∧ u.resp = .data tg (bytesOf s a.toNat n.toNat) ∧ u.txn = none
  badBuffer : ¬bufferFits s.cfg a n.toNat → o = .refused .badBuffer

/-- A data command answers every IN, whatever its DTS. -/
theorem runData_sends {s : State} {x : Txn} {odd tg d : Bool} {a : Word} {n : Half} (hk : x.kind = .inn)
    (ha : a = readWord s (bdAddr x.base x.ep .tx odd + 4)) : Sends s x odd tg a n (runData s x odd tg d n) := by
  have hdir : dirOf x.kind = .tx := by rw [hk]; rfl
  obtain ⟨hun, hret, hbad⟩ := send_eq s x odd tg n a (by rw [txnBd, hdir, ha])
  rw [runData, if_pos hk]
  refine ⟨hun, fun hb hack => ⟨_, hret hb hack, ?_, rfl, rfl⟩, hbad⟩
  rw [hdir, hk]
  exact completed_finish s _ _ _ _ _ _ _ 0 [] _

/-- Settles O30: the command is run whole, and its toggle check passes. -/
theorem dataCommandReceives : Obligations.DataCommandReceives := by
  intro s x odd w0 a tg d n hx hp hf hkind ha
  rw [exec_bdData_whole hx hp hf]
  obtain ⟨stored, overrun, badBuffer⟩ := runData_receives (tg := tg) (d := d) (n := n) hkind ha
  exact ⟨stored, overrun, badBuffer⟩

/-- Settles O31: the command is run whole. -/
theorem dataCommandSends : Obligations.DataCommandSends := by
  intro s x odd w0 a tg d n hx hp hf hk ha
  rw [exec_bdData_whole hx hp hf]
  obtain ⟨unacknowledged, retired, badBuffer⟩ := runData_sends (tg := tg) (d := d) (n := n) hk ha
  exact ⟨unacknowledged, retired, badBuffer⟩

/-! ## A token and its checks -/

/-- The bus operation of a token is the token with the operands its kind has (42_bus_transactions.md R191). -/
theorem exec_tokenInstr_eq (k : Kind) (addr : BitVec 7) (ep : Fin 16) (tg : Bool) (p : List Byte) (ack : Bool) (s : State) :
    exec (tokenInstr k addr ep tg p ack) s = tokenOp k addr ep (if k = .inn then false else tg)
      (if k = .inn then [] else p) (if k = .inn then ack else false) s := by
  cases k <;> rfl

theorem active_eq_true {s : State} (h : s.usbpwr = true ∧ s.usben = true) : active s = true := by
  rwa [active, Bool.and_eq_true]

section Checks

variable {s : State} {k : Kind} {addr : BitVec 7} {ep : Fin 16}

/-! One equation for each step of R193 that ends the token; step 1 is `tokenChecks_inactive`. -/

theorem tokenChecks_otherAddress (hact : active s = true) (h : addr ≠ s.devaddr) :
    tokenChecks s k addr ep = .answer .none := by
  rw [tokenChecks, if_neg (ne_false_of_eq_true hact), if_pos h]

theorem tokenChecks_disabled (hact : active s = true) (haddr : addr = s.devaddr) (h : enabled s.ep[ep] k = false) :
    tokenChecks s k addr ep = .answer .none := by
  rw [tokenChecks, if_neg (ne_false_of_eq_true hact), if_neg (not_not.2 haddr), if_pos h]

variable (hact : active s = true) (haddr : addr = s.devaddr) (hon : enabled s.ep[ep] k = true)
include hact haddr hon

/-- Steps 4 to 7, which a token addressed to an enabled direction meets. -/
theorem tokenChecks_addressed : tokenChecks s k addr ep =
    if s.ep[ep].epstall = true ∧ s.ep[ep].ephshk = false then .noMeaning
    else if s.pktdis = true then .answer (pktdisResponse s.cfg s.ep[ep] k)
    else if s.cfg.fifoDepth ≤ s.fifo.length then .answer (nakOrNone s.ep[ep] k)
    else if k ≠ .setup ∧ s.ep[ep].epstall = true then .halted
    else .go := by
  rw [tokenChecks, if_neg (ne_false_of_eq_true hact), if_neg (not_not.2 haddr), if_neg (ne_false_of_eq_true hon)]

theorem tokenChecks_noMeaning (h : s.ep[ep].epstall = true ∧ s.ep[ep].ephshk = false) :
    tokenChecks s k addr ep = .noMeaning := by
  rw [tokenChecks_addressed hact haddr hon, if_pos h]

variable (hmean : ¬(s.ep[ep].epstall = true ∧ s.ep[ep].ephshk = false))
include hmean

theorem tokenChecks_pktdis (h : s.pktdis = true) : tokenChecks s k addr ep = .answer (pktdisResponse s.cfg s.ep[ep] k) := by
  rw [tokenChecks_addressed hact haddr hon, if_neg hmean, if_pos h]

variable (hgo : s.pktdis = false)
include hgo

theorem tokenChecks_full (h : s.cfg.fifoDepth ≤ s.fifo.length) :
    tokenChecks s k addr ep = .answer (nakOrNone s.ep[ep] k) := by
  rw [tokenChecks_addressed hact haddr hon, if_neg hmean, if_neg (ne_true_of_eq_false hgo), if_pos h]

theorem tokenChecks_halted (hfree : s.fifo.length < s.cfg.fifoDepth) (hk : k ≠ .setup) (h : s.ep[ep].epstall = true) :
    tokenChecks s k addr ep = .halted := by
  rw [tokenChecks_addressed hact haddr hon, if_neg hmean, if_neg (ne_true_of_eq_false hgo), if_neg hfree.not_ge,
    if_pos ⟨hk, h⟩]

end Checks

/-! ## A token that passes, as one step -/

/-- The word is a data command for this token: BD.DATA, or BD.STALL met by a SETUP (42_bus_transactions.md R209). -/
def FetchesData (k : Kind) (w0 : Word) (c d : Bool) (n : Half) : Prop :=
  fetchCommand w0 = .ok (.data c d n) ∨ (fetchCommand w0 = .ok (.stall c d n) ∧ k = .setup)

theorem transact_refuses {s : State} {x : Txn} {odd : Bool} {e : DecodeError} (hodd : odd = ppbi s x.ep (dirOf x.kind))
    (he : fetchCommand (readWord s (txnBd x odd)) = .error e) : transact s x = .refused (.decode e) := by
  subst hodd
  simp only [transact, he]

theorem transact_fetches {s : State} {x : Txn} {odd : Bool} {c : Command} (hodd : odd = ppbi s x.ep (dirOf x.kind))
    (hc : fetchCommand (readWord s (txnBd x odd)) = .ok c) : transact s x = runCommand s x odd c := by
  subst hodd
  simp only [transact, hc]

theorem runCommand_data {x : Txn} {w0 : Word} {t d : Bool} {n : Half} (hw : FetchesData x.kind w0 t d n) (s : State)
    (odd : Bool) : ∃ c, fetchCommand w0 = .ok c ∧ runCommand s x odd c = runData s x odd t d n := by
  rcases hw with hc | ⟨hc, hk⟩
  · exact ⟨_, hc, rfl⟩
  · exact ⟨_, hc, if_pos hk⟩

section Passes

variable {s : State} {k : Kind} {addr : BitVec 7} {ep : Fin 16} (h : tokenPasses s k addr ep) (hf : s.fine = false)
  (tg : Bool) (p : List Byte) (ack : Bool)
include h hf

theorem tokenOp_whole : tokenOp k addr ep tg p ack s = transact s (newTxn s k ep tg p ack) := by
  simp only [tokenOp, tokenChecks_of_passes h, hf, Bool.false_eq_true, if_false]

variable {odd : Bool} (hodd : odd = ppbi s ep (dirOf k))
include hodd

theorem tokenOp_refuses {e : DecodeError} (he : fetchCommand (readWord s (bdAddr (bdtBase s) ep (dirOf k) odd)) = .error e) :
    tokenOp k addr ep tg p ack s = .refused (.decode e) := by
  rw [tokenOp_whole h hf]
  exact transact_refuses (x := newTxn s k ep tg p ack) hodd he

theorem tokenOp_fetches {c : Command} (hc : fetchCommand (readWord s (bdAddr (bdtBase s) ep (dirOf k) odd)) = .ok c) :
    tokenOp k addr ep tg p ack s = runCommand s (newTxn s k ep tg p ack) odd c := by
  rw [tokenOp_whole h hf]
  exact transact_fetches (x := newTxn s k ep tg p ack) hodd hc

theorem tokenOp_runsData {c d : Bool} {n : Half}
    (hw : FetchesData k (readWord s (bdAddr (bdtBase s) ep (dirOf k) odd)) c d n) :
    tokenOp k addr ep tg p ack s = runData s (newTxn s k ep tg p ack) odd c d n := by
  obtain ⟨_, hc, hrun⟩ := runCommand_data (x := newTxn s k ep tg p ack) hw s odd
  rw [tokenOp_fetches h hf tg p ack hodd hc, hrun]

end Passes

/-- What a data command comes to does not depend on what the latch says of the phase. -/
theorem runData_setPhase (s : State) (x : Txn) (p q : Phase) (odd tg d : Bool) (n : Half) :
    runData (setPhase s x p) { x with phase := q } odd tg d n = runData s x odd tg d n := by
  have hmoved : ∀ a, moved (setPhase s x p) { x with phase := q } a 0 = setPhase (moved s x a 0) x p := fun a => by
    unfold moved; cases x.kind <;> rfl
  have hreceived : ∀ a, received (setPhase s x p) { x with phase := q } a n 0 [] = received s x a n 0 [] := fun a => by
    unfold received
    rw [readBytesAt_congr s (setPhase s x p) rfl]
  rw [runData_closeData, runData_closeData, hmoved, hreceived, closeData_setPhase]
  rfl

/-- Settles O34: each step of R193 by its equation, and past them the fetched command by its kind. -/
theorem tokenChecksInOrder : Obligations.TokenChecksInOrder := by
  intro s k addr ep tg p ack e nakOr on i he hnak hon hi hf
  obtain rfl : on = enabled e k := by rw [hon]; cases k <;> rfl
  rw [← nakOrNone_eq] at hnak
  subst he hi hnak
  have answer : ∀ {r}, tokenChecks s k addr ep = .answer r →
      exec (tokenInstr k addr ep tg p ack) s = .next { s with resp := r } := fun h => exec_tokenInstr_of_answer h tg p ack
  refine ⟨fun h => answer (tokenChecks_inactive (active_eq_false h) k addr ep),
    fun h ha => answer (tokenChecks_otherAddress (active_eq_true h) ha),
    fun h ha ho => answer (tokenChecks_disabled (active_eq_true h) ha ho), fun h ha ho hs hh => ?_,
    fun h ha ho hm hp => ?_, fun h ha ho hm hp hq => answer (tokenChecks_full (active_eq_true h) ha ho hm hp hq),
    fun h ha ho hs hh hp hq hk => ?_, fun h w0 hw => ?_⟩
  · rw [exec_tokenInstr_eq, tokenOp, tokenChecks_noMeaning (active_eq_true h) ha ho ⟨hs, hh⟩]
  · have hcheck := tokenChecks_pktdis (active_eq_true h) ha ho hm hp
    exact ⟨fun hd => answer (by rw [hcheck, pktdisResponse, hd]), fun r hd => answer (by rw [hcheck, pktdisResponse, hd])⟩
  · have hmean : ¬(s.ep[ep].epstall = true ∧ s.ep[ep].ephshk = false) := fun hm => ne_false_of_eq_true hh hm.2
    rw [exec_tokenInstr_eq, tokenOp, tokenChecks_halted (active_eq_true h) ha ho hmean hp hq hk hs]
    rfl
  · rw [exec_tokenInstr_eq]
    subst hw
    refine ⟨fun er her => ?_, fun hc => ?_, fun c d n hc hk => ?_, fun c d n hc => ?_⟩
    · exact tokenOp_refuses h hf _ _ _ rfl her
    · exact tokenOp_fetches h hf _ _ _ rfl hc
    · exact (tokenOp_fetches h hf _ _ _ rfl hc).trans (if_neg hk)
    · rw [tokenOp_runsData h hf _ _ _ rfl hc, ← runData_setPhase s _ (.command _ _) (.command _ _)]
      exact (exec_bdData_whole (setPhase_txn ..) rfl hf c d n).symm

/-! ## The three transactions -/

/-- Settles O35: the fetched data command rejects the packet by its toggle or receives it. -/
theorem busOutTransaction : Obligations.BusOutTransaction := by
  intro s addr ep tg p odd a c d n h hf hodd hc ha
  have hrun : exec (.busOut addr ep tg p) s = runData s (newTxn s .out ep tg p false) odd c d n :=
    tokenOp_runsData h hf tg p false hodd (.inl hc)
  have receives : (d = false ∨ tg = c) →
      Receives s (newTxn s .out ep tg p false) odd a n (exec (.busOut addr ep tg p) s) := fun ht => by
    rw [hrun]
    exact runData_receives (.inr ⟨rfl, ht⟩) ha
  refine ⟨fun hd ht => ?_, fun ht => (receives ht).overrun, fun ht => (receives ht).badBuffer,
    fun ht => (receives ht).stored⟩
  rw [hrun, hd, runData_rejected rfl ht, mismatchResponse_eq]
  rfl

/-- Settles O36: either command receives the packet, and the completion step of a SETUP sets PKTDIS and leaves EP. -/
theorem busSetupTransaction : Obligations.BusSetupTransaction := by
  intro s addr ep tg p odd a c d n h hf hodd hc ha
  have hrun : exec (.busSetup addr ep tg p) s = runData s (newTxn s .setup ep tg p false) odd c d n :=
    tokenOp_runsData h hf tg p false hodd (hc.imp_right fun hc => ⟨hc, rfl⟩)
  obtain ⟨stored, overrun, badBuffer⟩ :=
    runData_receives (x := newTxn s .setup ep tg p false) (tg := c) (d := d) (n := n) (.inl rfl) ha
  rw [hrun]
  refine ⟨overrun, badBuffer, fun hn hb => ?_⟩
  obtain ⟨u, hu, hdone, hresp, htxn⟩ := stored hn hb
  refine ⟨u, hu, hdone, hresp, htxn, ?_, by rw [hdone.frame]⟩
  rw [hdone.pktdis]
  exact Bool.or_true _

/-- Settles O37: the fetched data command sends the buffer. -/
theorem busInTransaction : Obligations.BusInTransaction := by
  intro s addr ep ack odd a c d n h hf hodd hc ha
  have hrun : exec (.busIn addr ep ack) s = runData s (newTxn s .inn ep false [] ack) odd c d n :=
    tokenOp_runsData h hf false [] ack hodd (.inl hc)
  obtain ⟨unacknowledged, retired, badBuffer⟩ :=
    runData_sends (x := newTxn s .inn ep false [] ack) (tg := c) (d := d) (n := n) rfl ha
  rw [hrun]
  exact ⟨badBuffer, unacknowledged, retired⟩

/-! ## The other bus events -/

theorem exec_busReset_active {s : State} (h : active s = true) :
    exec .busReset s = .next { s with urstif := true, resp := .none } := by
  simp only [exec, execBusReset, h, if_true]
  rfl

theorem exec_busErr_active {s : State} (h : active s = true) (m : Byte) :
    exec (.busErr m) s = .next { s with eir := s.eir ||| m, resp := .none } := by
  simp only [exec, execBusErr, h, if_true]
  rfl

/-- Settles O39: the active engine by the two equations above, the inactive one by O38. -/
theorem otherBusEvents : Obligations.OtherBusEvents := by
  intro s m
  refine ⟨rfl, fun h => ?_, fun h => ?_⟩
  · exact ⟨exec_busReset_active (active_eq_true h), exec_busErr_active (active_eq_true h) m⟩
  · obtain ⟨-, -, hreset, herr⟩ := inactiveIgnoresTheBus s h
    exact ⟨hreset, herr m⟩

end Sys2Proof.Machine
end

section
/-! SUPPORT. What holds of every bus operation: while PKTDIS is 1 nothing begins (43_completion.md R237), and what no whole
transaction changes (42_bus_transactions.md R221). -/

namespace Sys2Proof.Machine

/-! ## While PKTDIS is 1 -/

/-- The answer to a token while PKTDIS is 1, given by registers and parameters alone (42_bus_transactions.md R193, R195). -/
def pktdisAnswer (s : State) (k : Kind) (addr : BitVec 7) (ep : Fin 16) : Response :=
  if ¬(s.usbpwr = true ∧ s.usben = true) ∨ addr ≠ s.devaddr ∨ enabled s.ep[ep] k = false then .none
  else pktdisResponse s.cfg s.ep[ep] k

/-- Steps 1 to 5 of R193 while PKTDIS is 1: no meaning, or that answer. -/
theorem tokenChecks_of_pktdis {s : State} (hp : s.pktdis = true) (k : Kind) (addr : BitVec 7) (ep : Fin 16) :
    tokenChecks s k addr ep = .noMeaning ∨ tokenChecks s k addr ep = .answer (pktdisAnswer s k addr ep) := by
  unfold pktdisAnswer
  by_cases hact : s.usbpwr = true ∧ s.usben = true
  case neg => exact .inr ((tokenChecks_inactive (active_eq_false hact) k addr ep).trans (by rw [if_pos (.inl hact)]))
  have ha := active_eq_true hact
  by_cases haddr : addr = s.devaddr
  case neg => exact .inr ((tokenChecks_otherAddress ha haddr).trans (by rw [if_pos (.inr (.inl haddr))]))
  cases hon : enabled s.ep[ep] k with
  | false => exact .inr ((tokenChecks_disabled ha haddr hon).trans (by rw [if_pos (.inr (.inr rfl))]))
  | true =>
    by_cases hmean : s.ep[ep].epstall = true ∧ s.ep[ep].ephshk = false
    · exact .inl (tokenChecks_noMeaning ha haddr hon hmean)
    · exact .inr ((tokenChecks_pktdis ha haddr hon hmean hp).trans (by simp [hact, haddr]))

theorem tokenOp_of_pktdis {s u : State} (hp : s.pktdis = true) {k : Kind} {addr : BitVec 7} {ep : Fin 16} {tg : Bool}
    {p : List Byte} {ack : Bool} (h : tokenOp k addr ep tg p ack s = .next u) :
    u = respond s (pktdisAnswer s k addr ep) := by
  rcases tokenChecks_of_pktdis hp k addr ep with hc | hc
  · simp only [tokenOp, hc, reduceCtorEq] at h
  · simp only [tokenOp, hc, Host.Outcome.next.injEq] at h
    exact h.symm

/-- A start of frame, a bus reset or a bus error is quiet, and its response is none (R217 to R219). -/
theorem exec_condition_next {s u : State} {i : Instr} (hi : i = .busSof ∨ i = .busReset ∨ ∃ m, i = .busErr m)
    (h : exec i s = .next u) : u = { s with urstif := u.urstif, eir := u.eir, resp := .none } := by
  obtain rfl | rfl | ⟨m, rfl⟩ := hi
  · obtain rfl := Host.Outcome.next.inj h
    rfl
  · obtain rfl := Host.Outcome.next.inj h
    split
    · rfl
    · rfl
  · obtain rfl := Host.Outcome.next.inj h
    split
    · rfl
    · rfl

/-- While PKTDIS is 1 and no transaction is in progress a step is one of software's, or quiet (43_completion.md R237). -/
theorem step_of_pktdis {s u : State} (h : step s = .next u) (hp : s.pktdis = true) (hx : s.txn = none) :
    ∃ rest, Keeps { s with inputs := rest } u ∨ Quiet { s with inputs := rest } u := by
  obtain ⟨rest, hkeeps | hquiet | ⟨k, addr, ep, tg, p, ack, htok⟩ | ⟨x, htxn, -⟩⟩ := step_cases_withInputs h
  · exact ⟨rest, .inl hkeeps⟩
  · exact ⟨rest, .inr hquiet⟩
  · refine ⟨rest, .inr ?_⟩
    rw [tokenOp_of_pktdis (s := { s with inputs := rest }) hp htok]
    rfl
  · rw [hx] at htxn
    cases htxn

theorem nakOrNone_eq_nak (e : EpCtl) (k : Kind) :
    nakOrNone e k = if k ≠ .setup ∧ e.ephshk = true then .nak else .none := by
  cases k <;> simp [nakOrNone]

/-- Settles O46: no such step touches transaction, pointers or queue, and the checks answer a token before any access. -/
theorem pktdisKeepsTheEngineIdle : Obligations.PktdisKeepsTheEngineIdle := by
  intro s u h hp hx
  obtain ⟨rest, hstep⟩ := step_of_pktdis h hp hx
  have queues : QueuesNothing { s with inputs := rest } u := hstep.elim Keeps.queuesNothing Quiet.queuesNothing
  have htxn : u.txn = none := by
    rcases hstep with hk | hq
    · exact hk.txn.trans hx
    · rw [hq]; exact hx
  refine ⟨htxn, queues.pointers, queues.queue, fun f rest i hin hf hi => ?_⟩
  have hport : exec i { s with inputs := rest } = .next u := by
    have hturn := step_of_input (whoseTurn_bus_free hin (agentOf_op_bus hf) hx)
    have hne : f.fmt ≠ .bd ∧ f.fmt ≠ .eng := by rcases hf with hf | hf <;> rw [hf] <;> decide
    rw [← h, hturn]
    exact (runInput_op_ok (s := { s with inputs := rest }) ((portInstr_eq_decode _ hne.1 hne.2).trans hi)).symm
  refine ⟨fun k addr ep tg p ack htok => ?_, fun hcond => exec_condition_next hcond hport⟩
  rw [htok, exec_tokenInstr_eq] at hport
  rw [tokenOp_of_pktdis (s := { s with inputs := rest }) hp hport, pktdisAnswer, pktdisResponse]
  cases hd : holdOffOf s.cfg k with
  | always r => rfl
  | nakOrNone => rw [nakOrNone_eq_nak]; rfl

/-! ## What a whole transaction changes -/

/-- `t` is `s` after the transaction `x` retired its descriptor, having stored at most `m` bytes in its buffer (none for an
IN). -/
def RetiresWithin (s : State) (x : Txn) (odd : Bool) (m : Nat) (t : State) : Prop :=
  ∃ n tg bs, bs.length ≤ m ∧ (x.kind = .inn → bs = []) ∧
    Completed s t x.base x.ep (dirOf x.kind) odd n tg x.kind (readWord s (txnBd x odd + 4)).toNat bs

theorem receive_next_within {s t : State} {x : Txn} {odd : Bool} {n : Half} (hk : x.kind ≠ .inn)
    (h : receive s x odd n = .next t) : RetiresWithin s x odd n.toNat t := by
  obtain ⟨stored, overrun, badBuffer⟩ := receive_eq s x odd n _ rfl
  by_cases hn : x.payload.length ≤ n.toNat
  case neg => rw [overrun (Nat.lt_of_not_le hn)] at h; cases h
  by_cases hb : bufferFits s.cfg (readWord s (txnBd x odd + 4)) n.toNat
  case neg => rw [badBuffer hn hb] at h; cases h
  rw [stored hn hb] at h
  obtain rfl := Host.Outcome.next.inj h
  exact ⟨_, _, x.payload, hn, fun hin => absurd hin hk, completed_finish ..⟩

theorem send_next_within {s t : State} {x : Txn} {odd tg : Bool} {n : Half} (hk : x.kind = .inn)
    (h : send s x odd tg n = .next t) : (∃ r, t = finish s r) ∨ RetiresWithin s x odd n.toNat t := by
  refine (send_next h).imp_right fun ⟨_, _, n, tg, _, hbs, _, ht⟩ => ?_
  rw [ht, hbs hk, storeBytes_nil]
  exact ⟨n, tg, [], Nat.zero_le _, fun _ => rfl, completed_finish s _ _ _ _ _ _ _ (readWord s (txnBd x odd + 4)).toNat [] _⟩

theorem runData_next_within {s t : State} {x : Txn} {odd tg d : Bool} {n : Half} (h : runData s x odd tg d n = .next t) :
    (∃ r, t = finish s r) ∨ RetiresWithin s x odd n.toNat t := by
  unfold runData at h
  split at h
  · exact send_next_within ‹_› h
  · rename_i hk
    split at h
    · exact .inl ⟨_, (Host.Outcome.next.inj h).symm⟩
    · exact .inr (receive_next_within hk h)

/-- A whole transaction ends with a response alone, with the stall armed, or with its descriptor retired, its packet within
the armed count. -/
theorem transact_next_within {s t : State} {x : Txn} {odd : Bool} (hodd : odd = ppbi s x.ep (dirOf x.kind))
    (h : transact s x = .next t) :
    (∃ r, t = finish s r) ∨ t = stallArmed s x ∨ RetiresWithin s x odd (countOf (readWord s (txnBd x odd))).toNat t := by
  cases hc : fetchCommand (readWord s (txnBd x odd)) with
  | error e => rw [transact_refuses hodd hc] at h; cases h
  | ok c =>
    rw [transact_fetches hodd hc] at h
    cases c with
    | idle => exact .inl ⟨_, (Host.Outcome.next.inj h).symm⟩
    | data tg d n =>
      obtain ⟨-, rfl, -⟩ := fetchCommand_data hc
      exact (runData_next_within h).imp_right .inr
    | stall tg d n =>
      obtain ⟨-, rfl, -⟩ := fetchCommand_stall hc
      rw [runCommand] at h
      split at h
      · exact (runData_next_within h).imp_right .inr
      · exact .inr (.inl (Host.Outcome.next.inj h).symm)

/-- The frame of a transaction on the descriptor at `bd` of endpoint `ep`, with the buffer of `m` bytes at `a`
(42_bus_transactions.md R221). -/
structure WithinFrame (s u : State) (k : Kind) (ep : Fin 16) (bd a m : Nat) : Prop where
  fields : u = { s with
    mem := u.mem, ep := u.ep, ppbiRx := u.ppbiRx, ppbiTx := u.ppbiTx, fifo := u.fifo, stallif := u.stallif,
    pktdis := u.pktdis, resp := u.resp, txn := u.txn }
  stallif : s.stallif = true → u.stallif = true
  pktdis : s.pktdis = true → u.pktdis = true
  ep : u.ep = s.ep ∨ u.ep = s.ep.set ep { s.ep[ep] with epstall := true }
  memory : ∀ b, ¬(bd ≤ b ∧ b < bd + 4) → (k = .inn ∨ ¬(a ≤ b ∧ b < a + m)) → readByte u b = readByte s b
  owner : (readByte u bd).getLsbD 7 = true → (readByte s bd).getLsbD 7 = true

/-- A response alone is in the frame. -/
theorem withinFrame_answer (s : State) (k : Kind) (ep : Fin 16) (bd a m : Nat) (r : Response) (y : Option Txn) :
    WithinFrame s { s with resp := r, txn := y } k ep bd a m :=
  ⟨rfl, id, id, .inl rfl, fun _ _ _ => rfl, id⟩

/-- STALL with its flag is in the frame, and with the endpoint's EPSTALL. -/
theorem withinFrame_stall (s : State) (k : Kind) (ep : Fin 16) (bd a m : Nat) (r : Response) :
    WithinFrame s (respond (setStallif s) r) k ep bd a m :=
  ⟨rfl, fun _ => rfl, id, .inl rfl, fun _ _ _ => rfl, id⟩

theorem withinFrame_stallArmed (s : State) (k : Kind) (x : Txn) (bd a m : Nat) :
    WithinFrame s (stallArmed s x) k x.ep bd a m :=
  ⟨rfl, fun _ => rfl, id, .inr rfl, fun _ _ _ => rfl, id⟩

/-- The first byte of a result word has UOWN 0 (41_descriptor_ops.md R164). -/
theorem resultWord_uown (n : Half) (tg : Bool) (k : Kind) : (byteAt 32 (resultWord n tg k) 0).getLsbD 7 = false := by
  have hidle : bitAt 16 (flagsOf (resultWord n tg k)) 7 = false := by
    rw [← word0_resultFlags, ← fetchCommand_idle_iff]
    exact fetchCommand_resultFlags ..
  rw [bitAt_flagsOf _ (by decide)] at hidle
  rw [byteAt, BitVec.getLsbD_extractLsb', hidle, Bool.and_false]

/-- A retired descriptor is in the frame: its word 0 is a result word, and only its buffer was written beside it. -/
theorem RetiresWithin.withinFrame {s u : State} {x : Txn} {odd : Bool} {m : Nat} (h : RetiresWithin s x odd m u) :
    WithinFrame s u x.kind x.ep (txnBd x odd) (readWord s (txnBd x odd + 4)).toNat m := by
  obtain ⟨n, tg, bs, hlen, hin, hdone⟩ := h
  have hep : u.ep = s.ep := by rw [hdone.frame]
  have hstallif : u.stallif = s.stallif := by rw [hdone.frame]
  have hmem : ∀ b, readByte u b = byteAfter s (txnBd x odd) (resultWord n tg x.kind)
    (readWord s (txnBd x odd + 4)).toNat bs b := hdone.memory
  refine ⟨?_, fun hs => hstallif.trans hs, fun hs => ?_, .inl hep, fun b hbd hbuf => ?_, fun hown => ?_⟩
  · rw [hep, hstallif]
    exact hdone.frame
  · rw [hdone.pktdis, hs, Bool.true_or]
  · rw [hmem, byteAfter, if_neg hbd, if_neg]
    rintro ⟨hlow, hhigh⟩
    rcases hbuf with hk | hout
    · rw [hin hk, List.length_nil] at hhigh
      omega
    · exact hout ⟨hlow, by omega⟩
  · rw [hmem, byteAfter, if_pos ⟨Nat.le_refl _, by omega⟩, Nat.sub_self, resultWord_uown] at hown
    cases hown

/-- Settles O47: the three ways a transaction ends, and the two ways its checks end it, are each in the frame. -/
theorem transactionFrame : Obligations.TransactionFrame := by
  intro s u k addr ep tg p ack bd a hf hbd ha h
  rw [exec_tokenInstr_eq] at h
  have frame : WithinFrame s u k ep bd a.toNat ((readWord s bd).toNat / 65536) := by
    rcases tokenOp_next h with ⟨r, -, rfl⟩ | ⟨-, rfl⟩ | ⟨-, hfine, -⟩ | ⟨-, -, ht⟩
    · exact withinFrame_answer s k ep _ _ _ r s.txn
    · exact withinFrame_stall ..
    · rw [hf] at hfine
      cases hfine
    · rcases transact_next_within rfl ht with ⟨r, rfl⟩ | rfl | hretires
      · exact withinFrame_answer s k ep _ _ _ r none
      · exact withinFrame_stallArmed s k (newTxn s k ep _ _ _) _ _ _
      · rw [← countOf_toNat, ha, hbd]
        exact hretires.withinFrame
  obtain ⟨fields, stallif, pktdis, hep, memory, owner⟩ := frame
  exact ⟨fields, stallif, pktdis, hep, memory, owner⟩

end Sys2Proof.Machine
end

section
/-! SUPPORT. Completion (43_completion.md): the completion step as RETIRE runs it, what sets PKTDIS, and the test at which `poll`
begins each pass. -/

namespace Sys2Proof.Machine

/-! ## The completion step -/

/-- After a completion step an entry is queued (43_completion.md R231). -/
theorem Completed.trnif {s t : State} {base : Word} {ep : Fin 16} {dir : Dir} {odd : Bool} {n : Half} {tg : Bool} {k : Kind}
    {a : Nat} {bs : List Byte} (h : Completed s t base ep dir odd n tg k a bs) : Machine.trnif t = true := by
  rw [trnif_eq_decide, h.queue, List.length_append]
  exact decide_eq_true (Nat.succ_pos _)

/-- A completion step alone, which stores no packet. -/
theorem completed_retireOp_alone (s : State) (base : Word) (ep : Fin 16) (dir : Dir) (odd : Bool) (n : Half) (tg : Bool)
    (k : Kind) : Completed s (retireOp base ep dir odd n tg k s) base ep dir odd n tg k 0 [] := by
  have h := completed_retireOp s base ep dir odd n tg k 0 [] s.resp s.txn
  rw [storeBytes_nil] at h
  rwa [retireOp_frame] at h ⊢

theorem retireStep_of_no_txn {s : State} (hx : s.txn = none) (ep : Fin 16) (dir : Dir) (odd : Bool) (n : Half) (tg : Bool)
    (k : Kind) : retireStep ep dir odd n tg k s = retireOp (bdtBase s) ep dir odd n tg k s := by
  simp only [retireStep, hx]

theorem retireStep_of_txn {s : State} {x : Txn} (hx : s.txn = some x) (ep : Fin 16) (dir : Dir) (odd : Bool) (n : Half)
    (tg : Bool) (k : Kind) : retireStep ep dir odd n tg k s =
      finish (retireOp x.base ep dir odd n tg k s) (if k = .inn then s.resp else ackOrNone x.ctl) := by
  simp only [retireStep, hx]

/-- Settles O25: RETIRE is the completion step, alone or as the end of the transaction in progress. -/
theorem retireCompletes : Obligations.RetireCompletes := by
  intro s ep dir odd n tg k
  have hexec : exec (.retire ep dir odd n tg k) s = .next (retireStep ep dir odd n tg k s) := rfl
  refine ⟨fun hx => ?_, fun x hx => ?_⟩
  · have hdone := completed_retireOp_alone s (bdtBase s) ep dir odd n tg k
    rw [hexec, retireStep_of_no_txn hx]
    exact ⟨_, rfl, hdone, hdone.trnif, by rw [retireOp_frame], by rw [retireOp_frame, hx]⟩
  · have hdone := completed_finish s x.base ep dir odd n tg k 0 [] (if k = .inn then s.resp else ackOrNone x.ctl)
    rw [hexec, retireStep_of_txn hx]
    exact ⟨_, rfl, hdone, hdone.trnif, rfl, rfl⟩

/-! ## What sets PKTDIS -/

/-- The low half of word 0 is the flags, byte by byte. -/
theorem byteAt_word0 (n f : Half) {i : Nat} (hi : i < 2) : byteAt 32 (word0 n f) i = byteAt 16 f i :=
  extract_append_inside n f (by omega)

/-- After a completion step the flags of the descriptor are those of the result (41_descriptor_ops.md R164). -/
theorem Completed.readHalf_descriptor {s t : State} {base : Word} {ep : Fin 16} {dir : Dir} {odd : Bool} {n : Half} {tg : Bool}
    {k : Kind} {a : Nat} {bs : List Byte} (h : Completed s t base ep dir odd n tg k a bs) :
    readHalf t (bdAddr base ep dir odd) = resultFlags tg k := by
  have hbyte : ∀ i, i < 2 → readByte t (bdAddr base ep dir odd + i) = byteAt 16 (resultFlags tg k) i := fun i hi => by
    rw [bdAddr, h.memory, byteAfter, if_pos (by omega), Nat.add_sub_cancel_left, ← word0_resultFlags, byteAt_word0 _ _ hi]
  have h0 := hbyte 0 (by omega)
  rw [Nat.add_zero] at h0
  rw [readHalf, h0, hbyte 1 (by omega), half_byteAt]

/-- The result of a SETUP holds the packet identifier 13 at bits 5:2 (30_encoding.md R95). -/
theorem resultFlags_setup_pid (tg : Bool) : (resultFlags tg .setup).toNat / 4 % 16 = 13 := by
  cases tg <;> rfl

/-- `t` has queued behind `fifo` a descriptor of an RX direction of the table at `base` whose word 0 holds the packet identifier
of a SETUP. -/
def QueuesSetup (fifo : List Entry) (base : Word) (t : State) : Prop :=
  ∃ e, t.fifo = fifo ++ [e] ∧ e.dir = .rx ∧ (readHalf t (bdAddr base e.ep .rx e.odd)).toNat / 4 % 16 = 13

theorem Completed.queuesSetup {s t : State} {base : Word} {ep : Fin 16} {odd : Bool} {n : Half} {tg : Bool} {a : Nat}
    {bs : List Byte} (h : Completed s t base ep .rx odd n tg .setup a bs) : QueuesSetup s.fifo base t :=
  ⟨_, h.queue, rfl, by rw [h.readHalf_descriptor, resultFlags_setup_pid]⟩

/-- A transaction that retires its descriptor made its completion step. -/
theorem Retires.completed {s t : State} {x : Txn} {odd : Bool} (h : Retires s x odd t) :
    ∃ n tg a bs, Completed s t x.base x.ep (dirOf x.kind) odd n tg x.kind a bs := by
  obtain ⟨a, bs, n, tg, r, -, -, rfl⟩ := h
  exact ⟨n, tg, a, bs, completed_finish ..⟩

/-- Where `t` has PKTDIS set and `s` does not, `t` has queued a SETUP of the table at `base` behind the queue of `s`. -/
def SetsPktdisBySetup (s : State) (base : Word) (t : State) : Prop :=
  s.pktdis = false → t.pktdis = true → QueuesSetup s.fifo base t

theorem SetsPktdisBySetup.of_eq {s t : State} {base : Word} (h : t.pktdis = s.pktdis) : SetsPktdisBySetup s base t := by
  intro hs ht
  rw [h, hs] at ht
  cases ht

/-- A descriptor retired sets PKTDIS only if its token is a SETUP (43_completion.md R236). -/
theorem Retires.setsPktdisBySetup {s t : State} {x : Txn} {odd : Bool} (h : Retires s x odd t) :
    SetsPktdisBySetup s x.base t := by
  intro hs ht
  obtain ⟨n, tg, a, bs, hdone⟩ := h.completed
  have hk : x.kind = .setup := by
    rw [hdone.pktdis, hs, Bool.false_or] at ht
    exact of_decide_eq_true ht
  rw [hk] at hdone
  exact hdone.queuesSetup

/-! No access of a data phase touches PKTDIS. -/

theorem allMoved_pktdis (s : State) (x : Txn) (odd tg : Bool) (n : Half) (got : List Byte) :
    (allMoved s x odd tg n got).pktdis = s.pktdis := by
  unfold allMoved
  split
  · split
    · rfl
    · rfl
  · rfl
  · rfl

theorem afterMove_pktdis (s : State) (x : Txn) (odd : Bool) (w0 a : Word) (tg : Bool) (n : Half) (i : Nat) (got : List Byte) :
    (afterMove s x odd w0 a tg n i got).pktdis = s.pktdis := by
  unfold afterMove
  split
  · exact allMoved_pktdis ..
  · rfl

theorem moveByte_pktdis (s : State) (x : Txn) (odd : Bool) (w0 a : Word) (tg : Bool) (n : Half) (i : Nat) (got : List Byte) :
    (moveByte s x odd w0 a tg n i got).pktdis = s.pktdis := by
  unfold moveByte
  split
  · exact allMoved_pktdis ..
  · split
    · exact afterMove_pktdis ..
    · exact afterMove_pktdis (storeBytes s _ _) ..
    · exact afterMove_pktdis (storeBytes s _ _) ..

theorem Quiet.pktdis {s t : State} (h : Quiet s t) : t.pktdis = s.pktdis := by rw [h]

theorem Keeps.setsPktdisBySetup {s t : State} (h : Keeps s t) (base : Word) : SetsPktdisBySetup s base t := by
  intro hs ht
  rw [h.pktdis ht] at hs
  cases hs

/-- A token samples the table base of the registers. -/
theorem tokenOp_setsPktdisBySetup {k : Kind} {addr : BitVec 7} {ep : Fin 16} {tg : Bool} {p : List Byte} {ack : Bool}
    {s t : State} (h : tokenOp k addr ep tg p ack s = .next t) : SetsPktdisBySetup s (bdtBase s) t := by
  rcases tokenOp_next h with ⟨r, -, rfl⟩ | ⟨-, rfl⟩ | ⟨-, -, rfl⟩ | ⟨-, -, ht⟩
  · exact .of_eq rfl
  · exact .of_eq rfl
  · exact .of_eq rfl
  · rcases transact_next ht with ⟨r, rfl⟩ | ⟨-, rfl⟩ | hretires
    · exact .of_eq rfl
    · exact .of_eq rfl
    · exact hretires.setsPktdisBySetup

theorem engineTurn_setsPktdisBySetup {s t : State} {x : Txn} (hx : s.txn = some x) (h : engineTurn x s = .next t) :
    SetsPktdisBySetup s x.base t := by
  rcases engineTurn_cases hx h with rfl | ⟨r, rfl⟩ | ⟨-, rfl⟩ | ⟨odd, -, hretires⟩ | ⟨p, rfl⟩ | ⟨_, _, _, _, _, rfl⟩ |
    ⟨_, _, _, _, _, _, _, rfl⟩
  · exact .of_eq rfl
  · exact .of_eq rfl
  · exact .of_eq rfl
  · exact hretires.setsPktdisBySetup
  · exact .of_eq rfl
  · exact .of_eq (afterMove_pktdis ..)
  · exact .of_eq (moveByte_pktdis ..)

/-- The base of the table a step's completion uses: the one the transaction in progress sampled, else the registers'. -/
def tableBase (s : State) : Word :=
  (s.txn.map Txn.base).getD (bdtBase s)

theorem tableBase_of_no_txn {s : State} (hx : s.txn = none) : tableBase s = bdtBase s := by
  rw [tableBase, hx]; rfl

theorem tableBase_of_txn {s : State} {x : Txn} (hx : s.txn = some x) : tableBase s = x.base := by
  rw [tableBase, hx]; rfl

/-- Settles O45: of everything a step can do only a retired descriptor sets PKTDIS, and only a SETUP's. -/
theorem onlyASetupSetsPktdis : Obligations.OnlyASetupSetsPktdis := by
  intro s u hu
  change SetsPktdisBySetup s (tableBase s) u
  obtain ⟨s1, hs1, hcases⟩ := step_cases hu
  obtain ⟨rest, rfl⟩ : ∃ rest, s1 = { s with inputs := rest } := by
    rcases hs1 with rfl | ⟨_, rest, -, rfl⟩
    · exact ⟨s1.inputs, rfl⟩
    · exact ⟨rest, rfl⟩
  rcases hcases with hkeeps | ⟨-, hquiet⟩ | ⟨hx, k, addr, ep, tg, p, ack, htok⟩ | ⟨x, hx, hturn⟩
  · exact hkeeps.setsPktdisBySetup _
  · exact .of_eq hquiet.pktdis
  · rw [tableBase_of_no_txn hx]
    exact tokenOp_setsPktdisBySetup (s := { s with inputs := rest }) htok
  · rw [tableBase_of_txn hx]
    exact engineTurn_setsPktdisBySetup (s := { s with inputs := rest }) hx hturn

/-! ## The test of `poll` -/

/-- A turn of a call whose next access reads a register, with any bound that is large enough. -/
theorem callTurn_of_readReg {c : CallInProgress} {s t : State} {r : Reg} {n : Nat} (hn : c.answers.length ≤ n)
    (hnext : whatNext (afterAnswers (procedure n c.call s.drv) c.answers) = .inr (.readReg r))
    (hread : exec (readInstr r) s = .next t) :
    callTurn c s = .next { t with call := some { c with answers := c.answers ++ [t.rdata] } } := by
  rw [callTurn_eq c s hn, hnext]
  simp only [runAccess, hread, andThen_of_next]

/-- At the test of the loop `poll` reads IR. -/
theorem whatNext_pollLoop (n : Nat) (prIn : Half) (d : Driver) : whatNext (pollLoop n prIn d) = .inr (.readReg .ir) := by
  cases n <;> rfl

/-- What IR showed at the test decides whether `poll` begins a pass, at STAT, or comes to its end, at IR. -/
theorem whatNext_after_pollTest (n : Nat) (prIn : Half) (d : Driver) (v : Word) :
    whatNext (afterAnswers (pollLoop (n + 1) prIn d) [v]) = .inr (.readReg (if bitAt 32 v 3 then .stat else .ir)) := by
  change whatNext (afterAnswers (if bitAt 32 v 3 then pollPass prIn d (pollLoop n) else pollEnd prIn d) []) = _
  rw [afterAnswers_nil]
  split
  · rfl
  · rfl

/-- No read of a register is refused. -/
theorem exec_readInstr_next (r : Reg) (s : State) : ∃ t, exec (readInstr r) s = .next t := by
  cases r
  case stat =>
    cases hq : s.fifo with
    | nil => exact ⟨_, execRdStat_empty hq⟩
    | cons e rest => exact ⟨_, execRdStat_head hq⟩
  all_goals exact ⟨_, rfl⟩

/-- The register that `poll` reads after a test, by what was queued at the test. -/
theorem readInstr_after_pollTest (s : State) :
    readInstr (if trnif s then .stat else .ir) = if s.fifo = [] then .rdIr else .rdStat := by
  cases hq : s.fifo with
  | nil => simp [trnif, hq, readInstr]
  | cons e rest => simp [trnif, hq, readInstr]

/-- Settles O56: the answer of the test alone, with the driver's state, says which register the next access reads. -/
theorem pollLoopTestsTheQueue : Obligations.PollLoopTestsTheQueue := by
  intro s answers k prIn d hat
  obtain ⟨u, hread⟩ := exec_readInstr_next .ir s
  have hfifo : u.fifo = s.fifo := by
    obtain rfl := (readDrawn_next_iff ..).1 hread
    rfl
  refine ⟨_, callTurn_of_readReg (n := answers.length + 1) (Nat.le_succ _) ?_ hread, hfifo, rfl, fun t ht => ?_⟩
  · exact (congrArg whatNext hat).trans (whatNext_pollLoop ..)
  · obtain ⟨w, hw⟩ := exec_readInstr_next (if trnif s then .stat else .ir) t
    refine ⟨w, (readInstr_after_pollTest s) ▸ hw, callTurn_of_readReg (n := answers.length + 1) ?_ ?_ hw⟩
    · exact (List.length_append ..).le
    · change whatNext (afterAnswers (poll (answers.length + 1) t.drv) (answers ++ [u.rdata])) = _
      rw [ht, afterAnswers_append, hat, whatNext_after_pollTest, runAccess_readIr hread]

end Sys2Proof.Machine
end

section
/-! SUPPORT. Software's turn in what it has in progress (45_software_agent.md R250, 30_encoding.md R108): who gets the turn, and what
the turn runs. -/

namespace Sys2Proof.Machine

/-! ## Whose turn it is -/

theorem softwareBusy_eq_true {s : State} (h : s.call ≠ none ∨ s.pending ≠ []) : softwareBusy s = true := by
  rw [← Bool.not_eq_false, softwareBusy_eq_false_iff]
  rintro ⟨hc, hp⟩
  exact h.elim (· hc) (· hp)

theorem whoseTurn_software_waits {s : State} {i : Input} {rest : List Input} (hin : s.inputs = i :: rest)
    (ha : agentOf i = .software) (hi : i ≠ .software) (hb : softwareBusy s = true) : whoseTurn s = .software := by
  simp only [whoseTurn, hin, ha, hb, ne_eq, hi, not_false_eq_true, and_self, if_true]

theorem whoseTurn_software_turn {s : State} {rest : List Input} (hin : s.inputs = .software :: rest) :
    whoseTurn s = .input .software rest := by
  simp only [whoseTurn, hin, agentOf, ne_eq, not_true_eq_false, and_false, if_false]

theorem whoseTurn_no_input_software {s : State} (hin : s.inputs = []) (hx : s.txn = none) (hb : softwareBusy s = true) :
    whoseTurn s = .software := by
  simp only [whoseTurn, hin, hx, hb, if_true]

/-! ## What the turn runs -/

theorem step_of_software {s : State} (h : whoseTurn s = .software) : step s = softwareTurn s := by
  simp only [step, nextStep, h]

theorem softwareTurn_pending {s : State} {w : MemAccess} {ws : List MemAccess} (hp : s.pending = w :: ws) :
    softwareTurn s = memAccess w { s with pending := ws } := by
  simp only [softwareTurn, nextWrite, hp]

theorem softwareTurn_call {s : State} {c : CallInProgress} (hp : s.pending = []) (hc : s.call = some c) :
    softwareTurn s = callTurn c s := by
  simp only [softwareTurn, hp, hc]

theorem softwareTurn_free {s : State} (hp : s.pending = []) (hc : s.call = none) : softwareTurn s = .next s := by
  simp only [softwareTurn, hp, hc]

/-- The three ways busy software gets its turn: nothing else is to be done, another operation of software waits, or the inputs
name it. -/
theorem step_eq_softwareTurn {s s' : State} (hbusy : s.call ≠ none ∨ s.pending ≠ [])
    (hmove : (s' = s ∧ ((s.inputs = [] ∧ s.txn = none) ∨
        ∃ i rest, s.inputs = i :: rest ∧ agentOf i = .software ∧ i ≠ .software)) ∨
      ∃ rest, s.inputs = .software :: rest ∧ s' = { s with inputs := rest }) : step s = softwareTurn s' := by
  have hb := softwareBusy_eq_true hbusy
  rcases hmove with ⟨rfl, ⟨hin, hx⟩ | ⟨i, rest, hin, ha, hi⟩⟩ | ⟨rest, hin, rfl⟩
  · exact step_of_software (whoseTurn_no_input_software hin hx hb)
  · exact step_of_software (whoseTurn_software_waits hin ha hi hb)
  · exact step_of_input (whoseTurn_software_turn hin)

/-- A call given to idle software begins (R250). -/
theorem step_call {s : State} {c : Call} {rest : List Input} (hin : s.inputs = .call c :: rest) (hc : s.call = none)
    (hp : s.pending = []) : step s = startCall c { s with inputs := rest } :=
  step_of_input (whoseTurn_software_free hin rfl ((softwareBusy_eq_false_iff s).2 ⟨hc, hp⟩))

/-- Settles O7: a call begins by its two forms, and however software gets its turn, the turn makes the next write or access of
what is in progress. -/
theorem stepRunsCall : Obligations.StepRunsCall := by
  refine ⟨fun s c rest hin hc hp => ?_, fun s s' hbusy hmove => ?_, fun s rest hc hp hin => ?_⟩
  · rw [step_call hin hc hp]
    exact ⟨fun hf => if_pos hf, fun hf => if_neg (ne_true_of_eq_false hf)⟩
  · have hsame : s'.pending = s.pending ∧ s'.call = s.call := by
      rcases hmove with ⟨rfl, -⟩ | ⟨rest, -, rfl⟩
      · exact ⟨rfl, rfl⟩
      · exact ⟨rfl, rfl⟩
    rw [step_eq_softwareTurn hbusy hmove]
    exact ⟨fun w ws hp => softwareTurn_pending (hsame.1.trans hp),
      fun c hp hc => softwareTurn_call (hsame.1.trans hp) (hsame.2.trans hc)⟩
  · exact (step_of_input (whoseTurn_software_turn hin)).trans (softwareTurn_free hp hc)

end Sys2Proof.Machine
end

section
/-! SUPPORT. The procedures of one control block (45_software_agent.md R256, R257, R259, R260), run to their end: what they leave in
memory, in the block and in the driver's result, and the packet that a `write` hands to the engine. -/

namespace Sys2Proof.Machine

/-! ## `arm_generic` -/

theorem armGeneric_some {d : Driver} {ep : Fin 16} {dir : Dir} {e : Ecb} (he : ecbOf d ep dir = some e) (len : Nat) (stall : Bool)
    (next : CallResult → Driver → Procedure) : armGeneric ep dir len stall d next = armGenericOn ep dir e len stall d next := by
  simp only [armGeneric, he]

/-- Settles O49: the first check of `arm_generic` fails, and the call returns. -/
theorem armGenericOverflow : Obligations.ArmGenericOverflow := by
  intro s ep dir len stall e he hlen
  change runProcedure (armGeneric ep dir len stall s.drv ret) s = _
  rw [armGeneric_some he, armGenericOn, if_pos hlen, runProcedure_ret]

/-- A descriptor after the three writes of `arm_generic`, `flags` last (45_software_agent.md R256). -/
def handedOver (bd : Nat) (n : Half) (a : Word) (flags : Half) (s : State) : State :=
  storeHalf (storeHalf (storeWord s (bd + 4) a) (bd + 2) n) bd flags

theorem handedOver_frame (bd : Nat) (n : Half) (a : Word) (flags : Half) (s : State) :
    handedOver bd n a flags s = { s with mem := (handedOver bd n a flags s).mem } := rfl

theorem handedOver_reads (bd : Nat) (n : Half) (a : Word) (flags : Half) (s : State) :
    readHalf (handedOver bd n a flags s) bd = flags ∧ readHalf (handedOver bd n a flags s) (bd + 2) = n ∧
    readWord (handedOver bd n a flags s) (bd + 4) = a ∧
    ∀ b, (b < bd ∨ bd + 8 ≤ b) → readByte (handedOver bd n a flags s) b = readByte s b := by
  refine ⟨readHalf_storeHalf .., ?_, ?_, fun b hb => ?_⟩
  · rw [handedOver, storeHalf, readHalf_storeBytes_outside (by simp), readHalf_storeHalf]
  · rw [handedOver, storeHalf, readWord_storeBytes_outside (by rw [length_halfBytes]; omega), storeHalf,
      readWord_storeBytes_outside (by rw [length_halfBytes]; omega), readWord_storeWord]
  · rw [handedOver, (storeHalf_reads ..).2 b (by omega), (storeHalf_reads ..).2 b (by omega), storeWord,
      readByte_storeBytes_outside _ _ _ (by rw [length_wordBytes]; omega)]

/-- `arm_generic` where its three checks pass (R256). -/
theorem runProcedure_armGenericOn_passes {e : Ecb} {len : Nat} {stall : Bool} (hlen : len ≤ e.epSize)
    (hctr : e.armedCtr + e.completeCtr < 2) (hstall : ¬(e.stalled = true ∧ stall = true))
    (hfit : slotOf e e.nextOdd + 8 ≤ 2 ^ 32) (ep : Fin 16) (dir : Dir) (d : Driver) (next : CallResult → Driver → Procedure)
    (s : State) : runProcedure (armGenericOn ep dir e len stall d next) s =
      runProcedure (next .ok (putEcb d ep dir (some (armedEcb e stall))))
        (handedOver (slotOf e e.nextOdd) (BitVec.ofNat 16 len) (bufOf e e.nextOdd) (armFlags e stall) s) :=
  runProcedure_armGenericOn hlen hctr hstall hfit ep dir d next s

/-- Settles O50: the checks pass, and the three writes leave the descriptor as `handedOver_reads` says. -/
theorem armGenericArms : Obligations.ArmGenericArms := by
  intro s ep dir len stall e bd iso he hlen hlen16 hctr hstall hbd hfit hiso
  subst hbd hiso
  have hrun : runCall (.armGeneric ep dir len stall) s = .next { handedOver (slotOf e e.nextOdd) (BitVec.ofNat 16 len)
      (bufOf e e.nextOdd) (armFlags e stall) s with
      drv := { putEcb s.drv ep dir (some (armedEcb e stall)) with result := .ok } } := by
    change runProcedure (armGeneric ep dir len stall s.drv ret) s = _
    rw [armGeneric_some he, runProcedure_armGenericOn_passes hlen hctr hstall hfit, runProcedure_ret]
  obtain ⟨hflags, hcount, haddr, hrest⟩ :=
    handedOver_reads (slotOf e e.nextOdd) (BitVec.ofNat 16 len) (bufOf e e.nextOdd) (armFlags e stall) s
  have hframe := handedOver_frame (slotOf e e.nextOdd) (BitVec.ofNat 16 len) (bufOf e e.nextOdd) (armFlags e stall) s
  generalize handedOver (slotOf e e.nextOdd) (BitVec.ofNat 16 len) (bufOf e e.nextOdd) (armFlags e stall) s = t at *
  refine ⟨_, hrun, by rw [hframe], rfl, haddr, ?_, ?_, hrest, ?_⟩
  · exact (congrArg BitVec.toNat hcount).trans (Nat.mod_eq_of_lt hlen16)
  · exact (congrArg BitVec.toNat hflags).trans (armFlags_toNat e stall)
  · refine (ecbOf_putEcb_self s.drv ep dir (some (armedEcb e stall))).trans ?_
    simp only [armedEcb, decide_eq_true_eq]

/-! ## `cancel` and `clear_completed` -/

/-- A pair of descriptors given back to software (45_software_agent.md R259). -/
def takenBack (e : Ecb) (s : State) : State :=
  storeHalf (storeHalf s (slotOf e false) 0#16) (slotOf e true) 0#16

theorem slotOf_true (e : Ecb) : slotOf e true = slotOf e false + 8 := by
  simp [slotOf, natOfBool]

theorem readHalf_takenBack (e : Ecb) (odd : Bool) (s : State) : readHalf (takenBack e s) (slotOf e odd) = 0#16 := by
  cases odd with
  | true => exact readHalf_storeHalf ..
  | false =>
    rw [takenBack, slotOf_true, storeHalf, readHalf_storeBytes_outside (by omega), readHalf_storeHalf]

/-- The flags of no other descriptor are touched. -/
theorem readByte_takenBack {e : Ecb} {b : Nat} (h : ∀ odd, b < slotOf e odd ∨ slotOf e odd + 2 ≤ b) (s : State) :
    readByte (takenBack e s) b = readByte s b := by
  rw [takenBack, (storeHalf_reads ..).2 b (h true), (storeHalf_reads ..).2 b (h false)]

/-- Settles O51: `cancel` makes the writes of `takenBack`, `clear_completed` makes no access. -/
theorem cancelAndClear : Obligations.CancelAndClear := by
  intro s ep dir e he
  refine ⟨fun hfit => ?_, ?_⟩
  · refine ⟨_, runProcedure_cancel he hfit ret s, rfl, fun odd => readHalf_takenBack e odd s,
      fun b hb => readByte_takenBack hb s, ?_⟩
    exact ecbOf_putEcb_self ..
  · have hrun : runCall (.clearCompleted ep dir) s =
        .next { s with drv := { updateEcb ep dir clearedEcb s.drv with result := .ok } } := by
      change runProcedure (clearCompleted ep dir s.drv) s = _
      simp only [clearCompleted, he, runProcedure_ret]
    refine ⟨_, hrun, rfl, ?_⟩
    refine (ecbOf_updateEcb ep dir clearedEcb s.drv ep dir).trans ?_
    rw [if_pos ⟨rfl, rfl⟩, he]
    rfl

/-! ## `write`, and the IN that follows -/

theorem slotOf_eq_bdAddr {e : Ecb} {base : Word} {ep : Fin 16} {dir : Dir} (h : e.pair.toNat = bdAddr base ep dir false)
    (odd : Bool) : slotOf e odd = bdAddr base ep dir odd := by
  cases odd with
  | false => exact h
  | true => rw [slotOf_true, bdAddr_odd, ← h]; rfl

theorem busWrite_tx (ep : Fin 16) (buf : List Byte) (d : Driver) : busWrite { dir := .tx, num := ep.val } buf d = writeEp ep buf d := by
  rw [busWrite, dif_pos ep.isLt, if_pos rfl]

/-- The bytes of a range are those stored there, if they are still there. -/
theorem bytesOf_eq_of_readByte {s : State} {a : Nat} {bs : List Byte}
    (h : ∀ i (hi : i < bs.length), readByte s (a + i) = bs[i]) : bytesOf s a bs.length = bs := by
  refine List.ext_getElem (by simp [bytesOf]) fun i _ hi => ?_
  simp only [bytesOf, List.getElem_map, List.getElem_range]
  exact h i hi

/-- `u` is `s` after `write` of a control block took the bytes `buf` (45_software_agent.md R257): they lie in the buffer of the next
parity, whose descriptor holds the data command for them. -/
structure Written (s u : State) (e : Ecb) (buf : List Byte) : Prop where
  command : readWord u (slotOf e e.nextOdd) = word0 (BitVec.ofNat 16 buf.length) (armFlags e false)
  address : readWord u (slotOf e e.nextOdd + 4) = bufOf e e.nextOdd
  buffer : bytesOf u (bufOf e e.nextOdd).toNat buf.length = buf
  result : u.drv.result = .length buf.length
  frame : u = { s with mem := u.mem, rdata := u.rdata, drv := u.drv }

/-- The copy of a buffer off the descriptor, and then the hand-over of the descriptor. -/
theorem written_handedOver {e : Ecb} {buf : List Byte}
    (hoff : (bufOf e e.nextOdd).toNat + buf.length ≤ slotOf e e.nextOdd ∨ slotOf e e.nextOdd + 8 ≤ (bufOf e e.nextOdd).toNat)
    {s t : State} {d : Driver} (hd : d.result = .length buf.length) (v : Word)
    (ht : t = handedOver (slotOf e e.nextOdd) (BitVec.ofNat 16 buf.length) (bufOf e e.nextOdd) (armFlags e false)
      (storeBytes (setRdata s v) (bufOf e e.nextOdd).toNat buf)) : Written s { t with drv := d } e buf := by
  obtain ⟨hflags, hcount, haddr, hrest⟩ := handedOver_reads (slotOf e e.nextOdd) (BitVec.ofNat 16 buf.length)
    (bufOf e e.nextOdd) (armFlags e false) (storeBytes (setRdata s v) (bufOf e e.nextOdd).toNat buf)
  have hframe := handedOver_frame (slotOf e e.nextOdd) (BitVec.ofNat 16 buf.length) (bufOf e e.nextOdd) (armFlags e false)
    (storeBytes (setRdata s v) (bufOf e e.nextOdd).toNat buf)
  rw [← ht] at hflags hcount haddr hrest hframe
  refine ⟨?_, haddr, bytesOf_eq_of_readByte fun i hi => ?_, hd, by rw [hframe]; rfl⟩
  · exact (readWord_eq_word0 t _).trans (by rw [hcount, hflags])
  · exact (hrest _ (by omega)).trans (readByte_storeBytes_inside _ _ _ hi)

/-- `write` where no check fails and the next descriptor is software's (R257). -/
theorem runCall_write {s : State} {ep : Fin 16} {e : Ecb} {buf : List Byte} (he : ecbOf s.drv ep .tx = some e)
    (hlen : buf.length ≤ e.epSize) (hctr : e.armedCtr + e.completeCtr < 2) (hstall : e.stalled = false)
    (hfit : slotOf e e.nextOdd + 8 ≤ 2 ^ 32) (hbuf : (bufOf e e.nextOdd).toNat + buf.length ≤ 2 ^ 32)
    (hoff : (bufOf e e.nextOdd).toNat + buf.length ≤ slotOf e e.nextOdd ∨ slotOf e e.nextOdd + 8 ≤ (bufOf e e.nextOdd).toNat)
    (hown : bitAt 16 (readHalf s (slotOf e e.nextOdd)) 7 = false) :
    ∃ u, runCall (.write { dir := .tx, num := ep.val } buf) s = .next u ∧ Written s u e buf := by
  refine ⟨_, ?_, written_handedOver (d := { putEcb s.drv ep .tx (some (armedEcb e false)) with result := .length buf.length })
    hoff rfl ((readHalf s (slotOf e e.nextOdd)).setWidth 32) rfl⟩
  change runProcedure (busWrite { dir := .tx, num := ep.val } buf s.drv) s = _
  rw [busWrite_tx, writeEp, he]
  dsimp only
  rw [if_neg (by omega), canArmOn, runProcedure_mr16 (by omega), if_neg (ne_true_of_eq_false hown)]
  dsimp only
  rw [runProcedure_mwBytes hbuf, runProcedure_armGenericOn_passes hlen hctr (by simp [hstall]) hfit, runProcedure_ret]

theorem armFlags_false (e : Ecb) : armFlags e false =
    dataFlags (decide (e.epType ≠ .isochronous) && e.data01) (decide (e.epType ≠ .isochronous)) := by
  rw [armFlags, decide_not]
  rfl

/-- The descriptor that `write` armed holds a data command of the block's toggle (41_descriptor_ops.md R160). -/
theorem Written.fetchCommand {s u : State} {e : Ecb} {buf : List Byte} (h : Written s u e buf) (hmax : buf.length ≤ 1023) :
    Sys2Proof.fetchCommand (readWord u (slotOf e e.nextOdd)) =
      .ok (.data (decide (e.epType ≠ .isochronous) && e.data01) (decide (e.epType ≠ .isochronous))
        (BitVec.ofNat 16 buf.length)) := by
  rw [h.command, armFlags_false, fetchCommand_dataFlags]
  rw [BitVec.toNat_ofNat, Nat.mod_eq_of_lt (by omega)]
  exact hmax

theorem bitAt_resultFlags_uown (t : Bool) (k : Kind) : bitAt 16 (resultFlags t k) 7 = false := by
  cases t <;> cases k <;> rfl

/-- A descriptor that its completion step retired is software's (43_completion.md R231). -/
theorem Completed.ownedByEngine {s t : State} {ep : Fin 16} {dir : Dir} {odd : Bool} {n : Half} {tg : Bool} {k : Kind} {a : Nat}
    {bs : List Byte} (h : Completed s t (bdtBase s) ep dir odd n tg k a bs) : Machine.ownedByEngine t ep dir odd = false := by
  have hbase : bdtBase t = bdtBase s := by rw [h.frame]; rfl
  rw [ownedByEngine_eq, hbase, h.readHalf_descriptor, bitAt_resultFlags_uown]

/-- Settles O60: `write` leaves a data command for the buffer it filled, and the IN sends that buffer. -/
theorem writtenBytesAreSent : Obligations.WrittenBytesAreSent := by
  intro s addr ep e buf a bd hpass hfine he hodd hpair hlen hmax hctr hstall ha hvalid hspace hbd hoff hown
  obtain rfl : a = bufOf e e.nextOdd := ha
  obtain rfl : slotOf e e.nextOdd = bd := (slotOf_eq_bdAddr hpair _).trans hbd.symm
  have hfit : slotOf e e.nextOdd + 8 ≤ 2 ^ 32 := hbd ▸ bdAddr_bdtBase_lt ..
  rw [ownedByEngine_eq, ← hbd] at hown
  obtain ⟨u, hrun, hu⟩ := runCall_write he hlen hctr hstall hfit hspace hoff hown
  have hbd : bdAddr (bdtBase u) ep .tx e.nextOdd = slotOf e e.nextOdd := by rw [hu.frame, hbd]; rfl
  have hn : (BitVec.ofNat 16 buf.length).toNat = buf.length := Nat.mod_eq_of_lt (by omega)
  obtain ⟨-, -, retired⟩ := busInTransaction u addr ep true e.nextOdd (bufOf e e.nextOdd) _ _ (BitVec.ofNat 16 buf.length)
    (by rw [hu.frame]; exact hpass) (by rw [hu.frame]; exact hfine) (by rw [hu.frame]; exact hodd)
    (by rw [hbd]; exact hu.fetchCommand hmax) (by rw [hbd, hu.address])
  rw [hn, hu.buffer] at retired
  obtain ⟨v, hv, hdone, hresp, -⟩ := retired (by rw [hu.frame]; exact hvalid) (.inr rfl)
  refine ⟨u, v, hrun, hu.result, hv, hresp, ?_, hdone.ownedByEngine⟩
  rw [hdone.queue, hu.frame]

end Sys2Proof.Machine
end

section
/-! SUPPORT. What every driver call keeps, whole or access by access (45_software_agent.md R251, R262): the bounds of the counters, the
places of the descriptor pairs, the table. -/

namespace Sys2Proof.Machine

/-! ## A condition kept by a call, whole or turn by turn -/

section Kept

variable {I : Driver → Prop} (h : KeptByCalls I) {s u : State} (hd : I s.drv)
include h hd

theorem runCall_keeps_drv {c : Call} (hnew : ∀ table, c = .new table → I { Driver.initial with table := table })
    (hpoll : c = .poll → KeptByPoll I) (hu : runCall c s = .next u) : I u.drv :=
  runProcedure_drv (returnsAll_procedure h hd _ c hnew hpoll) hu

theorem callTurn_keeps_drv {c : CallInProgress}
    (hnew : ∀ table, c.call = .new table → I { Driver.initial with table := table }) (hpoll : c.call = .poll → KeptByPoll I)
    (hu : callTurn c s = .next u) : I u.drv := by
  rcases callTurn_drv (fun n => returnsAll_procedure h hd n c.call hnew hpoll) hu with heq | hI
  · rwa [heq]
  · exact hI

end Kept

/-- Only at its return does a call in progress change the driver's state (log 17). -/
theorem callTurn_drv_at_return {P : Driver → Prop} {c : CallInProgress} {s t : State}
    (hp : ∀ n, returnsAll P (procedure n c.call s.drv)) (h : callTurn c s = .next t) :
    (t.call = none ∧ P t.drv) ∨ (t.call ≠ none ∧ t.drv = s.drv) := by
  have hr := returnsAll_afterAnswers (hp (c.answers.length + 1)) c.answers
  unfold callTurn at h
  split at h
  · rename_i d hd
    rw [hd] at hr
    cases h
    exact .inl ⟨rfl, hr⟩
  · obtain ⟨u, hu, h⟩ := (andThen_next_iff _ _ _).1 h
    cases h
    exact .inr ⟨Option.some_ne_none _, (runAccess_drv hu).1⟩

/-! ## The counters -/

/-- A condition on single blocks that every change of a block by a call other than `poll` keeps. -/
structure KeptOfBlock (P : Ecb → Prop) : Prop where
  armed : ∀ e stall, P e → e.armedCtr + e.completeCtr < 2 → P (armedEcb e stall)
  taken : ∀ e, P e → e.completeCtr ≠ 0 →
    P { e with completeCtr := e.completeCtr - 1, nextCompleteOdd := !e.nextCompleteOdd }
  cancelled : ∀ e, P e → P (cancelledEcb e)
  cleared : ∀ e, P e → P (clearedEcb e)
  allocated : ∀ ty size b0 b1 pair, P (newEcb ty size b0 b1 pair)

theorem KeptOfBlock.keptByCalls {P : Ecb → Prop} (h : KeptOfBlock P) : KeptByCalls (everyEcb fun _ _ => P) where
  notes _ _ _ _ hd := hd
  armed _ ep dir e stall hd he hctr := everyEcb_putEcb hd ep dir fun _ h' => by
    cases h'; exact h.armed e stall (hd _ _ _ he) hctr
  taken _ ep dir e hd he hctr := everyEcb_putEcb hd ep dir fun _ h' => by
    cases h'; exact h.taken e (hd _ _ _ he) hctr
  cancelled _ ep dir e hd he := everyEcb_putEcb hd ep dir fun _ h' => by
    cases h'; exact h.cancelled e (hd _ _ _ he)
  cleared _ ep dir hd := everyEcb_updateEcb hd ep dir h.cleared
  dropped _ ep dir hd := everyEcb_putEcb hd ep dir fun _ h' => by cases h'
  allocated _ ep dir ty size b0 b1 hd := everyEcb_putEcb hd ep dir fun _ h' => by
    cases h'; exact h.allocated ty size b0 b1 _

theorem armedCtr_armedEcb (e : Ecb) (stall : Bool) :
    (armedEcb e stall).armedCtr = if stall then e.armedCtr else e.armedCtr + 1 := by
  cases stall <;> rfl

theorem completeCtr_armedEcb (e : Ecb) (stall : Bool) : (armedEcb e stall).completeCtr = e.completeCtr := by
  cases stall <;> rfl

theorem ecbBounded_armedEcb {e : Ecb} (h : ecbBounded e) (hctr : e.armedCtr + e.completeCtr < 2) (stall : Bool) :
    ecbBounded (armedEcb e stall) := by
  obtain ⟨h0, -⟩ := h
  rw [ecbBounded, armedCtr_armedEcb, completeCtr_armedEcb]
  refine ⟨h0, ?_⟩
  split
  · omega
  · omega

theorem ecbBounded_of_zero {e : Ecb} (ha : e.armedCtr = 0) (hc : e.completeCtr = 0) : ecbBounded e := by
  constructor <;> omega

theorem keptOfBlock_ecbBounded : KeptOfBlock ecbBounded where
  armed e stall h hctr := ecbBounded_armedEcb h hctr stall
  taken e h hctr := by
    obtain ⟨h0, h2⟩ := h
    constructor <;> dsimp only <;> omega
  cancelled e _ := ecbBounded_of_zero rfl rfl
  cleared e h := by
    obtain ⟨h0, h2⟩ := h
    constructor <;> dsimp only [clearedEcb] <;> omega
  allocated _ _ _ _ _ := ecbBounded_of_zero rfl rfl

theorem ecbBounded_countReceived {e : Ecb} (h : ecbBounded e) : ecbBounded (countReceived e) := by
  obtain ⟨h0, h2⟩ := h
  constructor <;> dsimp only [countReceived] <;> omega

theorem ecbBounded_countSent {e : Ecb} (h : ecbBounded e) : ecbBounded (countSent e) := by
  obtain ⟨h0, h2⟩ := h
  constructor <;> dsimp only [countSent] <;> omega

theorem keptByPoll_driverBounded : KeptByPoll driverBounded where
  toKeptByCalls := keptOfBlock_ecbBounded.keptByCalls
  received _ ep hd := everyEcb_updateEcb hd ep .rx fun _ => ecbBounded_countReceived
  sent _ ep hd := everyEcb_updateEcb hd ep .tx fun _ => ecbBounded_countSent
  setup _ ep hd := everyEcb_updateEcb hd ep .rx fun e he =>
    ecbBounded_countReceived (keptOfBlock_ecbBounded.cleared e he)
  toggled _ ep dir hd := everyEcb_updateEcb hd ep dir fun _ he => he

/-- Settles O52: every change of a block keeps its bound, and at each turn the driver's state is the old one or a returned one. -/
theorem driverCountersBounded : Obligations.DriverCountersBounded := by
  have hkept := keptByPoll_driverBounded
  have hnew : ∀ table, driverBounded { Driver.initial with table := table } := everyEcb_initial _
  exact ⟨fun s u c hd hu => runCall_keeps_drv hkept.toKeptByCalls hd (fun table _ => hnew table) (fun _ => hkept) hu,
    fun s u c hd hu => callTurn_keeps_drv hkept.toKeptByCalls hd (fun table _ => hnew table) (fun _ => hkept) hu⟩

/-- Both counters of a block are in 0..2 (45_software_agent.md R251). -/
def EcbInRange (e : Ecb) : Prop :=
  0 ≤ e.armedCtr ∧ ecbBounded e

theorem keptOfBlock_ecbInRange : KeptOfBlock EcbInRange where
  armed e stall h hctr := by
    refine ⟨?_, ecbBounded_armedEcb h.2 hctr stall⟩
    rw [armedCtr_armedEcb]
    split
    · exact h.1
    · exact Int.le_add_one h.1
  taken e h hctr := ⟨h.1, keptOfBlock_ecbBounded.taken e h.2 hctr⟩
  cancelled e h := ⟨le_rfl, keptOfBlock_ecbBounded.cancelled e h.2⟩
  cleared e h := ⟨h.1, keptOfBlock_ecbBounded.cleared e h.2⟩
  allocated _ _ _ _ _ := ⟨le_rfl, ecbBounded_of_zero rfl rfl⟩

/-- Every call but `poll` keeps the counters in their range. -/
theorem runCall_inRange {s u : State} {c : Call} (hc : c ≠ .poll) (hd : driverInRange s.drv) (hu : runCall c s = .next u) :
    driverInRange u.drv :=
  runCall_keeps_drv keptOfBlock_ecbInRange.keptByCalls hd (fun table _ => everyEcb_initial _ table)
    (fun h => absurd h hc) hu

/-! ## The pairs and the table -/

theorem driverPlaced_putEcb {d : Driver} (h : driverPlaced d) (ep : Fin 16) (dir : Dir) {e : Option Ecb}
    (he : ∀ e', e = some e' → e'.pair.toNat = bdAddr d.table ep dir false) : driverPlaced (putEcb d ep dir e) := by
  obtain ⟨htable, hpairs⟩ := h
  rw [driverPlaced, table_putEcb]
  exact ⟨htable, everyEcb_putEcb (P := fun ep dir e => e.pair.toNat = bdAddr d.table ep dir false) hpairs ep dir he⟩

/-- An update that leaves the pair where it is. -/
theorem driverPlaced_updateEcb {d : Driver} (h : driverPlaced d) (ep : Fin 16) (dir : Dir) {f : Ecb → Ecb}
    (hf : ∀ e, (f e).pair = e.pair) : driverPlaced (updateEcb ep dir f d) := by
  obtain ⟨htable, hpairs⟩ := h
  rw [driverPlaced, table_updateEcb]
  refine ⟨htable, everyEcb_updateEcb (P := fun ep dir e => e.pair.toNat = bdAddr d.table ep dir false) hpairs ep dir ?_⟩
  intro e he
  rwa [hf]

theorem driverPlaced_initial {table : Word} (h : table.toNat % 512 = 0) :
    driverPlaced { Driver.initial with table := table } :=
  ⟨h, everyEcb_initial _ table⟩

theorem pair_armedEcb (e : Ecb) (stall : Bool) : (armedEcb e stall).pair = e.pair := by
  cases stall <;> rfl

theorem keptByPoll_driverPlaced : KeptByPoll driverPlaced where
  notes _ _ _ _ hd := hd
  armed _ ep dir e stall hd he _ := driverPlaced_putEcb hd ep dir fun _ h' => by
    cases h'; rw [pair_armedEcb]; exact hd.2 _ _ _ he
  taken _ ep dir e hd he _ := driverPlaced_putEcb hd ep dir fun _ h' => by
    cases h'; exact hd.2 _ _ e he
  cancelled _ ep dir e hd he := driverPlaced_putEcb hd ep dir fun _ h' => by
    cases h'; exact hd.2 _ _ e he
  cleared _ ep dir hd := driverPlaced_updateEcb hd ep dir fun _ => rfl
  dropped _ ep dir hd := driverPlaced_putEcb hd ep dir fun _ h' => by cases h'
  allocated d ep dir ty size b0 b1 hd := driverPlaced_putEcb hd ep dir fun _ h' => by
    cases h'
    have hlt := bdAddr_lt hd.1 ep dir false
    exact (BitVec.toNat_ofNat ..).trans (Nat.mod_eq_of_lt (by omega))
  received _ ep hd := driverPlaced_updateEcb hd ep .rx fun _ => rfl
  sent _ ep hd := driverPlaced_updateEcb hd ep .tx fun _ => rfl
  setup _ ep hd := driverPlaced_updateEcb hd ep .rx fun _ => rfl
  toggled _ ep dir hd := driverPlaced_updateEcb hd ep dir fun _ => rfl

theorem keptByPoll_table (P : Word → Prop) : KeptByPoll fun d => P d.table where
  notes _ _ _ _ hd := hd
  armed _ _ _ _ _ hd _ _ := by rwa [table_putEcb]
  taken _ _ _ _ hd _ _ := by rwa [table_putEcb]
  cancelled _ _ _ _ hd _ := by rwa [table_putEcb]
  cleared _ _ _ hd := by rwa [table_updateEcb]
  dropped _ _ _ hd := by rwa [table_putEcb]
  allocated _ _ _ _ _ _ _ hd := by rwa [table_putEcb]
  received _ _ hd := by rwa [table_updateEcb]
  sent _ _ hd := by rwa [table_updateEcb]
  setup _ _ hd := by rwa [table_updateEcb]
  toggled _ _ _ hd := by rwa [table_updateEcb]

/-- What a call makes of the table at `t` (R262): `new` sets it to the one it is given, any other call leaves it. -/
def TableAfter (c : Call) (t t' : Word) : Prop :=
  c = .new t' ∨ ((∀ table, c ≠ .new table) ∧ t' = t)

theorem TableAfter.of_new {table t t' : Word} (h : TableAfter (.new table) t t') : t' = table := by
  rcases h with h | ⟨h, -⟩
  · cases h; rfl
  · exact absurd rfl (h table)

theorem TableAfter.of_other {c : Call} {t t' : Word} (h : TableAfter c t t') (hc : ∀ table, c ≠ .new table) : t' = t :=
  h.elim (fun h => absurd h (hc t')) And.right

theorem returnsAll_table (n : Nat) (c : Call) (d : Driver) :
    returnsAll (fun d' => TableAfter c d.table d'.table) (procedure n c d) := by
  by_cases hc : ∃ table, c = .new table
  · obtain ⟨table, rfl⟩ := hc
    exact fun _ _ _ => returnsAll_disableAll (p := setBase table (.returns { Driver.initial with table := table }))
      (fun _ _ _ => .inl rfl) _
  · have hother : ∀ table, c ≠ .new table := fun table h => hc ⟨table, h⟩
    have hkept := keptByPoll_table (TableAfter c d.table)
    exact returnsAll_procedure hkept.toKeptByCalls (.inr ⟨hother, rfl⟩) n c (fun table h => absurd h (hother table))
      fun _ => hkept

theorem runCall_table {c : Call} {s u : State} (h : runCall c s = .next u) : TableAfter c s.drv.table u.drv.table :=
  runProcedure_drv (returnsAll_table _ c s.drv) h

/-- A turn of a call in progress leaves the table, or the call returns. -/
theorem callTurn_table {c : CallInProgress} {s u : State} (h : callTurn c s = .next u) :
    (u.call = none ∧ TableAfter c.call s.drv.table u.drv.table) ∨ (u.call ≠ none ∧ u.drv.table = s.drv.table) :=
  (callTurn_drv_at_return (fun n => returnsAll_table n c.call s.drv) h).imp_right (And.imp_right (congrArg Driver.table))

/-- A step changes the table only in a call of `new`. -/
theorem step_table {s u : State} (h : step s = .next u) : u.drv.table = s.drv.table ∨
    (∃ c, s.call = some c ∧ c.call = .new u.drv.table) ∨ ∃ rest, s.inputs = .call (.new u.drv.table) :: rest := by
  rcases step_drv h with heq | ⟨s1, hs1, ⟨c, hc, hturn⟩ | ⟨c, rest, hin, -, hrun⟩⟩
  · exact .inl (congrArg Driver.table heq)
  · rw [← hs1]
    rcases callTurn_table hturn with ⟨-, hnew | ⟨-, heq⟩⟩ | ⟨-, heq⟩
    · exact .inr (.inl ⟨c, hc, hnew⟩)
    · exact .inl heq
    · exact .inl heq
  · rw [← hs1]
    rcases runCall_table hrun with rfl | ⟨-, heq⟩
    · exact .inr (.inr ⟨rest, hin⟩)
    · exact .inl heq

/-- Settles O54: the changes of every call keep the pairs in place, and of the returns only that of `new` sets the table. -/
theorem driverKeepsItsDescriptors : Obligations.DriverKeepsItsDescriptors := by
  have hkept := keptByPoll_driverPlaced
  refine ⟨driverPlaced_initial (table := 0#32) rfl, fun s u c hnew hd hu => ?_, fun s u c hnew hd hu => ?_, fun s u c hu => ?_,
    fun s u c hu => ?_, fun s u => step_table⟩
  · exact runCall_keeps_drv hkept.toKeptByCalls hd (fun table hc => driverPlaced_initial (hnew table hc)) (fun _ => hkept) hu
  · exact callTurn_keeps_drv hkept.toKeptByCalls hd (fun table hc => driverPlaced_initial (hnew table hc)) (fun _ => hkept) hu
  · have htable := runCall_table hu
    exact ⟨fun table hc => (hc ▸ htable).of_new, htable.of_other⟩
  · rcases callTurn_table hu with ⟨hreturn, htable⟩ | ⟨hgoes, htable⟩
    · exact ⟨fun table hc => by rw [if_pos hreturn]; exact (hc ▸ htable).of_new, htable.of_other⟩
    · exact ⟨fun _ _ => by rw [if_neg hgoes, htable], fun _ => htable⟩

end Sys2Proof.Machine
end

section
/-! SUPPORT. `poll` run as one step (45_software_agent.md R270): what one pass of its loop, the whole loop and its end make of the
machine and of the driver's state. -/

namespace Sys2Proof.Machine

/-! ## A SETUP completion -/

theorem driverPlaced.pair_fits {d : Driver} (h : driverPlaced d) {ep : Fin 16} {dir : Dir} {e : Ecb}
    (he : ecbOf d ep dir = some e) : e.pair.toNat + 16 ≤ 2 ^ 32 := by
  have hlt := bdAddr_lt h.1 ep dir true
  rw [bdAddr_odd, ← h.2 ep dir e he] at hlt
  exact hlt

/-- Memory after the IN side of an endpoint is given back to software, if it has a control block (45_software_agent.md R259). -/
def reclaimTx (ep : Fin 16) (d : Driver) (s : State) : State :=
  match ecbOf d ep .tx with
  | none => s
  | some e => takenBack e s

theorem reclaimTx_none {ep : Fin 16} {d : Driver} (h : ecbOf d ep .tx = none) (s : State) : reclaimTx ep d s = s := by
  simp only [reclaimTx, h]

theorem reclaimTx_some {ep : Fin 16} {d : Driver} {e : Ecb} (h : ecbOf d ep .tx = some e) (s : State) :
    reclaimTx ep d s = takenBack e s := by
  simp only [reclaimTx, h]

/-- `poll` on a SETUP completion: `cancel` of the IN side, the driver's state, CLRPKTDIS. -/
theorem runProcedure_handleSetup {d : Driver} (hd : driverPlaced d) (ep : Fin 16) (next : Driver → Procedure) (s : State) :
    ∃ v, runProcedure (handleSetup ep d next) s =
      runProcedure (next (afterSetup ep (updateEcb ep .tx cancelledEcb d)))
        { reclaimTx ep d s with rdata := v, draws := s.draws + 1, pktdis := false } := by
  cases he : ecbOf d ep .tx with
  | none =>
    obtain ⟨v, hv⟩ := runProcedure_clrPktdis s
    refine ⟨v, ?_⟩
    simp only [handleSetup, cancel, he, updateEcb, hv, reclaimTx]
  | some e =>
    obtain ⟨v, hv⟩ := runProcedure_clrPktdis (takenBack e s)
    refine ⟨v, ?_⟩
    rw [handleSetup, runProcedure_cancel he (hd.pair_fits he), reclaimTx_some he, updateEcb, he]
    exact hv _

/-! ## One pass of the loop -/

/-- The token whose completion the descriptor of a queue entry names in the driver's table, if it names one (R270). -/
def retiredKind (s : State) (table : Word) (q : Entry) : Option Kind :=
  kindOfPid ((readHalf s (bdAddr table q.ep q.dir q.odd)).extractLsb' 2 4)

/-- The driver's state after a pass. -/
def passDriver (q : Entry) (d : Driver) : Option Kind → Driver
  | some .out => handleOut q.ep d
  | some .inn => handleIn q.ep d
  | some .setup => afterSetup q.ep (updateEcb q.ep .tx cancelledEcb d)
  | none => d

/-- The completed IN endpoints after a pass. -/
def passReport (q : Entry) (prIn : Half) : Option Kind → Half
  | some .inn => prIn ||| epMask q.ep
  | some .out => prIn
  | some .setup => prIn
  | none => prIn

/-- `t` is `s` after a pass that handled the entry `q` as a completion of `k` and left `rest` queued. -/
structure AfterPass (s : State) (d : Driver) (q : Entry) (rest : List Entry) (k : Option Kind) (t : State) : Prop where
  memory : t.mem = (if k = some .setup then reclaimTx q.ep d s else s).mem
  pktdis : t.pktdis = (s.pktdis && decide (k ≠ some .setup))
  frame : t = { s with fifo := rest, mem := t.mem, pktdis := t.pktdis, rdata := t.rdata, draws := t.draws }

theorem afterPass_other {s : State} {k : Option Kind} (hk : k ≠ some .setup) (d : Driver) (q : Entry) (rest : List Entry)
    (v : Word) (n : Nat) : AfterPass s d q rest k { s with fifo := rest, rdata := v, draws := n } where
  memory := by rw [if_neg hk]
  pktdis := by rw [decide_eq_true hk, Bool.and_true]
  frame := rfl

theorem afterPass_setup (s : State) (d : Driver) (q : Entry) (rest : List Entry) (v : Word) (n : Nat) :
    AfterPass s d q rest (some .setup)
      { s with fifo := rest, mem := (reclaimTx q.ep d s).mem, rdata := v, draws := n, pktdis := false } where
  memory := by rw [if_pos rfl]
  pktdis := (Bool.and_false _).symm
  frame := rfl

/-- What a pass does once the entry is popped and its descriptor's flags are read. -/
theorem runProcedure_passOn {d : Driver} (hd : driverPlaced d) (q : Entry) (f : Half) (prIn : Half)
    (next : Half → Driver → Procedure) (s : State) (rest : List Entry) (v : Word) (n : Nat) :
    ∃ t, AfterPass s d q rest (kindOfPid (f.extractLsb' 2 4)) t ∧
      runProcedure (passOn q f prIn d next) { s with fifo := rest, rdata := v, draws := n } =
        runProcedure (next (passReport q prIn (kindOfPid (f.extractLsb' 2 4))) (passDriver q d (kindOfPid (f.extractLsb' 2 4)))) t := by
  unfold passOn
  generalize kindOfPid (f.extractLsb' 2 4) = k
  match k with
  | none => exact ⟨_, afterPass_other (by decide) d q rest v n, rfl⟩
  | some .out => exact ⟨_, afterPass_other (by decide) d q rest v n, rfl⟩
  | some .inn => exact ⟨_, afterPass_other (by decide) d q rest v n, rfl⟩
  | some .setup =>
    obtain ⟨w, hw⟩ := runProcedure_handleSetup hd q.ep (next prIn) { s with fifo := rest, rdata := v, draws := n }
    refine ⟨_, afterPass_setup s d q rest w (n + 1), hw.trans ?_⟩
    simp only [passReport, passDriver]
    congr 1
    unfold reclaimTx
    split <;> rfl

/-- The loop with an entry queued makes one pass. -/
theorem runProcedure_pollLoop_cons {n : Nat} {s : State} (hn : s.fifo.length ≤ n) {d : Driver} (hd : driverPlaced d) {q : Entry}
    {rest : List Entry} (hq : s.fifo = q :: rest) (prIn : Half) :
    ∃ t, AfterPass s d q rest (retiredKind s d.table q) t ∧ runProcedure (pollLoop n prIn d) s =
      runProcedure (pollLoop (n - 1) (passReport q prIn (retiredKind s d.table q))
        (passDriver q d (retiredKind s d.table q))) t := by
  obtain ⟨t, ⟨v, k, rfl⟩, ht⟩ := runProcedure_pollLoop hn prIn d
  have hloop : runProcedure (pollLoop n prIn d) s =
      runProcedure (pollPass prIn d (pollLoop (n - 1))) { s with rdata := v, draws := k } := ht.trans (by rw [hq])
  rw [hloop, runProcedure_pollPass hd.1 (s := { s with rdata := v, draws := k }) hq]
  exact runProcedure_passOn hd q _ prIn _ s rest _ k

/-- The loop with no entry queued comes to its end. -/
theorem runProcedure_pollLoop_nil {s : State} (hq : s.fifo = []) (n : Nat) (prIn : Half) (d : Driver) :
    ∃ v k, runProcedure (pollLoop n prIn d) s = runProcedure (pollEnd prIn d) { s with rdata := v, draws := k } := by
  obtain ⟨t, ⟨v, k, rfl⟩, ht⟩ := runProcedure_pollLoop (n := n) (s := s) (by simp [hq]) prIn d
  refine ⟨v, k, ht.trans ?_⟩
  rw [hq]

/-! ## The whole loop -/

theorem KeptByCalls.cancelTx {I : Driver → Prop} (h : KeptByCalls I) {d : Driver} (hd : I d) (ep : Fin 16) :
    I (updateEcb ep .tx cancelledEcb d) := by
  unfold updateEcb
  split
  · exact hd
  · exact h.cancelled d ep .tx _ hd ‹_›

/-- A pass keeps every condition that the changes of `poll` keep. -/
theorem KeptByPoll.passDriver {I : Driver → Prop} (h : KeptByPoll I) {d : Driver} (hd : I d) (q : Entry) (k : Option Kind) :
    I (Machine.passDriver q d k) := by
  match k with
  | none => exact hd
  | some .out => exact h.notes _ _ _ _ (h.received d q.ep hd)
  | some .inn => exact h.sent d q.ep hd
  | some .setup =>
    exact h.toggled _ _ _ (h.toggled _ _ _ (h.notes _ _ _ _ (h.setup _ _ (h.toKeptByCalls.cancelTx hd q.ep))))

/-- What holds before the loop and is kept by each of its passes holds at its end, with the queue empty. -/
theorem runProcedure_pollLoop_drains {P : State → Driver → Prop}
    (hpass : ∀ s d q rest t, P s d → driverPlaced d → s.fifo = q :: rest →
      AfterPass s d q rest (retiredKind s d.table q) t → P t (passDriver q d (retiredKind s d.table q)))
    (n : Nat) {s : State} {d : Driver} (hn : s.fifo.length ≤ n) (hd : driverPlaced d) (hP : P s d) (prIn : Half) :
    ∃ t v k prIn' d', P t d' ∧ t.fifo = [] ∧
      runProcedure (pollLoop n prIn d) s = runProcedure (pollEnd prIn' d') { t with rdata := v, draws := k } := by
  induction n generalizing s d prIn with
  | zero =>
    have hq : s.fifo = [] := List.length_eq_zero_iff.1 (Nat.le_zero.1 hn)
    obtain ⟨v, k, hrun⟩ := runProcedure_pollLoop_nil hq 0 prIn d
    exact ⟨s, v, k, prIn, d, hP, hq, hrun⟩
  | succ n ih =>
    cases hq : s.fifo with
    | nil =>
      obtain ⟨v, k, hrun⟩ := runProcedure_pollLoop_nil hq (n + 1) prIn d
      exact ⟨s, v, k, prIn, d, hP, hq, hrun⟩
    | cons q rest =>
      obtain ⟨t, hpassed, hrun⟩ := runProcedure_pollLoop_cons hn hd hq prIn
      have hlen : t.fifo.length ≤ n := by
        have hfifo : t.fifo = rest := by rw [hpassed.frame]
        rw [hq, List.length_cons] at hn
        rw [hfifo]
        exact Nat.le_of_succ_le_succ hn
      rw [hrun]
      exact ih hlen (keptByPoll_driverPlaced.passDriver hd q _) (hpass s d q rest t hP hd hq hpassed) _

/-! ## The beginning and the end -/

theorem lowByte_readValue (b : Byte) : lowByte (readValue b) = b := by
  apply BitVec.eq_of_getLsbD_eq
  intro i hi
  rw [getLsbD_lowByte, getLsbD_readValue, decide_eq_true hi, Bool.true_and]

/-- `poll` clears the error flags it reads, and comes to its loop. -/
theorem runProcedure_poll (n : Nat) (d : Driver) (s : State) :
    ∃ v, runProcedure (poll n d) s = runProcedure (pollLoop n 0#16 d) { s with eir := 0#8, rdata := v } := by
  refine ⟨readValue s.eir, ?_⟩
  have hread : exec (readInstr .eir) s = .next { s with rdata := readValue s.eir } := rfl
  rw [poll, runProcedure_rd, hread, andThen_of_next]
  dsimp only
  split
  · rename_i h
    have heir : s.eir = 0#8 := by rw [← lowByte_readValue s.eir, h]; rfl
    rw [← heir]
  · have hwrite : exec (writeInstr (readValue s.eir) .eir) { s with rdata := readValue s.eir } =
        .next { s with eir := 0#8, rdata := readValue s.eir } := by
      simp only [writeInstr, exec, execWrEir, writeReg_zero_mask, lowByte_readValue, clearEir, BitVec.and_not_self]
      rfl
    rw [runProcedure_wr, hwrite, andThen_of_next]

/-- What `poll` reports where it saw no bus reset (R270). -/
def pollAnswer (prIn : Half) (d : Driver) : CallResult :=
  if d.prOut ||| prIn ||| d.prSu = 0#16 then .nothing else .data d.prOut prIn d.prSu

/-- `u` is `s` after the end of `poll`, with the driver's state `d` but for the result (60_exceptions.md R303). -/
structure PollEnded (s : State) (prIn : Half) (d : Driver) (u : State) : Prop where
  frame : u = { s with
    devaddr := u.devaddr, urstif := u.urstif, stallif := u.stallif, ep := u.ep, rdata := u.rdata, draws := u.draws, drv := u.drv }
  urstif : u.urstif = false
  busReset : s.urstif = true → u.drv = { d with result := .busReset } ∧ u.devaddr = 0#7 ∧ u.stallif = s.stallif
  report : s.urstif = false → u.drv = { d with result := pollAnswer prIn d } ∧ u.devaddr = s.devaddr ∧ u.stallif = false
  stall : s.urstif = false → s.stallif = true → u.ep[(0 : Fin 16)].epstall = false

theorem runProcedure_pollReport (prIn : Half) (d : Driver) (s : State) :
    runProcedure (pollReport prIn d) s = .next { s with drv := { d with result := pollAnswer prIn d } } := rfl

/-- A value of an endpoint register with EPSTALL masked off has no reserved bit, and is the register with EPSTALL 0. -/
theorem lowByte_maskedEp (c : EpCtl) : lowByte (readValue (epByte c) &&& 0xFD#32) &&& 0xE0#8 = 0#8 ∧
    epOfBits ((lowByte (readValue (epByte c) &&& 0xFD#32)).extractLsb' 0 5) = { c with epstall := false } := by
  obtain ⟨a, b, c, d, e⟩ := c
  cases a <;> cases b <;> cases c <;> cases d <;> cases e <;> decide

theorem exec_wrEp_masked (c : EpCtl) (n : Fin 16) (s : State) :
    exec (writeInstr (readValue (epByte c) &&& 0xFD#32) (.ep n)) s = .next (setEp s n { c with epstall := false }) := by
  obtain ⟨hclear, hep⟩ := lowByte_maskedEp c
  rw [← hep]
  exact writeReg_of_clear (fun s b => setEp s n (epOfBits (b.extractLsb' 0 5))) s hclear

theorem exec_wrIr_urstif (s : State) : exec (writeInstr 0x01#32 .ir) s = .next { s with urstif := false } := by
  have hlow : lowByte 0x01#32 = 0x01#8 := rfl
  simp only [writeInstr, exec, execWrIr, writeReg_zero_mask, hlow]
  simp [clearIr, bitAt]

theorem exec_wrIr_stallif (s : State) : exec (writeInstr 0x80#32 .ir) s = .next { s with stallif := false } := by
  have hlow : lowByte 0x80#32 = 0x80#8 := rfl
  simp only [writeInstr, exec, execWrIr, writeReg_zero_mask, hlow]
  simp [clearIr, bitAt]

/-- The stall handling clears EPSTALL of endpoint 0 and the flag. -/
theorem runProcedure_pollStall (p : Procedure) (s : State) : ∃ v, runProcedure (pollStall p) s =
    runProcedure p { setEp s 0 { s.ep[(0 : Fin 16)] with epstall := false } with stallif := false, rdata := v } := by
  have hread : exec (readInstr (.ep 0)) s = .next { s with rdata := readValue (epByte s.ep[(0 : Fin 16)]) } := rfl
  refine ⟨readValue (epByte s.ep[(0 : Fin 16)]), ?_⟩
  rw [pollStall, runProcedure_rd, hread, andThen_of_next]
  dsimp only
  rw [runProcedure_wr, exec_wrEp_masked, andThen_of_next, runProcedure_wr, exec_wrIr_stallif, andThen_of_next]
  rfl

/-- The end of `poll` returns (60_exceptions.md R303). -/
theorem runProcedure_pollEnd (prIn : Half) (d : Driver) (s : State) :
    ∃ u, runProcedure (pollEnd prIn d) s = .next u ∧ PollEnded s prIn d u := by
  have hread : ∀ t, exec (readInstr .ir) t =
    .next { t with rdata := readValue (irByte t (Config.freeBits t.draws)), draws := t.draws + 1 } := fun _ => rfl
  rw [pollEnd, runProcedure_rd, hread, andThen_of_next]
  dsimp only
  rw [(irByte_bits s _).2.1]
  by_cases hurst : s.urstif = true
  · have hwrite : ∀ t, exec (writeInstr 0#32 .addr) t = .next { t with devaddr := 0#7 } := fun _ => rfl
    rw [if_pos hurst, runProcedure_wr, hwrite, andThen_of_next, runProcedure_wr, exec_wrIr_urstif, andThen_of_next,
      runProcedure_ret]
    exact ⟨_, rfl, rfl, rfl, fun _ => ⟨rfl, rfl, rfl⟩, fun h => absurd hurst (ne_true_of_eq_false h),
      fun h => absurd hurst (ne_true_of_eq_false h)⟩
  · rw [if_neg hurst, runProcedure_rd, hread, andThen_of_next]
    dsimp only
    rw [(irByte_bits _ _).2.2]
    by_cases hstall : s.stallif = true
    · rw [if_pos hstall]
      obtain ⟨v, hv⟩ := runProcedure_pollStall (pollReport prIn d) _
      rw [hv, runProcedure_pollReport]
      refine ⟨_, rfl, rfl, eq_false_of_ne_true hurst, fun h => absurd h hurst, fun _ => ⟨rfl, rfl, rfl⟩, fun _ _ => ?_⟩
      exact congrArg EpCtl.epstall (ep_setEp_self s 0 { s.ep[(0 : Fin 16)] with epstall := false })
    · rw [if_neg hstall, runProcedure_pollReport]
      exact ⟨_, rfl, rfl, eq_false_of_ne_true hurst, fun h => absurd h hurst,
        fun _ => ⟨rfl, rfl, eq_false_of_ne_true hstall⟩, fun _ h => absurd h hstall⟩

/-- The registers that the loop of `poll` leaves as they are, with EIR cleared before it. -/
def InPoll (s t : State) : Prop :=
  t = { s with
    eir := 0#8, fifo := t.fifo, mem := t.mem, pktdis := t.pktdis, rdata := t.rdata, draws := t.draws }

theorem InPoll.afterPass {s t t' : State} (h : InPoll s t) {d : Driver} {q : Entry} {rest : List Entry} {k : Option Kind}
    (hp : AfterPass t d q rest k t') : InPoll s t' := by
  rw [InPoll, hp.frame, h]

/-- `poll` run as one step returns, and what holds before its loop and is kept by each pass holds at the end of the loop. -/
theorem runCall_poll {P : State → Driver → Prop} {s : State} (hd : driverPlaced s.drv)
    (hP : ∀ v, P { s with eir := 0#8, rdata := v } s.drv)
    (hpass : ∀ s d q rest t, P s d → driverPlaced d → s.fifo = q :: rest →
      AfterPass s d q rest (retiredKind s d.table q) t → P t (passDriver q d (retiredKind s d.table q))) :
    ∃ t d v k prIn u, P t d ∧ t.fifo = [] ∧ runCall .poll s = .next u ∧ PollEnded { t with rdata := v, draws := k } prIn d u := by
  obtain ⟨w, hw⟩ := runProcedure_poll s.fifo.length s.drv s
  obtain ⟨t, v, k, prIn, d, hP', hq, hrun⟩ := runProcedure_pollLoop_drains hpass s.fifo.length
    (s := { s with eir := 0#8, rdata := w }) (Nat.le_refl _) hd (hP w) 0#16
  obtain ⟨u, hu, hended⟩ := runProcedure_pollEnd prIn d { t with rdata := v, draws := k }
  exact ⟨t, d, v, k, prIn, u, hP', hq, hw.trans (hrun.trans hu), hended⟩

/-- Settles O58: each pass pops one entry and leaves the registers, and the end handles the flags as they were. -/
theorem pollDrainsEverything : Obligations.PollDrainsEverything := by
  intro s hd
  obtain ⟨t, d, v, k, prIn, u, ht, hq, hu, hended⟩ := runCall_poll (P := fun t _ => InPoll s t) hd (fun _ => rfl)
    fun _ _ _ _ _ h _ _ => h.afterPass
  have hkeeps := runCall_keeps hu
  have hurst : t.urstif = s.urstif := by rw [ht]
  have hstall : t.stallif = s.stallif := by rw [ht]
  have haddr : t.devaddr = s.devaddr := by rw [ht]
  refine ⟨u, hu, ?_, ?_, hkeeps.ppbi, hkeeps.txn, ?_, fun h => ?_, fun h => ?_⟩
  · rw [hended.frame, ht]
  · rw [hended.frame, ← hq]
  · rw [hended.frame, ht]
  · obtain ⟨hdrv, hdev, hst⟩ := hended.busReset (hurst.trans h)
    exact ⟨congrArg Driver.result hdrv, hdev, hended.urstif, hst.trans hstall⟩
  · obtain ⟨-, hdev, hst⟩ := hended.report (hurst.trans h)
    exact ⟨hdev.trans haddr, hended.urstif, hst, fun hs => hended.stall (hurst.trans h) (hstall.trans hs)⟩

end Sys2Proof.Machine
end

section
/-! SUPPORT. What the passes of `poll` make of the control blocks and of the descriptors' flags (45_software_agent.md R259, R270): the
counters stay in their range, and a SETUP resets its endpoint. -/

namespace Sys2Proof.Machine

/-! ## The control blocks after a pass -/

/-- What `poll` makes of the control block of a direction when it handles a completion of `k` on its endpoint. -/
def handledBlock (k : Option Kind) (dir : Dir) : Ecb → Ecb :=
  match k, dir with
  | some .out, .rx => countReceived
  | some .inn, .tx => countSent
  | some .setup, .rx => fun e => { countReceived (clearedEcb e) with data01 := true }
  | some .setup, .tx => fun e => { cancelledEcb e with data01 := true }
  | some .out, .tx => id
  | some .inn, .rx => id
  | none, _ => id

theorem ecbOf_withNotes (d : Driver) (out su : Half) (r : CallResult) (ep : Fin 16) (dir : Dir) :
    ecbOf { d with prOut := out, prSu := su, result := r } ep dir = ecbOf d ep dir := by
  cases dir <;> rfl

theorem ecbOf_updateEcb_map (n : Fin 16) (dir' : Dir) (f : Ecb → Ecb) (d : Driver) (ep : Fin 16) (dir : Dir) :
    ecbOf (updateEcb n dir' f d) ep dir = (ecbOf d ep dir).map (if ep = n ∧ dir = dir' then f else id) := by
  rw [ecbOf_updateEcb]
  split
  · rfl
  · rw [Option.map_id, id]

theorem ecbOf_handleOut (n : Fin 16) (d : Driver) (ep : Fin 16) (dir : Dir) :
    ecbOf (handleOut n d) ep dir = ecbOf (updateEcb n .rx countReceived d) ep dir :=
  ecbOf_withNotes ..

theorem ecbOf_afterSetup (n : Fin 16) (d : Driver) (ep : Fin 16) (dir : Dir) :
    ecbOf (afterSetup n (updateEcb n .tx cancelledEcb d)) ep dir =
      (ecbOf d ep dir).map (if ep = n then handledBlock (some .setup) dir else id) := by
  simp only [afterSetup, ecbOf_updateEcb, ecbOf_withNotes]
  by_cases hep : ep = n
  · cases dir <;> simp [hep, handledBlock, Function.comp_def]
  · simp [hep]

/-- A pass changes the control blocks of its entry's endpoint alone. -/
theorem ecbOf_passDriver (q : Entry) (d : Driver) (k : Option Kind) (ep : Fin 16) (dir : Dir) :
    ecbOf (passDriver q d k) ep dir = (ecbOf d ep dir).map (if ep = q.ep then handledBlock k dir else id) := by
  match k with
  | none => simp [passDriver, handledBlock]
  | some .out =>
    rw [passDriver, ecbOf_handleOut, ecbOf_updateEcb_map]
    cases dir <;> simp [handledBlock]
  | some .inn =>
    rw [passDriver, handleIn, ecbOf_updateEcb_map]
    cases dir <;> simp [handledBlock]
  | some .setup => exact ecbOf_afterSetup q.ep d ep dir

theorem table_passDriver (q : Entry) (d : Driver) (k : Option Kind) : (passDriver q d k).table = d.table :=
  (keptByPoll_table (· = d.table)).passDriver rfl q k

/-! ## The flags of the descriptors after a pass -/

theorem readHalf_memCongr {s t : State} (h : t.mem = s.mem) (a : Nat) : readHalf t a = readHalf s a :=
  readHalf_congr (readByte_congr s t h _) (readByte_congr s t h _)

/-- Two different descriptors of a table are 8 bytes apart or more (20_memory.md R62). -/
theorem bdAddr_apart (table : Word) {ep ep' : Fin 16} {dir dir' : Dir} (h : ¬(ep = ep' ∧ dir = dir')) (odd odd' : Bool) :
    bdAddr table ep dir odd + 8 ≤ bdAddr table ep' dir' odd' ∨ bdAddr table ep' dir' odd' + 8 ≤ bdAddr table ep dir odd := by
  have hne : bdIndex ep dir odd ≠ bdIndex ep' dir' odd' := fun heq =>
    h ⟨(bdIndex_injective heq).1, (bdIndex_injective heq).2.1⟩
  simp only [bdAddr]
  omega

/-- `cancel` of the IN side zeroes the flags of its two descriptors and leaves those of all others (R259). -/
theorem readHalf_reclaimTx {d : Driver} (hd : driverPlaced d) (ep ep' : Fin 16) (dir' : Dir) (odd' : Bool) (s : State) :
    readHalf (reclaimTx ep d s) (bdAddr d.table ep' dir' odd') =
      if (ep' = ep ∧ dir' = .tx) ∧ (ecbOf d ep .tx).isSome then 0#16 else readHalf s (bdAddr d.table ep' dir' odd') := by
  cases he : ecbOf d ep .tx with
  | none => rw [reclaimTx_none he, if_neg (by simp)]
  | some e =>
    have hslot := slotOf_eq_bdAddr (hd.2 ep .tx e he)
    rw [reclaimTx_some he]
    by_cases h : ep' = ep ∧ dir' = .tx
    · rw [if_pos ⟨h, rfl⟩, h.1, h.2, ← hslot, readHalf_takenBack]
    · have hapart := fun odd => bdAddr_apart d.table h odd' odd
      rw [if_neg (fun hh => h hh.1)]
      refine readHalf_congr (readByte_takenBack (fun odd => ?_) s) (readByte_takenBack (fun odd => ?_) s)
      · have := hapart odd
        rw [hslot]
        omega
      · have := hapart odd
        rw [hslot]
        omega

section AfterPass

variable {s t : State} {d : Driver} {q : Entry} {rest : List Entry} {k : Option Kind} (h : AfterPass s d q rest k t)
  (hd : driverPlaced d)
include h hd

/-- A pass zeroes the flags of the descriptors it cancels and leaves those of all others. -/
theorem AfterPass.readHalf_descriptor (ep : Fin 16) (dir : Dir) (odd : Bool) :
    readHalf t (bdAddr d.table ep dir odd) =
      if k = some .setup ∧ (ep = q.ep ∧ dir = .tx) ∧ (ecbOf d q.ep .tx).isSome then 0#16
      else readHalf s (bdAddr d.table ep dir odd) := by
  rw [readHalf_memCongr h.memory]
  by_cases hk : k = some .setup
  · rw [if_pos hk, readHalf_reclaimTx hd]
    simp only [hk, true_and]
  · rw [if_neg hk, if_neg (fun hh => hk hh.1)]

/-- No pass makes a descriptor name another token. -/
theorem AfterPass.retiredKind_eq {r : Entry} {k' : Kind} (hr : retiredKind t d.table r = some k') :
    retiredKind s d.table r = some k' := by
  rw [retiredKind, h.readHalf_descriptor hd] at hr
  split at hr
  · exact absurd hr (by decide +revert)
  · exact hr

/-- Where a SETUP cancelled the IN side of its endpoint, the descriptors there name no token. -/
theorem AfterPass.retiredKind_cancelled (hk : k = some .setup) (htx : (ecbOf d q.ep .tx).isSome) {r : Entry}
    (hr : r.ep = q.ep ∧ r.dir = .tx) : retiredKind t d.table r = none := by
  rw [retiredKind, h.readHalf_descriptor hd, if_pos ⟨hk, hr, htx⟩]
  rfl

end AfterPass

/-! ## The counters in `poll` -/

/-- How many queued completions of an endpoint direction name a token in the driver's table. -/
def namedFor (s : State) (table : Word) (ep : Fin 16) (dir : Dir) : Nat :=
  s.fifo.countP fun r => (r.ep == ep && r.dir == dir) && (retiredKind s table r).isSome

/-- The counters are in their range, each `armed_ctr` covers the completions that `poll` will count, and each of these is one of its
direction (41_descriptor_ops.md R171). -/
structure Covers (s : State) (d : Driver) : Prop where
  blocks : ∀ ep dir e, ecbOf d ep dir = some e → EcbInRange e ∧ (namedFor s d.table ep dir : Int) ≤ e.armedCtr
  pids : ∀ q ∈ s.fifo, ∀ k, retiredKind s d.table q = some k → dirOf k = q.dir

theorem namedFor_le_queuedFor (s : State) (table : Word) (ep : Fin 16) (dir : Dir) :
    namedFor s table ep dir ≤ queuedFor s ep dir :=
  List.countP_mono_left fun r _ hr => by
    rw [Bool.and_eq_true] at hr
    exact hr.1

/-- A pass takes its entry off the count, and adds none. -/
theorem AfterPass.namedFor_le {s t : State} {d : Driver} {q : Entry} {rest : List Entry} {k : Option Kind}
    (h : AfterPass s d q rest k t) (hd : driverPlaced d) (hq : s.fifo = q :: rest) (ep : Fin 16) (dir : Dir) :
    namedFor t d.table ep dir + (if (q.ep = ep ∧ q.dir = dir) ∧ (retiredKind s d.table q).isSome then 1 else 0) ≤
      namedFor s d.table ep dir := by
  have hfifo : t.fifo = rest := by rw [h.frame]
  have hrest : namedFor t d.table ep dir ≤
      rest.countP fun r => (r.ep == ep && r.dir == dir) && (retiredKind s d.table r).isSome := by
    rw [namedFor, hfifo]
    refine List.countP_mono_left fun r _ hr => ?_
    simp only [Bool.and_eq_true] at hr ⊢
    obtain ⟨k', hk'⟩ := Option.isSome_iff_exists.1 hr.2
    exact ⟨hr.1, by rw [h.retiredKind_eq hd hk']; rfl⟩
  conv_rhs => rw [namedFor, hq, List.countP_cons]
  simp only [Bool.and_eq_true, beq_iff_eq]
  exact Nat.add_le_add_right hrest _

/-- A completion is counted in a block that covers it. -/
theorem inRange_countSent {e : Ecb} {n m : Nat} (h : EcbInRange e ∧ (m : Int) ≤ e.armedCtr) (hn : n + 1 ≤ m) :
    EcbInRange (countSent e) ∧ (n : Int) ≤ (countSent e).armedCtr := by
  obtain ⟨⟨-, hb⟩, hm⟩ := h
  have harmed : (countSent e).armedCtr = e.armedCtr - 1 := rfl
  exact ⟨⟨by omega, ecbBounded_countSent hb⟩, by omega⟩

theorem inRange_countReceived {e : Ecb} {n m : Nat} (h : EcbInRange e ∧ (m : Int) ≤ e.armedCtr) (hn : n + 1 ≤ m) :
    EcbInRange (countReceived e) ∧ (n : Int) ≤ (countReceived e).armedCtr := by
  obtain ⟨⟨-, hb⟩, hm⟩ := h
  have harmed : (countReceived e).armedCtr = e.armedCtr - 1 := rfl
  exact ⟨⟨by omega, ecbBounded_countReceived hb⟩, by omega⟩

/-- A SETUP leaves no completion of the block it cancels to count. -/
theorem AfterPass.namedFor_cancelled {s t : State} {d : Driver} {q : Entry} {rest : List Entry} {k : Option Kind}
    (h : AfterPass s d q rest k t) (hd : driverPlaced d) (hk : k = some .setup) (htx : (ecbOf d q.ep .tx).isSome) :
    namedFor t d.table q.ep .tx = 0 := by
  rw [namedFor, List.countP_eq_zero]
  intro r _ hr
  simp only [Bool.and_eq_true, beq_iff_eq] at hr
  rw [h.retiredKind_cancelled hd hk htx hr.1] at hr
  exact absurd hr.2 Bool.false_ne_true

/-- A pass keeps the cover of a block of its endpoint: the entry it counts there is off the count, and a block it cancels has none
left. -/
theorem AfterPass.covers_handled {s t : State} {d : Driver} {q : Entry} {rest : List Entry}
    (h : AfterPass s d q rest (retiredKind s d.table q) t) (hd : driverPlaced d) (hq : s.fifo = q :: rest)
    (hpid : ∀ k, retiredKind s d.table q = some k → dirOf k = q.dir) {dir : Dir} {e : Ecb} (he : ecbOf d q.ep dir = some e)
    (hcover : EcbInRange e ∧ (namedFor s d.table q.ep dir : Int) ≤ e.armedCtr) :
    EcbInRange (handledBlock (retiredKind s d.table q) dir e) ∧
      (namedFor t d.table q.ep dir : Int) ≤ (handledBlock (retiredKind s d.table q) dir e).armedCtr := by
  have hcount := h.namedFor_le hd hq q.ep dir
  have hstays : EcbInRange e ∧ (namedFor t d.table q.ep dir : Int) ≤ e.armedCtr := ⟨hcover.1, by omega⟩
  cases hk : retiredKind s d.table q with
  | none => exact hstays
  | some k =>
    have hcounted : dirOf k = dir → namedFor t d.table q.ep dir + 1 ≤ namedFor s d.table q.ep dir := fun hdir => by
      rwa [if_pos ⟨⟨rfl, (hpid k hk).symm.trans hdir⟩, by rw [hk]; rfl⟩] at hcount
    match k, dir with
    | .out, .rx => exact inRange_countReceived hcover (hcounted rfl)
    | .out, .tx => exact hstays
    | .inn, .rx => exact hstays
    | .inn, .tx => exact inRange_countSent hcover (hcounted rfl)
    | .setup, .rx =>
      exact inRange_countReceived (e := clearedEcb e) ⟨keptOfBlock_ecbInRange.cleared e hcover.1, hcover.2⟩ (hcounted rfl)
    | .setup, .tx =>
      rw [h.namedFor_cancelled hd hk (by rw [he]; rfl)]
      exact ⟨keptOfBlock_ecbInRange.cancelled e hcover.1, le_rfl⟩

theorem Covers.afterPass {s t : State} {d : Driver} {q : Entry} {rest : List Entry} (hc : Covers s d) (hd : driverPlaced d)
    (hq : s.fifo = q :: rest) (h : AfterPass s d q rest (retiredKind s d.table q) t) :
    Covers t (passDriver q d (retiredKind s d.table q)) := by
  constructor
  · intro ep dir e' he'
    rw [ecbOf_passDriver, Option.map_eq_some_iff] at he'
    obtain ⟨e, he, rfl⟩ := he'
    rw [table_passDriver]
    have hcover := hc.blocks ep dir e he
    by_cases hep : ep = q.ep
    · subst hep
      rw [if_pos rfl]
      exact h.covers_handled hd hq (hc.pids q (by rw [hq]; exact List.mem_cons_self)) he hcover
    · have hcount := h.namedFor_le hd hq ep dir
      rw [if_neg hep]
      exact ⟨hcover.1, le_trans (by omega) hcover.2⟩
  · intro r hr k hk
    rw [table_passDriver] at hk
    have hfifo : t.fifo = rest := by rw [h.frame]
    exact hc.pids r (by rw [hq]; exact List.mem_cons_of_mem _ (hfifo ▸ hr)) k (h.retiredKind_eq hd hk)

/-- The end of `poll` leaves the control blocks. -/
theorem PollEnded.drv {s : State} {prIn : Half} {d : Driver} {u : State} (h : PollEnded s prIn d u) :
    ∃ r, u.drv = { d with result := r } := by
  cases hurst : s.urstif with
  | true => exact ⟨_, (h.busReset hurst).1⟩
  | false => exact ⟨_, (h.report hurst).1⟩

/-- Settles O53: a call other than `poll` keeps the range block by block; each pass of `poll` keeps the cover of its queue. -/
theorem driverCountersStayInRange : Obligations.DriverCountersStayInRange := by
  refine ⟨fun s u c => runCall_inRange, fun s hd hrange hpids hcover => ?_⟩
  have hstart : ∀ v, Covers { s with eir := 0#8, rdata := v } s.drv := fun v =>
    { blocks := fun ep dir e he => ⟨hrange ep dir e he,
        le_trans (Int.ofNat_le.2 (namedFor_le_queuedFor s s.drv.table ep dir)) (hcover ep dir e he)⟩
      pids := hpids }
  obtain ⟨t, d, v, k, prIn, u, hc, -, hu, hended⟩ := runCall_poll (P := Covers) hd hstart
    fun _ _ _ _ _ hc hd hq h => hc.afterPass hd hq h
  obtain ⟨r, hdrv⟩ := hended.drv
  refine ⟨u, hu, fun ep dir e he => ?_⟩
  rw [hdrv, ecbOf_withNotes] at he
  exact (hc.blocks ep dir e he).1

/-! ## A SETUP in `poll` -/

theorem bitmaps_updateEcb (ep : Fin 16) (dir : Dir) (f : Ecb → Ecb) (d : Driver) :
    (updateEcb ep dir f d).prOut = d.prOut ∧ (updateEcb ep dir f d).prSu = d.prSu := by
  unfold updateEcb
  split
  · exact ⟨rfl, rfl⟩
  · cases dir <;> exact ⟨rfl, rfl⟩

/-- A SETUP is noted in its bitmap. -/
theorem bitmaps_afterSetup (ep : Fin 16) (d : Driver) :
    (afterSetup ep d).prOut = d.prOut ∧ (afterSetup ep d).prSu = d.prSu ||| epMask ep := by
  simp only [afterSetup, bitmaps_updateEcb, and_self]

theorem getLsbD_or_epMask (b : Half) (ep : Fin 16) : (b ||| epMask ep).getLsbD ep.val = true := by
  have hlt := ep.isLt
  simp [epMask, hlt]

/-- A noted SETUP is reported. -/
theorem pollAnswer_setup (prIn : Half) {d : Driver} {ep : Fin 16} (h : d.prSu.getLsbD ep.val = true) :
    pollAnswer prIn d = .data d.prOut prIn d.prSu := by
  rw [pollAnswer, if_neg]
  intro hzero
  have hbit := congrArg (fun b : Half => b.getLsbD ep.val) hzero
  simp only [BitVec.getLsbD_or, h, Bool.or_true, BitVec.getLsbD_zero, Bool.true_eq_false] at hbit

/-- The packet identifier in the flags of a retired SETUP (30_encoding.md R95). -/
theorem kindOfPid_setup {f : Half} (h : f.toNat / 4 % 16 = 13) : kindOfPid (f.extractLsb' 2 4) = some .setup := by
  have hpid : f.extractLsb' 2 4 = pidOf .setup := by
    apply BitVec.eq_of_toNat_eq
    rw [BitVec.extractLsb'_toNat, Nat.shiftRight_eq_div_pow]
    exact h
  rw [hpid, kindOfPid_pidOf]

/-- `poll` run as one step with one completion queued: one pass, and the end. -/
theorem runCall_poll_one {s : State} (hd : driverPlaced s.drv) {q : Entry} (hq : s.fifo = [q]) :
    ∃ v t w n u, AfterPass { s with eir := 0#8, rdata := v } s.drv q [] (retiredKind s s.drv.table q) t ∧
      runCall .poll s = .next u ∧ PollEnded { t with rdata := w, draws := n } (passReport q 0#16 (retiredKind s s.drv.table q))
        (passDriver q s.drv (retiredKind s s.drv.table q)) u := by
  obtain ⟨v, hpoll⟩ := runProcedure_poll s.fifo.length s.drv s
  obtain ⟨t, hpass, hloop⟩ := runProcedure_pollLoop_cons (s := { s with eir := 0#8, rdata := v }) (Nat.le_refl _) hd hq 0#16
  have hempty : t.fifo = [] := by rw [hpass.frame]
  obtain ⟨w, n, hend⟩ := runProcedure_pollLoop_nil hempty (s.fifo.length - 1)
    (passReport q 0#16 (retiredKind s s.drv.table q)) (passDriver q s.drv (retiredKind s s.drv.table q))
  obtain ⟨u, hu, hended⟩ := runProcedure_pollEnd (passReport q 0#16 (retiredKind s s.drv.table q))
    (passDriver q s.drv (retiredKind s s.drv.table q)) { t with rdata := w, draws := n }
  exact ⟨v, t, w, n, u, hpass, hpoll.trans (hloop.trans (hend.trans hu)), hended⟩

/-- Settles O59: the one pass handles the SETUP, and the end reports it. -/
theorem pollHandlesSetup : Obligations.PollHandlesSetup := by
  intro s ep odd rx tx hd hq hurst hpid hrx htx
  obtain ⟨v, t, w, n, u, hpass, hu, hended⟩ := runCall_poll_one hd hq
  have hkind : retiredKind s s.drv.table { ep := ep, dir := .rx, odd := odd } = some .setup := kindOfPid_setup hpid
  rw [hkind] at hpass hended
  obtain ⟨hdrv, -, -⟩ := hended.report (by rw [hpass.frame]; exact hurst)
  have hblock : ∀ dir e, ecbOf s.drv ep dir = some e →
      ecbOf u.drv ep dir = some (handledBlock (some .setup) dir e) := fun dir e he => by
    rw [hdrv, ecbOf_withNotes, ecbOf_passDriver, he, if_pos rfl]
    rfl
  have hmaps := bitmaps_afterSetup ep (updateEcb ep .tx cancelledEcb s.drv)
  rw [(bitmaps_updateEcb ..).1, (bitmaps_updateEcb ..).2] at hmaps
  obtain ⟨hout, hsu⟩ := hmaps
  refine ⟨u, _, _, hu, ?_, hblock .rx rx hrx, hblock .tx tx htx, rfl, rfl, rfl, rfl, rfl, rfl, fun o => ?_, ?_,
    getLsbD_or_epMask s.drv.prSu ep⟩
  · rw [hended.frame, hpass.pktdis]
    exact Bool.and_false _
  · rw [readHalf_memCongr (s := t) (by rw [hended.frame]), hpass.readHalf_descriptor hd, if_pos]
    exact ⟨rfl, ⟨rfl, rfl⟩, by rw [htx]; rfl⟩
  · have hreport := pollAnswer_setup (ep := ep) 0#16 (d := afterSetup ep (updateEcb ep .tx cancelledEcb s.drv))
      (by rw [hsu]; exact getLsbD_or_epMask ..)
    rw [hout, hsu] at hreport
    rw [hdrv]
    exact hreport

end Sys2Proof.Machine
end

section
/-! SUPPORT. The interrupt request as the mask of the flags' word by IE (60_exceptions.md R300). -/

namespace Sys2Proof.Machine

/-- The modelled flags at their places in IR, as R300 masks them. -/
def requestFlags (s : State) : Byte :=
  BitVec.ofNat 8 (128 * natOfBool s.stallif + 8 * natOfBool (decide (0 < s.fifo.length)) + natOfBool s.urstif)

/-- The flags stand at bits 7, 3 and 0, and every other bit is 0. -/
theorem getLsbD_requestFlags (s : State) (i : Nat) : (requestFlags s).getLsbD i = true ↔
    (i = 7 ∧ s.stallif = true) ∨ (i = 3 ∧ trnif s = true) ∨ (i = 0 ∧ s.urstif = true) := by
  rw [requestFlags, ← trnif_eq_decide]
  generalize s.stallif = stall, trnif s = trn, s.urstif = urst
  by_cases hi : i < 8
  · revert stall trn urst
    revert i
    decide
  · rw [BitVec.getLsbD_of_ge _ _ (Nat.le_of_not_lt hi), Bool.false_eq_true, false_iff]
    omega

theorem and_ne_zero_iff_exists_getLsbD {w : Nat} (x y : BitVec w) :
    x &&& y ≠ 0#w ↔ ∃ i, x.getLsbD i = true ∧ y.getLsbD i = true := by
  rw [ne_eq, BitVec.zero_iff_eq_false, not_forall]
  simp only [BitVec.getLsbD_and, Bool.not_eq_false, Bool.and_eq_true]

/-- The request by its three pairs of a flag and its enable bit. -/
theorem irq_iff (s : State) : irq s = true ↔
    (s.stallif = true ∧ s.ie.getLsbD 7 = true) ∨ (trnif s = true ∧ s.ie.getLsbD 3 = true) ∨
      (s.urstif = true ∧ s.ie.getLsbD 0 = true) := by
  simp only [irq, bitAt, Bool.or_eq_true, Bool.and_eq_true, and_comm, or_assoc]

/-- Settles O19: the masked word has a bit left exactly where one of its three flags meets its enable bit. -/
theorem interruptRequest : Obligations.InterruptRequest := by
  intro s
  change irq s = true ↔ requestFlags s &&& s.ie ≠ 0#8
  rw [irq_iff, and_ne_zero_iff_exists_getLsbD]
  simp only [getLsbD_requestFlags, or_and_right, exists_or, and_assoc, exists_eq_left]

end Sys2Proof.Machine
end

section
/-! SUPPORT. The bring-up of the driver (45_software_agent.md R262, R264): what `new` and `enable` leave behind. -/

namespace Sys2Proof.Machine

/-- A 512-aligned address is the base that SETBASE of its bytes leaves (10_state.md R50, 30_encoding.md R108). -/
theorem bdtBase_of_setBase {s : State} {a : Word} (ha : a.toNat % 512 = 0)
    (h1 : s.bdtp1 = (a.extractLsb' 8 8).extractLsb' 1 7) (h2 : s.bdtp2 = a.extractLsb' 16 8)
    (h3 : s.bdtp3 = a.extractLsb' 24 8) : bdtBase s = a := by
  apply BitVec.eq_of_toNat_eq
  simp only [bdtBase_toNat, h1, h2, h3, BitVec.extractLsb'_toNat, Nat.shiftRight_eq_div_pow]
  omega

theorem ecbOf_initial (table : Word) (ep : Fin 16) (dir : Dir) :
    ecbOf { Driver.initial with table := table } ep dir = none :=
  Option.eq_none_iff_forall_ne_some.2 fun e he => everyEcb_initial (fun _ _ _ => False) table ep dir e he

/-- `new` stops the engine, powers the module and sets the base: every endpoint is off, and the driver has the table alone. -/
theorem runCall_new (table : Word) (s : State) : ∃ ep : Vector EpCtl 16, (∀ n : Fin 16, ep[n] = EpCtl.zero) ∧
    runCall (.new table) s = .next { s with
      usben := false
      pktdis := false
      otgcon := 0#8
      usbpwr := true
      ep := ep
      bdtp1 := (table.extractLsb' 8 8).extractLsb' 1 7
      bdtp2 := table.extractLsb' 16 8
      bdtp3 := table.extractLsb' 24 8
      drv := { Driver.initial with table := table } } := by
  have hcon : exec (.wrCon 0#32) s = .next { s with usben := false, pktdis := false } := (controlWrite s 0#32).1 rfl rfl
  have hotgcon := fun t => (exec_wrOtgcon_cases t 0#32).1 rfl
  have hpwrc := fun t => (exec_wrPwrc_cases t 1#32).1 rfl
  obtain ⟨ep, hdisable, hzero⟩ := runProcedure_disableAll (List.finRange 16)
    (setBase table (.returns { Driver.initial with table := table }))
    { s with usben := false, pktdis := false, otgcon := 0#8, usbpwr := true }
  refine ⟨ep, fun n => hzero n (.inl (List.mem_finRange n)), ?_⟩
  change runProcedure (newBus table) s = _
  rw [newBus, runProcedure_wr, writeInstr, hcon, andThen_of_next, runProcedure_wr, writeInstr, hotgcon, andThen_of_next,
    runProcedure_wr, writeInstr, hpwrc, andThen_of_next]
  exact hdisable.trans (runProcedure_setBase ..)

/-- `enable` unmasks the three interrupts and enables the module; the 0 in bit 5 of CON clears PKTDIS. -/
theorem runCall_enable (s : State) : runCall .enable s = .next { s with
    ie := 0x89#8
    usben := true
    pktdis := false
    drv := { s.drv with result := .ok } } := by
  have hie : exec (.wrIe 0x89#32) s = .next { s with ie := 0x89#8 } := (plainRegisterWrites s 0x89#32).1
  have hcon := fun t => (controlWrite t 0x01#32).1 rfl rfl
  change runProcedure (enableBus s.drv) s = _
  rw [enableBus, runProcedure_wr, writeInstr, hie, andThen_of_next, runProcedure_wr, writeInstr, hcon, andThen_of_next,
    runProcedure_ret]
  rfl

/-- Settles O57: `enable` keeps the table, the endpoints and the power that `new` left, and sets USBEN. -/
theorem bringUp : Obligations.BringUp := by
  intro s table htable
  obtain ⟨ep, hzero, hnew⟩ := runCall_new table s
  rw [hnew, andThen_of_next, runCall_enable]
  refine ⟨_, rfl, rfl, bdtBase_of_setBase htable rfl rfl rfl, hzero, rfl, rfl, rfl, rfl, rfl, fun ep dir => ?_, rfl,
    fun ep dir => ?_⟩
  · exact ppbi_congr _ _ rfl rfl ep dir
  · exact (ecbOf_withNotes ..).trans (ecbOf_initial table ep dir)

end Sys2Proof.Machine
end
